-- ==== Sys2Proof/Word.lean ====
section
/-! DEFINITION. The plain value types of the block: bytes, bits and names of audio samples.

Bit vectors hold only what the spec treats as bits: a byte of the tape, the byte at a port, a one-bit
flag that is packed into a byte. Every counter, index, offset, length and tick is a natural number (R6). -/

namespace Sys2Proof

/-- One byte: a symbol of the bitstream, a byte of an input, the data at a port. Bits are numbered
7 (most significant) down to 0 (00_scope.md, section 5). -/
abbrev Byte := BitVec 8

/-- One bit: a decoded symbol (R45), `bitLatch` (R14), `psgPhase` (R38), the printer-status flag (R66). -/
abbrev Bit := BitVec 1

/-- The symbol `'1'`, byte 0x31 (R60). -/
def symOne : Byte := 0x31#8

/-- The symbol `'0'`, byte 0x30 (R60). -/
def symZero : Byte := 0x30#8

/-- A NAME of an audio sample. What a sample is, is OPEN (R5, R168, D29): `Config.Sample`, a type that may differ with
the configuration. The machine's state is plain data, so it holds names, and a configuration says which sample each name
reads as (`Config.sampleOf`). Nothing computes with a name. DESIGN CHOICE (log entry 5). -/
structure SampleName where
  code : Nat
  deriving DecidableEq, Repr, Inhabited

end Sys2Proof
end

