-- ==== Sys2Proof/Config.lean ====
section
/-! DEFINITION. The implementation parameters of R5, the derived bound CAT_MAX, and the free values.

*Fixed* parameters are named constants. *Decided* and *OPEN* parameters are fields of one record,
`Config`, which a state carries (R5: the model takes one configuration record; R203 point 4: it is fixed
before the first operation and does not change during a run). The record of the machine after reset has the
decided defaults and OPEN values that nothing in Lean can see (`Config.openChoice`, without a body). -/

namespace Sys2Proof

/-! ### Fixed parameters (R5) -/

/-- `CONTAINER_HDR_LEN` (R5): length of the optional container header of raw binary input. -/
def Config.containerHdrLen : Nat := 16

/-- `ONES_MIN` (R5). -/
def Config.onesMin : Nat := 40

/-- `BOUNDARY_MIN` (R5). -/
def Config.boundaryMin : Nat := 40

/-- `HDR_BACK` (R5): from the 40th boundary symbol back to the header start. -/
def Config.hdrBack : Nat := 79

/-- `HDR_SKIP` (R5): from a header start to the start of the next pass. -/
def Config.hdrSkip : Nat := 800

/-- `TYPE_OFF` (R5). -/
def Config.typeOff : Nat := 82

/-- `NAME_OFF` (R5). -/
def Config.nameOff : Nat := 91

/-- `NAME_LEN` (R5). -/
def Config.nameLen : Nat := 17

/-- `FIELD_BITS` (R5). -/
def Config.fieldBits : Nat := 8

/-- `CHAR_STRIDE` (R5). -/
def Config.charStride : Nat := 9

/-- `PRINT_LO`, the character `'!'` (R5). -/
def Config.printLo : Byte := 0x21#8

/-- `PRINT_HI`, the character `'z'` (R5). -/
def Config.printHi : Byte := 0x7A#8

/-- `FILL`, the space (R5). -/
def Config.fill : Byte := 0x20#8

/-- `TICK_SHIFT` (R5). -/
def Config.tickShift : Nat := 5

/-- `RING_MAX` (R5). -/
def Config.ringMax : Nat := 1024

/-- `RING_DEFAULT` (R5). -/
def Config.ringDefault : Nat := 128

/-- `RATE_DEFAULT` (R5). -/
def Config.rateDefault : Nat := 44100

/-- `VOLUME_DEFAULT`, one half (R5; the source writes "~0.5", log entry 4). -/
def Config.volumeDefault : Rat := mkRat 1 2

/-- `TAPE_CAP`'s decided value, 2^28 (R5, D3). -/
def Config.tapeCapDefault : Nat := 268435456

/-! ### Decided and OPEN parameters -/

/-- `SCAN_BREAK_POLICY` (R5, R103): what a `'1'` does inside an unfinished boundary run. -/
inductive ScanBreakPolicy where
  | resetCount
  | resetNocount
  | ignore
  deriving DecidableEq, Repr

/-- An IO address pattern: the addresses that agree with `value` on the bits of `mask` (R5 `PORT_CAS0`,
`PORT_CAS1`; the form of a pattern is a DESIGN CHOICE, log entry 12). -/
structure AddrPattern where
  mask : BitVec 16
  value : BitVec 16
  deriving DecidableEq, Repr

/-- An IO address range, both ends included (R5 `PORT_MOTOR`). -/
structure AddrRange where
  lo : BitVec 16
  hi : BitVec 16
  deriving DecidableEq, Repr

/-- The OPEN parameters of R5. `Sample` and `add` are the field `sampleAlgebra`; `Config.Sample` and `Config.add` below are
what it stands for. -/
structure OpenParams where
  /-- `MAGIC`; `MAGIC_LEN` is its length. -/
  magic : List Byte
  /-- `T_ADV_1`, `T_ADV_0`, `T_LVL_1`, `T_LVL_0` (R148). -/
  tAdv1 : Nat
  tAdv0 : Nat
  tLvl1 : Nat
  tLvl0 : Nat
  /-- `MOTOR_CTRL_BIT`, 0 to 7. -/
  motorCtrlBit : Fin 8
  /-- `SPEED_BOOST`, greater than 1.0. The spec gives it no number type; a rational number is a DESIGN CHOICE (log
  entry 15). -/
  speedBoost : Rat
  /-- `PORT_CAS0`, `PORT_CAS1`, `PORT_MOTOR`. -/
  portCas0 : AddrPattern
  portCas1 : AddrPattern
  portMotor : AddrRange
  /-- `Sample` and `add`: which type of samples and which addition (`Config.openAlgebra`, log entry 5). -/
  sampleAlgebra : Nat
  /-- The IO-read patterns decoded before the cassette-bit ports, apart from the VRAM range (R43): keyboard scan,
  video-mode registers, sound-chip ports. Their addresses are not in the source (log entry 12). -/
  portsKeyboard : List AddrPattern
  portsVideo : List AddrPattern
  portsSound : List AddrPattern
  deriving DecidableEq, Repr

/-- The tag constraint of R5: 1 ≤ `MAGIC_LEN` ≤ 16, and `MAGIC[0]` is neither 0x30 nor 0x31. -/
def OpenParams.magicOk (p : OpenParams) : Bool :=
  match p.magic with
  | [] => false
  | b :: rest => decide (rest.length + 1 ≤ Config.containerHdrLen) && !(b == symZero) && !(b == symOne)

/-- A type of samples with its `add` (R168, D29): any type and any operation on it. Beside them stands how the state names
samples (log entry 5): the sample each name reads as, and for each sum of named samples a name that reads as that sum.
Two names may read as one sample. -/
structure SampleAlgebra where
  carrier : Type
  add : carrier → carrier → carrier
  read : SampleName → carrier
  name : carrier → SampleName
  read_name_add : ∀ m n, read (name (add (read m) (read n))) = add (read m) (read n)

/-- A sample type; it only shows that there is one, as `OpenParams.inhabitant` does below. -/
def SampleAlgebra.inhabitant : SampleAlgebra := ⟨Unit, fun _ _ => (), fun _ => (), fun _ => ⟨0⟩, fun _ _ => rfl⟩

/-- A sample type and its addition, as the constant `Config.openAlgebra` supplies them. -/
structure OpenAlgebra where
  algebra : SampleAlgebra := SampleAlgebra.inhabitant
  deriving Inhabited

/-- All that the spec says of the OPEN parameters (R5, R148). -/
def OpenParams.wf (p : OpenParams) : Bool :=
  p.magicOk && decide (p.tAdv0 < p.tAdv1) && decide (p.tLvl1 < p.tAdv1) && decide (p.tLvl0 < p.tAdv0)
    && decide (1 < p.speedBoost)

/-- A record that meets the constraints; it only shows that there is one (Lean asks for that before it takes a
constant without a body). No definition of the machine uses it. -/
def OpenParams.inhabitant : OpenParams :=
  { magic := [0#8], tAdv1 := 2, tAdv0 := 1, tLvl1 := 0, tLvl0 := 0, motorCtrlBit := 0, speedBoost := 2,
    portCas0 := ⟨0, 0⟩, portCas1 := ⟨0, 0⟩, portMotor := ⟨0, 0⟩, sampleAlgebra := 0, portsKeyboard := [],
    portsVideo := [], portsSound := [] }

/-- OPEN parameters together with the constraints the spec states of them. -/
structure ValidOpenParams where
  params : OpenParams := OpenParams.inhabitant
  ok : params.wf = true := by decide
  deriving Inhabited

/-- The configuration record of R5: the OPEN parameters and the decided ones. -/
structure Config extends OpenParams where
  /-- `TAPE_CAP`. -/
  tapeCap : Nat
  scanBreakPolicy : ScanBreakPolicy
  /-- `INSERT_FAIL_CLEARS_CATALOG`. -/
  insertFailClearsCatalog : Bool
  /-- `WRAP_GE_PORT`, `WRAP_GE_MOTOR`. -/
  wrapGePort : Bool
  wrapGeMotor : Bool
  deriving DecidableEq, Repr

/-- The constraints on a configuration record: those on its OPEN parameters (R5). -/
def Config.wf (c : Config) : Bool := c.toOpenParams.wf

/-- `CAT_MAX` = ceil(`TAPE_CAP` / `HDR_SKIP`) (R5, R108). -/
def Config.catMax (c : Config) : Nat := (c.tapeCap + (Config.hdrSkip - 1)) / Config.hdrSkip

/-! ### Free values: constants without a body, so that no proof can see what they are -/

/-- The OPEN parameters of this machine, whatever they are. -/
opaque Config.openChoice : ValidOpenParams

/-- The configuration of the machine after reset: decided parameters at their defaults (R5), OPEN ones free. -/
def Config.platform : Config :=
  { toOpenParams := Config.openChoice.params
    tapeCap := Config.tapeCapDefault
    scanBreakPolicy := .resetCount
    insertFailClearsCatalog := false
    wrapGePort := false
    wrapGeMotor := false }

/-- `draw(bit)` of `Sym(i)` at `i` ≥ `length` (R45, R46): the n-th draw of a run. -/
opaque Config.freeBit : Nat → Bit

/-- The content of a byte of the tape buffer that nothing has written (R201, D42), when a rule reads it. -/
opaque Config.freeByte : Nat → Byte

/-- The content of a ring slot that nothing has written (R201, U12), when a flush reads it. -/
opaque Config.freeSample : Nat → SampleName

/-- `Sample` and `add` of every configuration: nothing is known of the type, of its size or of the operation. -/
opaque Config.openAlgebra : Nat → OpenAlgebra

/-! ### `Sample` and `add` of a configuration (R5, R168) -/

/-- `Sample` of a configuration (R5, R168): a type nothing is assumed of; each configuration may have its own. -/
def Config.Sample (c : Config) : Type := (Config.openAlgebra c.sampleAlgebra).algebra.carrier

/-- `add` of a configuration (R5, R168): the sum of two samples. Nothing is assumed of it but that, within one
configuration, it depends on the two operands alone. -/
def Config.add (c : Config) : c.Sample → c.Sample → c.Sample := (Config.openAlgebra c.sampleAlgebra).algebra.add

/-- The sample that a name reads as. -/
def Config.sampleOf (c : Config) : SampleName → c.Sample := (Config.openAlgebra c.sampleAlgebra).algebra.read

/-- A name for a sample; a sum of named samples reads back as itself (`Config.sampleOf_nameOf_add`). -/
def Config.nameOf (c : Config) : c.Sample → SampleName := (Config.openAlgebra c.sampleAlgebra).algebra.name

/-- The name of the sum of two named samples: their `add`, named. -/
def Config.sumName (c : Config) (x y : SampleName) : SampleName := c.nameOf (c.add (c.sampleOf x) (c.sampleOf y))

end Sys2Proof
end

