-- ==== Sys2Proof/Syntax.lean ====
section
/-! DEFINITION. The operations of R70, one constructor per row of spec/opcode_table.json, and the operand lines
of a request (R69: operands are not packed into a word, each is a separate input of the request). -/

namespace Sys2Proof

/-- The operations of the block (R70). -/
inductive Instr where
  /-- `NOP`, 0x0 (R71). -/
  | nop
  /-- `TINSERT`, 0x1 (R80): `in`, a byte sequence or null (`none`); `N` is its length. -/
  | tinsert (input : Option (List Byte))
  /-- `TEJECT`, 0x2 (R90). -/
  | teject
  /-- `TSELECT`, 0x3 (R122): a catalog index. -/
  | tselect (i : Nat)
  /-- `TCUR`, 0x4 (R124). -/
  | tcur
  /-- `TCATN`, 0x5 (R120). -/
  | tcatn
  /-- `TCATE`, 0x6 (R121): a catalog index. -/
  | tcate (i : Nat)
  /-- `CASRD`, 0x7 (R129). -/
  | casrd
  /-- `TPOLL`, 0x8 (R140): the tick counter and the printer-status flag. -/
  | tpoll (tick : Nat) (prn : Bit)
  /-- `MOTORW`, 0x9 (R145): the byte written and the tick counter. -/
  | motorw (data : Byte) (tick : Nat)
  /-- `ACONFIG`, 0xA (R161): sample rate, sample count and volume, each optional. -/
  | aconfig (rate : Option Nat) (count : Option Nat) (vol : Option Rat)
  /-- `APULSE`, 0xB (R163): the beeper's boundary report and the two sources' current samples, by
  name (log entry 5). -/
  | apulse (bstrobe : Bool) (bval : SampleName) (pval : SampleName)
  /-- The reserved codes 0xC to 0xF (R71); `x` is `OP[1:0]`. -/
  | reserved (x : BitVec 2)
  deriving DecidableEq, Repr

/-- The mnemonic of an operation, as the table spells it. -/
def Instr.mnemonic : Instr → String
  | .nop => "NOP"
  | .tinsert _ => "TINSERT"
  | .teject => "TEJECT"
  | .tselect _ => "TSELECT"
  | .tcur => "TCUR"
  | .tcatn => "TCATN"
  | .tcate _ => "TCATE"
  | .casrd => "CASRD"
  | .tpoll _ _ => "TPOLL"
  | .motorw _ _ => "MOTORW"
  | .aconfig _ _ _ => "ACONFIG"
  | .apulse _ _ _ => "APULSE"
  | .reserved _ => "RESERVED"

/-- The operand inputs of a request (R69, R70): one line for each operand some operation takes. An operation
reads the lines its row of R70 names and no others. -/
structure OperandLines where
  /-- `in` of `TINSERT`; `none` is null. -/
  input : Option (List Byte)
  /-- `i` of `TSELECT` and `TCATE`. -/
  index : Nat
  /-- `tick` of `TPOLL` and `MOTORW`. -/
  tick : Nat
  /-- `prn` of `TPOLL`. -/
  prn : Bit
  /-- `data` of `MOTORW`. -/
  data : Byte
  /-- `rate`, `count`, `vol` of `ACONFIG`; `none` is absent. -/
  rate : Option Nat
  count : Option Nat
  vol : Option Rat
  /-- `bstrobe`, `bval`, `pval` of `APULSE`; a sample is given by name (log entry 5). -/
  bstrobe : Bool
  bval : SampleName
  pval : SampleName
  deriving DecidableEq, Repr

/-- Operand lines that carry nothing: null, absent, zero. -/
def OperandLines.idle : OperandLines :=
  { input := none, index := 0, tick := 0, prn := 0, data := 0, rate := none, count := none, vol := none,
    bstrobe := false, bval := ⟨0⟩, pval := ⟨0⟩ }

/-- An operation request (R69): the code `OP[3:0]` and the operand lines beside it. -/
structure Request where
  code : BitVec 4
  lines : OperandLines
  deriving DecidableEq, Repr

/-- The bus pins (R73): a 16-bit address, an 8-bit data value, and the flag bits. -/
structure BusPins where
  address : BitVec 16
  data : Byte
  memRequest : Bool
  ioRequest : Bool
  read : Bool
  write : Bool
  interruptRequest : Bool
  deriving DecidableEq, Repr

/-- What one elementary clock pulse brings to the mixer (R163, R8): the operands of one `APULSE`. -/
structure Pulse where
  bstrobe : Bool
  bval : SampleName
  pval : SampleName
  deriving DecidableEq, Repr

/-- One poll of its input line by the sound component (R73): the operands of one `TPOLL`. -/
structure Poll where
  tick : Nat
  prn : Bit
  deriving DecidableEq, Repr

/-- What one call of the bus dispatcher brings to the block (R169, R187): `numTicks` pulses, the bus pins, the tick
counter, and what the spec leaves to others, taken as inputs (R8). -/
structure BusCall where
  pulses : List Pulse
  pins : BusPins
  tick : Nat
  /-- The polls the sound component makes while it handles an IO read of its ports in this call (R187). -/
  polls : List Poll
  /-- Where the pins ask at once for a read and for a write that are both the block's: the read is made, and not the
  write. The spec allows at most one transaction and does not say which (log entry 12). -/
  readWins : Bool
  deriving DecidableEq, Repr

/-- The pseudo-operations of R74 that have a fixed expansion from their operands. -/
inductive PseudoOp where
  /-- `CATALOG`: the whole catalog. -/
  | catalog
  /-- `DISPATCH_AUDIO n, ...`: one pulse after another; n is the number of pulses. -/
  | dispatchAudio (pulses : List Pulse)
  /-- `REWIND`: `TSELECT 0`. -/
  | rewind
  deriving DecidableEq, Repr

end Sys2Proof
end

