-- ==== Sys2Proof/WellFormed.lean ====
section
/-! DEFINITION. The operand domains the operation table states (spec/opcode_table.json, R161).

An operation outside its domain is still decoded and still has the meaning R161 gives it (a rate of 0 selects
the default, a volume outside 0.0 to 1.0 is refused), so no statement about `exec` needs these checks. -/

namespace Sys2Proof

/-- `rate` is a positive integer or absent (R161). -/
def rateInDomain : Option Nat → Bool
  | none => true
  | some r => decide (0 < r)

/-- `vol` is a value from 0.0 to 1.0 or absent (R161). -/
def volInDomain : Option Rat → Bool
  | none => true
  | some v => decide (0 ≤ v) && decide (v ≤ 1)

/-- Every operand lies in the domain its row of the table states. -/
def Instr.wellFormed : Instr → Bool
  | .nop => true
  | .tinsert _ => true
  | .teject => true
  | .tselect _ => true
  | .tcur => true
  | .tcatn => true
  | .tcate _ => true
  | .casrd => true
  | .tpoll _ _ => true
  | .motorw _ _ => true
  | .aconfig rate _ vol => rateInDomain rate && volInDomain vol
  | .apulse _ _ _ => true
  | .reserved _ => true

end Sys2Proof
end

