-- ==== Sys2Proof/Decode.lean ====
section
/-! DEFINITION. From a request to an operation, and back (R69, R70, R71).

The format `OP4` is a 4-bit code; operands stand on lines of their own beside it. -/

namespace Sys2Proof

/-- The operation a code names, with the operands of its row of R70 taken from the operand lines.
Total: the codes 0xC to 0xF are the reserved row (R71). -/
def decode (op : BitVec 4) (l : OperandLines) : Instr :=
  match op with
  | 0x0#4 => .nop
  | 0x1#4 => .tinsert l.input
  | 0x2#4 => .teject
  | 0x3#4 => .tselect l.index
  | 0x4#4 => .tcur
  | 0x5#4 => .tcatn
  | 0x6#4 => .tcate l.index
  | 0x7#4 => .casrd
  | 0x8#4 => .tpoll l.tick l.prn
  | 0x9#4 => .motorw l.data l.tick
  | 0xA#4 => .aconfig l.rate l.count l.vol
  | 0xB#4 => .apulse l.bstrobe l.bval l.pval
  | c => .reserved (c.extractLsb' 0 2)

/-- The operation a request asks for. -/
def Request.instr (r : Request) : Instr := decode r.code r.lines

/-- Why a sequence of bytes carries no operation code. -/
inductive DecodeError where
  /-- There is no byte. -/
  | noCode
  /-- Bits 7 to 4 of the byte are not all zero: the code is 4 bits wide (R69). -/
  | codeTooWide
  /-- There is a second byte: there is one format and one length (R69). -/
  | extraBytes
  deriving DecidableEq, Repr

/-- The code carried by bytes: `OP[3:0]` is bits 3 to 0 of the one byte (log entry 2). -/
def decodeCode : List Byte → Except DecodeError (BitVec 4)
  | [] => .error .noCode
  | [b] => if b.extractLsb' 4 4 = 0#4 then .ok (b.extractLsb' 0 4) else .error .codeTooWide
  | _ :: _ :: _ => .error .extraBytes

/-- Decoding of bytes, with the operand lines beside them: total, rejecting by name. -/
def decodeBytes (bs : List Byte) (l : OperandLines) : Except DecodeError Instr :=
  match decodeCode bs with
  | .ok op => .ok (decode op l)
  | .error e => .error e

/-- The bytes of a word of `nbits` bits numbered as spec/opcode_table.json numbers them. -/
def wordBytes (nbits w : Nat) : List Byte :=
  (List.range ((nbits + 7) / 8)).map fun k => BitVec.ofNat 8 (w >>> (8 * k))

/-- The operation the decoder reads from a word of the opcode table, the operand lines carrying nothing. -/
def decodeTableWord (nbits w : Nat) : Option Instr :=
  match decodeBytes (wordBytes nbits w) .idle with
  | .ok i => some i
  | .error _ => none

/-- The code of an operation (R70). -/
def Instr.code : Instr → BitVec 4
  | .nop => 0x0#4
  | .tinsert _ => 0x1#4
  | .teject => 0x2#4
  | .tselect _ => 0x3#4
  | .tcur => 0x4#4
  | .tcatn => 0x5#4
  | .tcate _ => 0x6#4
  | .casrd => 0x7#4
  | .tpoll _ _ => 0x8#4
  | .motorw _ _ => 0x9#4
  | .aconfig _ _ _ => 0xA#4
  | .apulse _ _ _ => 0xB#4
  | .reserved x => 0x3#2 ++ x

/-- The operand lines of an operation: its operands on their lines, the other lines idle. -/
def Instr.lines : Instr → OperandLines
  | .nop => .idle
  | .tinsert input => { OperandLines.idle with input := input }
  | .teject => .idle
  | .tselect i => { OperandLines.idle with index := i }
  | .tcur => .idle
  | .tcatn => .idle
  | .tcate i => { OperandLines.idle with index := i }
  | .casrd => .idle
  | .tpoll tick prn => { OperandLines.idle with tick := tick, prn := prn }
  | .motorw data tick => { OperandLines.idle with data := data, tick := tick }
  | .aconfig rate count vol => { OperandLines.idle with rate := rate, count := count, vol := vol }
  | .apulse bstrobe bval pval => { OperandLines.idle with bstrobe := bstrobe, bval := bval, pval := pval }
  | .reserved _ => .idle

/-- The request that asks for an operation. -/
def encode (i : Instr) : Request := { code := i.code, lines := i.lines }

/-- The byte that carries an operation's code. -/
def Instr.codeBytes (i : Instr) : List Byte := [i.code.setWidth 8]

/-- One row of the operation table: a code `c` is the row's when `c AND mask = pattern`. -/
structure OpRow where
  mnemonic : String
  pattern : BitVec 4
  mask : BitVec 4
  deriving DecidableEq, Repr

/-- spec/opcode_table.json, row by row (R70, R71). -/
def opTable : List OpRow :=
  [ ⟨"NOP", 0x0, 0xF⟩, ⟨"TINSERT", 0x1, 0xF⟩, ⟨"TEJECT", 0x2, 0xF⟩, ⟨"TSELECT", 0x3, 0xF⟩,
    ⟨"TCUR", 0x4, 0xF⟩, ⟨"TCATN", 0x5, 0xF⟩, ⟨"TCATE", 0x6, 0xF⟩, ⟨"CASRD", 0x7, 0xF⟩,
    ⟨"TPOLL", 0x8, 0xF⟩, ⟨"MOTORW", 0x9, 0xF⟩, ⟨"ACONFIG", 0xA, 0xF⟩, ⟨"APULSE", 0xB, 0xF⟩,
    ⟨"RESERVED", 0xC, 0xC⟩ ]

/-- A code is of a row. -/
def OpRow.covers (r : OpRow) (op : BitVec 4) : Bool := op &&& r.mask == r.pattern

end Sys2Proof
end

