-- ==== Sys2Proof/Machine/State.lean ====
section
/-! DEFINITION. The state of the block (10_state.md), its results and events, the reasons a request is refused,
and the state after reset (R200, R201). -/

namespace Sys2Proof.Machine

/-- A private address space of the block, sparse (R36): pairs of an index and what is stored there, indices
strictly rising, an index that is not listed has not been written. `Memory Byte` is a list of `Host.Cell`. -/
abbrev Memory (α : Type) := List (Nat × α)

/-- One catalog entry (R26): the name's bytes and the header start. -/
structure CatEntry where
  name : List Byte
  offset : Nat
  deriving DecidableEq, Repr

/-- The two values of `speed` (R32): 1.0, and `SPEED_BOOST`. -/
inductive Speed where
  | normal
  | boost
  deriving DecidableEq, Repr

/-- What an operation returns to its requester (R70, column "result"). -/
inductive Result where
  | none
  /-- `TINSERT`. -/
  | success (ok : Bool)
  /-- `TCUR`. -/
  | index (i : Nat)
  /-- `TCATN`. -/
  | count (n : Nat)
  /-- `TCATE`. -/
  | entry (name : List Byte) (offset : Nat)
  /-- `CASRD`: the byte for the data pins. -/
  | data (byte : Byte)
  /-- `TPOLL`: the status byte. -/
  | status (byte : Byte)
  /-- `APULSE`: whether the sound generator is advanced on this pulse. -/
  | psgTick (advance : Bool)
  deriving DecidableEq, Repr

/-- The samples-ready event (R75, R184); the samples are named, and read by `Config.sampleOf` (log entry 5). -/
structure SamplesEvent where
  samples : List SampleName
  count : Nat
  deriving DecidableEq, Repr

/-- The faults of the block: there are none. "No operation of this block traps, faults or aborts" (R180). -/
inductive Fault where
  deriving DecidableEq, Repr

/-- Why a step has no outcome: only an operation without a meaning, and there is none. A request that R182 refuses is no
such case: it changes nothing, the mark stays, and the block goes on (`RefusalReason`). -/
inductive Refusal where
  /-- Raised by an arm of `exec` whose instruction has no meaning yet (none in this model). Safe. -/
  | notModelled (mnemonic : String)
  deriving DecidableEq, Repr

/-- The reasons of R182, under the spec's own names. A refused request changes no state and returns nothing; the reason is
kept as a mark for the whole run (`State.refuse`). -/
inductive RefusalReason where
  /-- Codes 0xC to 0xF (R71). -/
  | reservedOp
  /-- `TINSERT` of a normalised bitstream longer than `TAPE_CAP` (R82). -/
  | tapeTooLong
  /-- `TCATE` and `TSELECT` of an index that names no entry (R121, R123). -/
  | catalogIndexOutOfRange
  /-- `TPOLL` with `tick` < `tickAtLastAdvance` (R149). -/
  | tickWentBackwards
  /-- `ACONFIG` when the configuration is closed (R162). -/
  | reconfigure
  /-- `ACONFIG` with a volume outside 0.0 to 1.0 (R161). -/
  | volumeOutOfRange
  /-- Any request made from inside a samples-ready event (R186). -/
  | reentry
  /-- A read of the tape buffer at or above `TAPE_CAP` (R44); no reachable state asks for one. -/
  | tapeIndexOutOfBuffer
  deriving DecidableEq, Repr

/-- The state of one block (10_state.md section 1), the interface to its requesters, and the counter of draws. -/
structure State where
  /-- The configuration record (R5). No operation writes it (R203 point 4). -/
  cfg : Config
  /-- The tape buffer `tape[0 .. TAPE_CAP-1]` (R10, R40): what has been written, by index. -/
  tape : Memory Byte
  /-- `length` (R11): the number of valid bytes of `tape`. -/
  length : Nat
  /-- `cursor` (R12): the next bit to read. -/
  cursor : Nat
  /-- The catalog (R13, R26, R41), entry 0 first; `catCount` is its length (`State.catCount`). -/
  cat : List CatEntry
  /-- `engaged` (R23). -/
  engaged : Bool
  /-- `pulseLatch` (R24). -/
  pulseLatch : Bool
  /-- `bitLatch` (R14). -/
  bitLatch : Bit
  /-- `tickAtLastAdvance` (R15). -/
  tickAtLastAdvance : Nat
  /-- `speed` (R32). -/
  speed : Speed
  /-- The sample ring `ring[0 .. RING_MAX-1]` (R42): what has been written, by index; a sample is held by name,
  and reads as an element of the configuration's own type `Config.Sample` (R168, log entry 5). -/
  ring : Memory SampleName
  /-- `ringCap` (R30). -/
  ringCap : Nat
  /-- `wcur` (R20): the ring slot the next sample goes to. -/
  wcur : Nat
  /-- `sampleRate` (R31). -/
  sampleRate : Nat
  /-- `volume` (R31). -/
  volume : Rat
  /-- `psgPhase` (R38). -/
  psgPhase : Bit
  /-- `configured` (R35). -/
  configured : Bool
  /-- Interface: the requests waiting, the next one first (R7: they never overlap). -/
  requests : List Request
  /-- Interface: the requests the host makes from inside each coming samples-ready event, the next event's first
  (R186: it must make none). -/
  callback : List (List Request)
  /-- Interface: what the last operation returned. -/
  result : Result
  /-- Interface: the samples-ready event the last operation emitted, if it emitted one. -/
  event : Option SamplesEvent
  /-- The refusal mark of R182, kept for the whole run: the reason of every request refused so far, in order. -/
  refusals : List RefusalReason
  /-- The model's own: the number of draws made so far (R46: each draw is fresh). -/
  draws : Nat
  deriving DecidableEq, Repr

/-- `catCount` (R13): the number of catalog entries. -/
abbrev State.catCount (s : State) : Nat := s.cat.length

/-- The machine right after reset (R200, R201): the Tape Codec as `TEJECT` leaves it, the motor off, the mixer
empty with the default options; nothing listed in either memory. -/
def State.reset : State :=
  { cfg := Config.platform
    tape := []
    length := 0
    cursor := 0
    cat := []
    engaged := false
    pulseLatch := false
    bitLatch := 0
    tickAtLastAdvance := 0
    speed := .normal
    ring := []
    ringCap := Config.ringDefault
    wcur := 0
    sampleRate := Config.rateDefault
    volume := Config.volumeDefault
    psgPhase := 0
    configured := false
    requests := []
    callback := []
    result := .none
    event := none
    refusals := []
    draws := 0 }

end Sys2Proof.Machine
end

