-- ==== Sys2Proof/Machine/Ops.lean ====
section
/-! DEFINITION. The named operations over the memories and registers that the meanings share: memory access,
`Sym` and the draws, answering and refusing a requester, entering and leaving the samples-ready event, taking the next
request. -/

namespace Sys2Proof.Machine

/-! ### A sparse memory -/

/-- What is stored at an index; `none` where nothing has been written. -/
def Memory.read {α : Type} : Memory α → Nat → Option α
  | [], _ => none
  | (k, v) :: m, a => if k = a then some v else Memory.read m a

/-- Store one value, keeping the indices strictly rising. -/
def Memory.write {α : Type} : Memory α → Nat → α → Memory α
  | [], a, v => [(a, v)]
  | (k, w) :: m, a, v =>
    if a < k then (a, v) :: (k, w) :: m else if a = k then (a, v) :: m else (k, w) :: Memory.write m a v

/-- The canonical form: indices strictly rising. No entry equals what an unlisted index reads as, since an
unlisted index holds no value. -/
abbrev Memory.wf {α : Type} (m : Memory α) : Prop := m.Pairwise fun c d => c.1 < d.1

/-- Values laid out at successive indices from `a`. -/
def Memory.cellsFrom {α : Type} : Nat → List α → Memory α
  | _, [] => []
  | a, v :: vs => (a, v) :: Memory.cellsFrom (a + 1) vs

/-- Store a run of values at successive indices from `a`: the loop of R83 in one pass
(`Laws/Memory.lean` shows that it is the loop of single stores). -/
def Memory.writeRun {α : Type} (m : Memory α) (a : Nat) (vs : List α) : Memory α :=
  m.filter (fun c => decide (c.1 < a)) ++ Memory.cellsFrom a vs ++ m.filter (fun c => decide (a + vs.length ≤ c.1))

/-- Drop the cells below an index. -/
def Memory.dropBelow {α : Type} (a : Nat) (m : Memory α) : Memory α := m.dropWhile fun c => decide (c.1 < a)

/-- What is stored at `n` successive indices from `a`, read in one pass. -/
def Memory.readRun {α : Type} : Memory α → Nat → Nat → List (Option α)
  | _, _, 0 => []
  | m, a, n + 1 =>
    match Memory.dropBelow a m with
    | [] => none :: Memory.readRun [] (a + 1) n
    | (k, v) :: rest =>
      if k = a then some v :: Memory.readRun rest (a + 1) n else none :: Memory.readRun ((k, v) :: rest) (a + 1) n

/-! ### The tape buffer: `MemRead`, `MemWrite`, `Sym` (R44, R45, R46) -/

/-- An index at or above `TAPE_CAP` has no meaning: `MemRead` and `MemWrite` refuse it (R44). -/
def State.tapeIndexRefused (s : State) (i : Nat) : Bool := decide (s.cfg.tapeCap ≤ i)

/-- `Sym(i)` calls `MemRead` only for `i` < `length` (R45), so it is refused only there. -/
def State.symRefused (s : State) (i : Nat) : Bool := decide (i < s.length) && s.tapeIndexRefused i

/-- The byte a cell holds; a cell that nothing has written holds a free value, drawn afresh (R201, D42). The
second component is the number of draws made so far. -/
def cellByte (c : Option Byte) (d : Nat) : Byte × Nat :=
  match c with
  | some b => (b, d)
  | none => (Config.freeByte d, d + 1)

/-- `MemRead(TAPE, i, 1)` for `i` < `TAPE_CAP` (R44). -/
def State.memRead (s : State) (d : Nat) (i : Nat) : Byte × Nat := cellByte (s.tape.read i) d

/-- `'1'` is bit 1, every other byte is bit 0 (R45, D19). -/
def bitOfSymbol (b : Byte) : Bit := if b = symOne then 1 else 0

/-- `Sym(i)` (R45): the bit of the symbol at index `i`; at or above `length` a fresh draw. -/
def State.sym (s : State) (d : Nat) (i : Nat) : Bit × Nat :=
  if i < s.length then
    match s.memRead d i with
    | (b, d') => (bitOfSymbol b, d')
  else (Config.freeBit d, d + 1)

/-- The valid bytes from index `p` on, as the scan reads them one after another (R102). -/
def State.tapeFrom (s : State) (p : Nat) : List (Option Byte) := Memory.readRun s.tape p (s.length - p)

/-- Store a normalised bitstream (R83): the catalog cleared, the bytes written from index 0 on, `length` set,
`cursor` at 0. Bytes at index `|out|` and above keep their content. -/
def State.loadTape (s : State) (out : List Byte) : State :=
  { s with cat := [], tape := s.tape.writeRun 0 out, length := out.length, cursor := 0 }

/-- Set the catalog to the scan's entries, with the draws the scan made (R100, R107). -/
def State.withCatalog (s : State) (es : List CatEntry) (d : Nat) : State := { s with cat := es, draws := d }

/-! ### The sample ring (R42, R166, R167) -/

/-- `MemWrite(RING, wcur, 1, v)` and the step of `wcur` (R166). -/
def State.pushSample (s : State) (v : SampleName) : State :=
  { s with ring := s.ring.write s.wcur v, wcur := s.wcur + 1 }

/-- The samples of a list of slots; a slot that nothing has written holds a free value, drawn afresh. -/
def slotSamples : List (Option SampleName) → Nat → List SampleName × Nat
  | [], d => ([], d)
  | some v :: cs, d =>
    match slotSamples cs d with
    | (vs, d') => (v :: vs, d')
  | none :: cs, d =>
    match slotSamples cs (d + 1) with
    | (vs, d') => (Config.freeSample d :: vs, d')

/-! ### The samples-ready event (R184, R185, R186) -/

/-- Event entry (R185): the host receives `ring[0] .. ring[ringCap-1]` in index order and the count; nothing else
of the block's state is saved or changed. -/
def State.enterSamplesReady (s : State) : SamplesEvent × State :=
  match slotSamples (s.ring.readRun 0 s.ringCap) s.draws with
  | (vs, d) => ({ samples := vs, count := s.ringCap }, { s with draws := d })

/-- The host's turn inside the event (R185, R186): every request it makes is refused with `reentry`, whatever operation it
asks for, and changes nothing but the mark. -/
def State.hostTurn (s : State) : State :=
  { s with refusals := s.refusals ++ (s.callback.headD []).map fun _ => .reentry, callback := s.callback.tail }

/-- Event return (R185 point 4): `wcur` goes to 0 and the pulse completes. -/
def State.returnSamplesReady (s : State) : State := { s with wcur := 0 }

/-! ### Answering a requester -/

/-- Return a result; the operation emits no event. -/
def State.answer (s : State) (r : Result) : State := { s with result := r, event := none }

/-- Return a result after emitting an event. -/
def State.answerEvent (s : State) (r : Result) (e : SamplesEvent) : State := { s with result := r, event := some e }

/-- `Refuse(r)` (R182): the request changes no state and returns nothing, and the mark is kept. -/
def State.refuse (s : State) (r : RefusalReason) : State :=
  { s with refusals := s.refusals ++ [r], result := .none, event := none }

/-! ### Taking the next request (R7) -/

/-- The next request and the state without it. -/
def State.fetch (s : State) : Option (Request × State) :=
  match s.requests with
  | [] => none
  | r :: rest => some (r, { s with requests := rest })

/-- Put a request at the front of those waiting. -/
def State.present (s : State) (r : Request) : State := { s with requests := r :: s.requests }

/-- Put at the front the request whose code a word of the opcode table carries, its operand lines carrying
nothing; a word that carries no code presents nothing. -/
def State.presentWord (s : State) (nbits w : Nat) : State :=
  match decodeCode (wordBytes nbits w) with
  | .ok op => s.present { code := op, lines := .idle }
  | .error _ => s

end Sys2Proof.Machine
end

