-- ==== Sys2Proof/Machine/Operands.lean ====
section
/-! DEFINITION. The forms an operand can take and what each is turned into: the tape inputs of `TINSERT`
(R61 to R63, R84 to R86), the options of `ACONFIG` (R161), the control bit of `MOTORW` (R145), the tick
difference of `TPOLL` (R141). -/

namespace Sys2Proof.Machine

/-- `'0'` or `'1'` (R60). -/
def isSymbol (b : Byte) : Bool := b == symZero || b == symOne

/-- Classification by the first byte alone (R63). -/
def isAscii (bytes : List Byte) : Bool :=
  match bytes with
  | [] => false
  | b :: _ => isSymbol b

/-- `FilterAscii` (R85): the bytes equal to `'0'` or `'1'`, in order. -/
def filterAscii (bytes : List Byte) : List Byte := bytes.filter isSymbol

/-- The symbol of one bit. -/
def symbolOfBit (b : Bool) : Byte := if b then symOne else symZero

/-- The eight symbols of a byte, most significant bit first (R84, R47). -/
def symbolsOf (b : Byte) : List Byte :=
  [symbolOfBit (b.getLsbD 7), symbolOfBit (b.getLsbD 6), symbolOfBit (b.getLsbD 5), symbolOfBit (b.getLsbD 4),
   symbolOfBit (b.getLsbD 3), symbolOfBit (b.getLsbD 2), symbolOfBit (b.getLsbD 1), symbolOfBit (b.getLsbD 0)]

/-- `SkipLen` (R86). -/
def skipLen (cfg : Config) (bytes : List Byte) : Nat :=
  if Config.containerHdrLen ≤ bytes.length ∧ bytes.take cfg.magic.length = cfg.magic then Config.containerHdrLen else 0

/-- `ExpandBinary` (R84). -/
def expandBinary (cfg : Config) (bytes : List Byte) : List Byte := (bytes.drop (skipLen cfg bytes)).flatMap symbolsOf

/-- The normalised bitstream of an input that has a first byte (R83). -/
def normalise (cfg : Config) (bytes : List Byte) : List Byte :=
  if isAscii bytes then filterAscii bytes else expandBinary cfg bytes

/-- The bytes of an input that has a first byte; `none` for null and for the empty input (R81). -/
def validInput (input : Option (List Byte)) : Option (List Byte) :=
  match input with
  | none => none
  | some [] => none
  | some (b :: bs) => some (b :: bs)

/-- The sample rate an `ACONFIG` asks for (R161): absent or 0 gives the default. -/
def rateOption (rate : Option Nat) : Nat :=
  match rate with
  | none => Config.rateDefault
  | some r => if r = 0 then Config.rateDefault else r

/-- The ring capacity an `ACONFIG` asks for (R161): absent or 0 gives the default, above `RING_MAX` gives `RING_MAX`. -/
def countOption (count : Option Nat) : Nat :=
  match count with
  | none => Config.ringDefault
  | some n => if n = 0 then Config.ringDefault else if Config.ringMax < n then Config.ringMax else n

/-- The volume an `ACONFIG` asks for (R161). -/
def volOption (vol : Option Rat) : Rat := vol.getD Config.volumeDefault

/-- A volume is present and lies outside 0.0 to 1.0 (R161). -/
def volumeRefused (vol : Option Rat) : Bool :=
  match vol with
  | none => false
  | some v => decide (v < 0) || decide (1 < v)

/-- The control bit of a motor-control write (R145, R68); the other seven bits are ignored. -/
def controlBit (cfg : Config) (data : Byte) : Bool := data.getLsbD cfg.motorCtrlBit.val

/-- `elapsed` (R141), for a `tick` that has not gone backwards. -/
def State.elapsed (s : State) (tick : Nat) : Nat := (tick - s.tickAtLastAdvance) >>> Config.tickShift

end Sys2Proof.Machine
end

