-- ==== Sys2Proof/Machine/Flags.lean ====
section
/-! DEFINITION. The one-bit conditions and packed views: the thresholds and level of the bit reader (R142, R143),
the status byte (R66, R144), the port data byte (R67), the wrap test of the cursor (R126), the pulse edge (R145),
the sound generator's divider (R165). -/

namespace Sys2Proof.Machine

/-- A flag as a bit. -/
def bitOfBool (b : Bool) : Bit := BitVec.ofBool b

/-- `T_ADV_1` when `bitLatch` is 1, `T_ADV_0` when it is 0 (R142). -/
def advThreshold (cfg : Config) (latch : Bit) : Nat := if latch = 1 then cfg.tAdv1 else cfg.tAdv0

/-- `T_LVL_1` when `bitLatch` is 1, `T_LVL_0` when it is 0 (R143). -/
def lvlThreshold (cfg : Config) (latch : Bit) : Nat := if latch = 1 then cfg.tLvl1 else cfg.tLvl0

/-- `level` (R143): 1 when `elapsed` exceeds the level threshold of the latch. -/
def levelBit (cfg : Config) (latch : Bit) (elapsed : Nat) : Bit := bitOfBool (decide (lvlThreshold cfg latch < elapsed))

/-- The status byte (R66, R144): `(level << 7) | (notEngaged << 6) | (prn << 2) | 0x3B`. -/
def statusByte (level : Bit) (engaged : Bool) (prn : Bit) : Byte :=
  (level.setWidth 8 <<< 7) ||| ((bitOfBool (!engaged)).setWidth 8 <<< 6) ||| (prn.setWidth 8 <<< 2) ||| 0x3B#8

/-- The data byte of a cassette-bit port (R67): `bit << 7`. -/
def portByte (b : Bit) : Byte := b.setWidth 8 <<< 7

/-- The client that performs a bit read (R126). -/
inductive Site where
  | port
  | motor
  deriving DecidableEq, Repr

/-- The wrap comparator of a site: `>=` when true, `>` when false (R126, D17). -/
def wrapGe (cfg : Config) (site : Site) : Bool :=
  match site with
  | .port => cfg.wrapGePort
  | .motor => cfg.wrapGeMotor

/-- The cursor after the wrap test of R126. -/
def wrapCursor (ge : Bool) (cursor length : Nat) : Nat :=
  if ge then (if length ≤ cursor then 0 else cursor) else (if length < cursor then 0 else cursor)

/-- A write is a detected pulse (R145): the control bit is set and was not set in the write before. -/
def State.pulse (s : State) (ctl : Bool) : Bool := ctl && !s.pulseLatch

/-- The sound generator is advanced on the pulses that find `psgPhase` = 1 (R165). -/
def State.psgTick (s : State) : Bool := s.psgPhase == 1

/-- `Sanitize` (R112). -/
def sanitize (v : Byte) : Byte := if Config.printLo ≤ v ∧ v ≤ Config.printHi then v else Config.fill

end Sys2Proof.Machine
end

