-- ==== Sys2Proof/Machine/HeaderScan.lean ====
section
/-! DEFINITION. The header scan and the field decode (41_header_scan.md), which `TINSERT` runs. They read the state
and write none; a draw counter is passed along, because a symbol at or above `length` is a fresh draw (R113). -/

namespace Sys2Proof.Machine

/-- `BreakOnOne` (R103): (`onesRun`, `boundaryHits`) after a `'1'` inside an unfinished boundary run. -/
def breakOnOne (policy : ScanBreakPolicy) (onesRun boundaryHits : Nat) : Nat × Nat :=
  match policy with
  | .resetCount => (1, 0)
  | .resetNocount => (0, 0)
  | .ignore => (onesRun + 1, boundaryHits)

/-- The loop of `ScanPass` (R102) over the valid bytes from `scanIdx` on: the header start, if the pass finds one. -/
def passFrom (policy : ScanBreakPolicy) :
    List (Option Byte) → (scanIdx onesRun boundaryHits d : Nat) → Option Nat × Nat
  | [], _, _, _, d => (none, d)
  | c :: cs, scanIdx, onesRun, boundaryHits, d =>
    match cellByte c d with
    | (b, d') =>
      if b = symOne then
        if 0 < boundaryHits then
          match breakOnOne policy onesRun boundaryHits with
          | (o, h) => passFrom policy cs (scanIdx + 1) o h d'
        else passFrom policy cs (scanIdx + 1) (onesRun + 1) boundaryHits d'
      else if Config.onesMin ≤ onesRun then
        if Config.boundaryMin ≤ boundaryHits + 1 then (some (scanIdx - Config.hdrBack), d')
        else passFrom policy cs (scanIdx + 1) onesRun (boundaryHits + 1) d'
      else passFrom policy cs (scanIdx + 1) 0 0 d'

/-- `ScanPass(p)` (R102): both counters start at zero (R101). -/
def State.scanPass (s : State) (d p : Nat) : Option Nat × Nat :=
  passFrom s.cfg.scanBreakPolicy (s.tapeFrom p) p 0 0 d

/-- The loop of `Field8` (R109): `n` more symbols from index `a` on. -/
def State.fieldFrom (s : State) : (n a : Nat) → Byte → (d : Nat) → Byte × Nat
  | 0, _, v, d => (v, d)
  | n + 1, a, v, d =>
    match s.sym d a with
    | (b, d') => State.fieldFrom s n (a + 1) ((v <<< 1) ||| b.setWidth 8) d'

/-- `Field8(a)` (R65, R109): eight symbols, the first one most significant. -/
def State.field8 (s : State) (d a : Nat) : Byte × Nat := s.fieldFrom Config.fieldBits a 0 d

/-- `Type(S)` (R110): decoded, stored nowhere, without effect on the catalog. -/
def State.headerType (s : State) (d start : Nat) : Byte × Nat := s.field8 d (start + Config.typeOff)

/-- The loop of `DecodeName` (R111): `n` more characters, the next one at index `a`. -/
def State.nameFrom (s : State) : (n a d : Nat) → List Byte × Nat
  | 0, _, d => ([], d)
  | n + 1, a, d =>
    match s.field8 d a with
    | (raw, d') =>
      match State.nameFrom s n (a + Config.charStride) d' with
      | (rest, d'') => (sanitize raw :: rest, d'')

/-- `DecodeName(S)` (R111). -/
def State.decodeName (s : State) (d start : Nat) : List Byte × Nat :=
  s.nameFrom Config.nameLen (start + Config.nameOff) d

/-- The loop of `ScanAll` (R100): passes from `passStart` on, each header an entry (R107), the next pass `HDR_SKIP`
after the header start (R106). `fuel` bounds the passes; `length` of them are always enough, since each moves
`passStart` forward (R108). -/
def State.scanFrom (s : State) : (fuel passStart d : Nat) → List CatEntry × Nat
  | 0, _, d => ([], d)
  | fuel + 1, passStart, d =>
    if passStart < s.length then
      match s.scanPass d passStart with
      | (none, d1) => ([], d1)
      | (some start, d1) =>
        match s.decodeName d1 start with
        | (name, d2) =>
          match State.scanFrom s fuel (start + Config.hdrSkip) d2 with
          | (rest, d3) => ({ name := name, offset := start } :: rest, d3)
    else ([], d)

/-- `ScanAll` (R100): the entries it appends, in order, and the draws made. -/
def State.scanAll (s : State) : List CatEntry × Nat := s.scanFrom s.length 0 s.draws

/-- Fill the catalog from the stored bitstream (R100). -/
def State.fillCatalog (s : State) : State :=
  match s.scanAll with
  | (es, d) => s.withCatalog es d

end Sys2Proof.Machine
end

