-- ==== Sys2Proof/Machine/TapeIngest.lean ====
section
/-! DEFINITION. The tape ingest family (40_tape_ingest.md): `TINSERT`, `TEJECT`. -/

namespace Sys2Proof.Machine

/-- What a `TINSERT` that returns false leaves (R81, D6): the block as it was, or the catalog cleared. -/
def State.failedInsert (s : State) : State := if s.cfg.insertFailClearsCatalog then { s with cat := [] } else s

/-- `TINSERT` (R83): validity (R81), then capacity (R82), then the work. Every index written or read below `length`
is below `TAPE_CAP` once the capacity check has passed, so R44's refusal cannot arise here. -/
def execTinsert (input : Option (List Byte)) (s : State) : Host.Outcome State Fault Refusal :=
  match validInput input with
  | none => .next (s.failedInsert.answer (.success false))
  | some bytes =>
    if s.cfg.tapeCap < (normalise s.cfg bytes).length then .next (s.refuse .tapeTooLong)
    else .next ((s.loadTape (normalise s.cfg bytes)).fillCatalog.answer (.success true))

/-- The codec without a tape (R90): the content of `tape` is not cleared. -/
def State.ejectTape (s : State) : State := { s with cursor := 0, length := 0, cat := [] }

/-- `TEJECT` (R90). -/
def execTeject (s : State) : Host.Outcome State Fault Refusal := .next (s.ejectTape.answer .none)

end Sys2Proof.Machine
end

