-- ==== Sys2Proof/Machine/Catalog.lean ====
section
/-! DEFINITION. The catalog query and bit-cursor family (42_catalog_cursor.md): `TCATN`, `TCATE`, `TSELECT`, `TCUR`,
`CASRD`, and the bit read `PopBit` they share with the Motor/Bit Reader. -/

namespace Sys2Proof.Machine

/-- `TCATN` (R120). -/
def execTcatn (s : State) : Host.Outcome State Fault Refusal := .next (s.answer (.count s.catCount))

/-- `TCATE` (R121). -/
def execTcate (i : Nat) (s : State) : Host.Outcome State Fault Refusal :=
  match s.cat[i]? with
  | some e => .next (s.answer (.entry e.name e.offset))
  | none => .next (s.refuse .catalogIndexOutOfRange)

/-- Move the cursor. -/
def State.seek (s : State) (a : Nat) : State := { s with cursor := a }

/-- `TSELECT` (R122, R123): index 0 is the start of the tape, whatever the catalog holds. -/
def execTselect (i : Nat) (s : State) : Host.Outcome State Fault Refusal :=
  if i = 0 then .next ((s.seek 0).answer .none)
  else
    match s.cat[i]? with
    | some e => .next ((s.seek e.offset).answer .none)
    | none => .next (s.refuse .catalogIndexOutOfRange)

/-- The loop of `TCUR` (R124): entries from index `i` on, `r` the result so far. -/
def entryIndexFrom (cursor : Nat) : List CatEntry → (i r : Nat) → Nat
  | [], _, r => r
  | e :: es, i, r => entryIndexFrom cursor es (i + 1) (if cursor ≤ e.offset then i else r)

/-- `currentEntryIndex()` (R124). -/
def State.currentEntry (s : State) : Nat := entryIndexFrom s.cursor s.cat 0 0

/-- `TCUR` (R124). -/
def execTcur (s : State) : Host.Outcome State Fault Refusal := .next (s.answer (.index s.currentEntry))

/-- The bit `PopBit` returns (R126): `Sym(cursor)`. -/
def State.popValue (s : State) : Bit := (s.sym s.draws s.cursor).1

/-- The state `PopBit(site)` leaves (R126): the cursor stepped and wrapped by the site's comparator. -/
def State.popState (s : State) (site : Site) : State :=
  { s with cursor := wrapCursor (wrapGe s.cfg site) (s.cursor + 1) s.length, draws := (s.sym s.draws s.cursor).2 }

/-- `PopBit`'s read falls outside the buffer (R44); no reachable state has it. -/
def State.popRefused (s : State) : Bool := s.symRefused s.cursor

/-- `CASRD` (R129). -/
def execCasrd (s : State) : Host.Outcome State Fault Refusal :=
  if s.popRefused then .next (s.refuse .tapeIndexOutOfBuffer)
  else .next ((s.popState .port).answer (.data (portByte s.popValue)))

end Sys2Proof.Machine
end

