-- ==== Sys2Proof/Machine/Motor.lean ====
section
/-! DEFINITION. The motor and timing-modulated bit reader family (43_motor_bit_reader.md): `TPOLL`, `MOTORW`. -/

namespace Sys2Proof.Machine

/-- A poll takes the next bit (R142): `elapsed` exceeds the threshold of the latch before the pop. -/
def State.advances (s : State) (tick : Nat) : Bool := decide (advThreshold s.cfg s.bitLatch < s.elapsed tick)

/-- Take the next bit into the latch and note the tick (R142). -/
def State.takeBit (s : State) (tick : Nat) : State :=
  { s.popState .motor with bitLatch := s.popValue, tickAtLastAdvance := tick }

/-- The state after the advance rule of a poll (R142): at most one bit is taken. -/
def State.afterAdvance (s : State) (tick : Nat) : State := if s.advances tick then s.takeBit tick else s

/-- The status byte of a poll (R143, R144): the level of the latch after the advance and of the `elapsed` before it. -/
def State.pollStatus (s : State) (tick : Nat) (prn : Bit) : Byte :=
  statusByte (levelBit s.cfg (s.afterAdvance tick).bitLatch (s.elapsed tick)) s.engaged prn

/-- `TPOLL` (R140): R149, R141, R142, R143, R144 in that order. -/
def execTpoll (tick : Nat) (prn : Bit) (s : State) : Host.Outcome State Fault Refusal :=
  if tick < s.tickAtLastAdvance then .next (s.refuse .tickWentBackwards)
  else if s.popRefused && s.advances tick then .next (s.refuse .tapeIndexOutOfBuffer)
  else .next ((s.afterAdvance tick).answer (.status (s.pollStatus tick prn)))

/-- The motor starts (R147): the tick is noted and the speed raised. -/
def State.engage (s : State) (tick : Nat) : State :=
  { s with engaged := true, speed := .boost, tickAtLastAdvance := tick }

/-- The motor stops (R147): the speed is normal again, the tick is left alone. -/
def State.disengage (s : State) : State := { s with engaged := false, speed := .normal }

/-- A detected pulse toggles `engaged` (R147). -/
def State.togglePulse (s : State) (tick : Nat) : State := if s.engaged then s.disengage else s.engage tick

/-- Remember whether the control bit was set (R146). -/
def State.latchPulse (s : State) (ctl : Bool) : State := { s with pulseLatch := ctl }

/-- A motor-control write with control bit `ctl` (R145, R146): every write sets `pulseLatch` to it. -/
def State.motorWrite (s : State) (ctl : Bool) (tick : Nat) : State :=
  (if s.pulse ctl then s.togglePulse tick else s).latchPulse ctl

/-- `MOTORW` (R145). -/
def execMotorw (data : Byte) (tick : Nat) (s : State) : Host.Outcome State Fault Refusal :=
  .next ((s.motorWrite (controlBit s.cfg data) tick).answer .none)

/-- `speedMultiplier` (R32): the number `speed` stands for. That it is a rational number is a DESIGN CHOICE (log
entry 15). -/
def State.speedMultiplier (s : State) : Rat :=
  match s.speed with
  | .normal => 1
  | .boost => s.cfg.speedBoost

end Sys2Proof.Machine
end

