-- ==== Sys2Proof/Machine/Mixer.lean ====
section
/-! DEFINITION. The audio sample mixer family (44_audio_mixer.md): `ACONFIG`, `APULSE` and its flush. -/

namespace Sys2Proof.Machine

/-- The mixer configured by an `ACONFIG` that is accepted (R161). -/
def State.configureMixer (s : State) (rate count : Option Nat) (vol : Option Rat) : State :=
  { s with
    sampleRate := rateOption rate
    ringCap := countOption count
    volume := volOption vol
    wcur := 0
    configured := true }

/-- `ACONFIG` (R161, R162): `reconfigure` is tested before `volume_out_of_range` (R187). -/
def execAconfig (rate count : Option Nat) (vol : Option Rat) (s : State) : Host.Outcome State Fault Refusal :=
  if s.configured then .next (s.refuse .reconfigure)
  else if volumeRefused vol then .next (s.refuse .volumeOutOfRange)
  else .next ((s.configureMixer rate count vol).answer .none)

/-- What every pulse does first (R164): the configuration is closed and the divider toggles (R165). -/
def State.beginPulse (s : State) : State := { s with configured := true, psgPhase := s.psgPhase ^^^ 1 }

/-- The flush (R167): event entry, the host's turn, event return, and the pulse's result. -/
def State.flush (s : State) (r : Result) : State :=
  match s.enterSamplesReady with
  | (e, s') => s'.hostTurn.returnSamplesReady.answerEvent r e

/-- `APULSE` (R164). The operands name two samples of the configuration's own sample type; what is pushed is the name of
their `add` (R168, log entry 5). -/
def execApulse (bstrobe : Bool) (bval pval : SampleName) (s : State) : Host.Outcome State Fault Refusal :=
  if bstrobe then
    if (s.beginPulse.pushSample (s.cfg.sumName bval pval)).wcur = s.ringCap then
      .next ((s.beginPulse.pushSample (s.cfg.sumName bval pval)).flush (.psgTick s.psgTick))
    else .next ((s.beginPulse.pushSample (s.cfg.sumName bval pval)).answer (.psgTick s.psgTick))
  else .next (s.beginPulse.answer (.psgTick s.psgTick))

end Sys2Proof.Machine
end

