-- ==== Sys2Proof/Machine/System.lean ====
section
/-! DEFINITION. The rows of the operation map that are the spec's own (R71): `NOP` and the reserved codes. -/

namespace Sys2Proof.Machine

/-- `NOP` (R71): changes no state and returns nothing. -/
def execNop (s : State) : Host.Outcome State Fault Refusal := .next (s.answer .none)

/-- The reserved codes (R71). -/
def execReserved (_x : BitVec 2) (s : State) : Host.Outcome State Fault Refusal := .next (s.refuse .reservedOp)

end Sys2Proof.Machine
end

