-- ==== Sys2Proof/Machine/Bus.lean ====
section
/-! DEFINITION. The bus side of the block and the environment that issues requests: which request a bus transaction
makes (R43, R73, R190), the order of one dispatcher call (R169, R187), the pseudo-operations (R74). The bus
dispatcher itself is out of scope (R4): these definitions say what reaches the block, and `step` does not use them. -/

namespace Sys2Proof.Machine

/-- An address matches a pattern. -/
def addrMatches (p : AddrPattern) (a : BitVec 16) : Bool := a &&& p.mask == p.value

/-- An address lies in a range. -/
def addrInRange (r : AddrRange) (a : BitVec 16) : Bool := decide (r.lo ≤ a) && decide (a ≤ r.hi)

/-- The VRAM range of the IO-read decode: addresses below 0x2000 (R43). -/
def inVramRange (a : BitVec 16) : Bool := decide (a < 0x2000#16)

/-- What an IO read is decoded to. The last case is the bank-toggle range and the unmapped addresses. -/
inductive ReadTarget where
  | keyboard
  | videoMode
  | vram
  | sound
  | cassette
  | later
  deriving DecidableEq, Repr

/-- The decode of an IO read, in the priority order of R43: "first match wins". -/
def readTarget (cfg : Config) (a : BitVec 16) : ReadTarget :=
  if cfg.portsKeyboard.any fun p => addrMatches p a then .keyboard
  else if cfg.portsVideo.any fun p => addrMatches p a then .videoMode
  else if inVramRange a then .vram
  else if cfg.portsSound.any fun p => addrMatches p a then .sound
  else if addrMatches cfg.portCas0 a || addrMatches cfg.portCas1 a then .cassette
  else .later

/-- The pins ask for an IO read that is decoded to a target (R73, R43). -/
def selectsRead (cfg : Config) (pins : BusPins) (target : ReadTarget) : Bool :=
  pins.ioRequest && pins.read && decide (readTarget cfg pins.address = target)

/-- The pins ask for a read of a cassette-bit port (R73). -/
def selectsCasrd (cfg : Config) (pins : BusPins) : Bool := selectsRead cfg pins .cassette

/-- The pins ask for a write to the motor-control range (R73). -/
def selectsMotorw (cfg : Config) (pins : BusPins) : Bool :=
  pins.ioRequest && pins.write && addrInRange cfg.portMotor pins.address

/-- The read that the pins ask for at the given target is the transaction made: no write is asked for, or the read wins
(R187, "at most one per call"). -/
def readMade (cfg : Config) (pins : BusPins) (readWins : Bool) (target : ReadTarget) : Bool :=
  selectsRead cfg pins target && (readWins || !selectsMotorw cfg pins)

/-- The operation that a bus transaction itself asks of the block, at most one (R73, R187). `TPOLL` and `APULSE` have no
pin pattern. DESIGN CHOICE (log entry 12): the memory-request flag is not looked at, so pins with both request flags
set make the IO transaction. -/
def busInstr (cfg : Config) (pins : BusPins) (tick : Nat) (readWins : Bool) : Option Instr :=
  if readMade cfg pins readWins .cassette then some .casrd
  else if selectsMotorw cfg pins && !readMade cfg pins readWins .sound then some (.motorw pins.data tick)
  else none

/-- The data pins after the operation: the byte `CASRD` returned (R73). -/
def pinsAnswered (pins : BusPins) (r : Result) : BusPins :=
  match r with
  | .data b => { pins with data := b }
  | _ => pins

/-- The request of one pulse (R163). -/
def pulseInstr (p : Pulse) : Instr := .apulse p.bstrobe p.bval p.pval

/-- The request of one poll (R140). -/
def pollInstr (p : Poll) : Instr := .tpoll p.tick p.prn

/-- The operations of step 4 of a dispatcher call (R187): those of the one transaction, and the polls that the sound
component makes inside its handling of an IO read of its ports. -/
def transactionInstrs (cfg : Config) (c : BusCall) : List Instr :=
  (busInstr cfg c.pins c.tick c.readWins).toList
    ++ if readMade cfg c.pins c.readWins .sound then c.polls.map pollInstr else []

/-- What one dispatcher call asks of the block (R169, R187): its pulses in order, then its transaction. -/
def dispatchInstrs (cfg : Config) (c : BusCall) : List Instr := c.pulses.map pulseInstr ++ transactionInstrs cfg c

/-- Requests put behind those waiting. -/
def State.enqueue (s : State) (is : List Instr) : State := { s with requests := s.requests ++ is.map encode }

/-- One call of the bus dispatcher, as far as the block sees it (R169). -/
def State.dispatch (s : State) (c : BusCall) : State := s.enqueue (dispatchInstrs s.cfg c)

/-- The expansion of a pseudo-operation (R74); `catCount` is the number of entries when it is issued. -/
def expandPseudo (catCount : Nat) : PseudoOp → List Instr
  | .catalog => .tcatn :: (List.range catCount).map .tcate
  | .dispatchAudio pulses => pulses.map pulseInstr
  | .rewind => [.tselect 0]

end Sys2Proof.Machine
end

