-- ==== Sys2Proof/Machine/Dispatch.lean ====
section
/-! DEFINITION. One arm per operation. -/

namespace Sys2Proof.Machine

def exec (i : Instr) (s : State) : Host.Outcome State Fault Refusal :=
  match i with
  | .nop => Sys2Proof.Machine.execNop s
  | .tinsert input => Sys2Proof.Machine.execTinsert input s
  | .teject => Sys2Proof.Machine.execTeject s
  | .tselect k => Sys2Proof.Machine.execTselect k s
  | .tcur => Sys2Proof.Machine.execTcur s
  | .tcatn => Sys2Proof.Machine.execTcatn s
  | .tcate k => Sys2Proof.Machine.execTcate k s
  | .casrd => Sys2Proof.Machine.execCasrd s
  | .tpoll tick prn => Sys2Proof.Machine.execTpoll tick prn s
  | .motorw data tick => Sys2Proof.Machine.execMotorw data tick s
  | .aconfig rate count vol => Sys2Proof.Machine.execAconfig rate count vol s
  | .apulse bstrobe bval pval => Sys2Proof.Machine.execApulse bstrobe bval pval s
  | .reserved x => Sys2Proof.Machine.execReserved x s

end Sys2Proof.Machine
end

