-- ==== Sys2Proof/Machine/Step.lean ====
section
/-! DEFINITION. One step: the next request, decoded, runs to completion (R7). Without a request nothing happens
(log entry 1). -/

namespace Sys2Proof.Machine

/-- Take the next request and run the operation it asks for. -/
def step (s : State) : Host.Outcome State Fault Refusal :=
  match s.fetch with
  | none => .next s
  | some (r, s') => exec r.instr s'

/-- The state with a word of the opcode table presented as the next request. -/
def State.withFetchWord (s : State) (nbits w : Nat) : State := s.presentWord nbits w

end Sys2Proof.Machine
end

