-- ==== Sys2Proof/Safety.lean ====
section
/-! DEFINITION. The terms claims are stated in: the invariant of the block (10_state.md, 20_memory.md R54), what a
header pattern on the tape is (R104), when a request is refused (R182), what the bus pins ask for (R43, R73), sequences of one operation. -/

namespace Sys2Proof.Machine

/-! ### Tapes -/

/-- Every valid index of the tape has been written. -/
def State.tapeWritten (s : State) : Prop := ∀ i < s.length, ∃ b, s.tape.read i = some b

/-- Every valid byte of the tape is a symbol (R11, R60). -/
def State.tapeOfSymbols (s : State) : Prop :=
  ∀ i < s.length, s.tape.read i = some symZero ∨ s.tape.read i = some symOne

/-- The header pattern stands at `a` (R104): 40 symbols `'1'`, then 40 symbols that are not `'1'`, all valid. -/
def State.patternAt (s : State) (a : Nat) : Prop :=
  a + 79 < s.length ∧ (∀ j < 40, s.tape.read (a + j) = some symOne) ∧
    ∀ j < 40, ∃ b, s.tape.read (a + 40 + j) = some b ∧ b ≠ symOne

/-- `n` symbols `'1'` stand from index `a` on. -/
def State.onesAt (s : State) (a n : Nat) : Prop := ∀ i < n, s.tape.read (a + i) = some symOne

/-- `n` symbols that are not `'1'` stand from index `a` on. -/
def State.othersAt (s : State) (a n : Nat) : Prop := ∀ i < n, ∃ b, s.tape.read (a + i) = some b ∧ b ≠ symOne

/-- `a` is the first index at or after `p` where the header pattern stands. -/
def State.firstPatternFrom (s : State) (p a : Nat) : Prop :=
  p ≤ a ∧ s.patternAt a ∧ ∀ a', p ≤ a' → a' < a → ¬ s.patternAt a'

/-- Offsets that a scan from `p` finds (R100, R106): each one the first pattern from where the pass starts, the
next pass 800 symbols after it, and no pattern left at the end. -/
def State.offsetsFrom (s : State) : (p : Nat) → List Nat → Prop
  | p, [] => ∀ a, p ≤ a → ¬ s.patternAt a
  | p, a :: rest => s.firstPatternFrom p a ∧ State.offsetsFrom s (a + 800) rest

/-- A byte a name may hold (R26, R112). -/
def nameByte (b : Byte) : Prop := (0x21#8 ≤ b ∧ b ≤ 0x7A#8) ∨ b = 0x20#8

/-! ### The invariant -/

/-- What holds of the block between operations: the ranges and relations of 10_state.md. -/
structure State.Inv (s : State) : Prop where
  /-- The constraints on the parameters (R5, R148). -/
  cfgOk : s.cfg.wf = true
  /-- Both memories are in canonical form. -/
  tapeCanonical : s.tape.wf
  ringCanonical : s.ring.wf
  /-- The tape lies in its buffer (R10, R40). -/
  tapeInBuffer : ∀ c ∈ s.tape, c.1 < s.cfg.tapeCap
  /-- `length` ≤ `TAPE_CAP` (R11). -/
  lengthBound : s.length ≤ s.cfg.tapeCap
  /-- The valid bytes are symbols (R11, R60). -/
  symbols : s.tapeOfSymbols
  /-- `cursor` ≤ `length` (R12). -/
  cursorBound : s.cursor ≤ s.length
  /-- `cat[i].offset` + 79 < `length` (R13). -/
  catOffsets : ∀ e ∈ s.cat, e.offset + 79 < s.length
  /-- Offsets ascend by at least 800 (R13, R108). -/
  catAscending : s.cat.Pairwise fun e f => e.offset + 800 ≤ f.offset
  /-- Names have 17 bytes, each printable or a space (R26, R112). -/
  catNames : ∀ e ∈ s.cat, e.name.length = 17 ∧ ∀ b ∈ e.name, nameByte b
  /-- `speed` = `BOOST` exactly when `engaged` (R32). -/
  speedEngaged : s.speed = .boost ↔ s.engaged = true
  /-- 1 ≤ `ringCap` ≤ 1024 (R30). -/
  ringCapPos : 1 ≤ s.ringCap
  ringCapMax : s.ringCap ≤ 1024
  /-- `wcur` < `ringCap` (R30, R167). -/
  wcurBound : s.wcur < s.ringCap
  /-- Nothing is stored at `ringCap` or above (R42). -/
  ringInUse : ∀ c ∈ s.ring, c.1 < s.ringCap
  /-- The slots below `wcur` have been written (R201). -/
  ringFilled : ∀ i < s.wcur, ∃ v, s.ring.read i = some v
  /-- Before the configuration is closed nothing has been pushed (R35). -/
  unconfigured : s.configured = false → s.ring = [] ∧ s.wcur = 0
  /-- `sampleRate` is positive (10_state.md section 1). -/
  ratePos : 0 < s.sampleRate
  /-- `volume` lies in 0.0 .. 1.0 (R31). -/
  volumeRange : 0 ≤ s.volume ∧ s.volume ≤ 1

/-- Every catalog entry stands at a header pattern of the stored tape (R54), for the policies under which a header
is 40 symbols `'1'` directly followed by 40 others (R103). -/
def State.catalogMatchesTape (s : State) : Prop :=
  s.cfg.scanBreakPolicy ≠ .ignore → ∀ e ∈ s.cat, s.patternAt e.offset

/-! ### Refusals and the environment's duties -/

/-- R182, row by row: an operation asked for between others is refused, for this reason. The row `reentry` is not here: it
is of every request made from inside an event (R186, `State.hostTurn`). -/
inductive Refuses (s : State) : Instr → RefusalReason → Prop where
  | reservedOp (x : BitVec 2) : Refuses s (.reserved x) .reservedOp
  | tapeTooLong (b : Byte) (bs : List Byte) (h : s.cfg.tapeCap < (normalise s.cfg (b :: bs)).length) :
      Refuses s (.tinsert (some (b :: bs))) .tapeTooLong
  | tcateIndex (i : Nat) (h : s.catCount ≤ i) : Refuses s (.tcate i) .catalogIndexOutOfRange
  | tselectIndex (i : Nat) (h0 : i ≠ 0) (h : s.catCount ≤ i) : Refuses s (.tselect i) .catalogIndexOutOfRange
  | tickWentBackwards (tick : Nat) (prn : Bit) (h : tick < s.tickAtLastAdvance) :
      Refuses s (.tpoll tick prn) .tickWentBackwards
  | reconfigure (rate count : Option Nat) (vol : Option Rat) (h : s.configured = true) :
      Refuses s (.aconfig rate count vol) .reconfigure
  | volumeOutOfRange (rate count : Option Nat) (v : Rat) (h : s.configured = false) (hv : v < 0 ∨ 1 < v) :
      Refuses s (.aconfig rate count (some v)) .volumeOutOfRange
  | casrdOutOfBuffer (hlt : s.cursor < s.length) (h : s.cfg.tapeCap ≤ s.cursor) :
      Refuses s .casrd .tapeIndexOutOfBuffer
  | tpollOutOfBuffer (tick : Nat) (prn : Bit) (htick : s.tickAtLastAdvance ≤ tick) (hlt : s.cursor < s.length)
      (h : s.cfg.tapeCap ≤ s.cursor)
      (hadv : (if s.bitLatch = 1 then s.cfg.tAdv1 else s.cfg.tAdv0) < (tick - s.tickAtLastAdvance) / 32) :
      Refuses s (.tpoll tick prn) .tapeIndexOutOfBuffer

/-! ### What the pins ask for (R43, R73) -/

/-- An IO read at this address is taken by a keyboard-scan port, a video-mode register or the VRAM range. -/
def takesReadEarly (cfg : Config) (a : BitVec 16) : Prop :=
  (∃ q ∈ cfg.portsKeyboard ++ cfg.portsVideo, a &&& q.mask = q.value) ∨ a < 0x2000#16

/-- The address is one of the sound component's. -/
def isSoundPort (cfg : Config) (a : BitVec 16) : Prop := ∃ q ∈ cfg.portsSound, a &&& q.mask = q.value

/-- An IO read of the sound component's ports. -/
def asksSoundRead (cfg : Config) (pins : BusPins) : Prop :=
  pins.ioRequest = true ∧ pins.read = true ∧ ¬ takesReadEarly cfg pins.address ∧ isSoundPort cfg pins.address

/-- An IO read of a cassette-bit port. -/
def asksCassetteRead (cfg : Config) (pins : BusPins) : Prop :=
  pins.ioRequest = true ∧ pins.read = true ∧ ¬ takesReadEarly cfg pins.address ∧ ¬ isSoundPort cfg pins.address ∧
    (pins.address &&& cfg.portCas0.mask = cfg.portCas0.value ∨ pins.address &&& cfg.portCas1.mask = cfg.portCas1.value)

/-- An IO write to the motor-control range. -/
def asksMotorWrite (cfg : Config) (pins : BusPins) : Prop :=
  pins.ioRequest = true ∧ pins.write = true ∧ cfg.portMotor.lo ≤ pins.address ∧ pins.address ≤ cfg.portMotor.hi

/-! ### Sequences of one operation -/

/-- `n` reads of a cassette-bit port. -/
def readPort : Nat → State → Option State
  | 0, s => some s
  | n + 1, s =>
    match exec .casrd s with
    | .next t => readPort n t
    | .fault _ => none
    | .refused _ => none

/-- One pulse with a sample boundary for each pair of source samples. -/
def pushPulses : List (SampleName × SampleName) → State → Option State
  | [], s => some s
  | (b, p) :: rest, s =>
    match exec (.apulse true b p) s with
    | .next t => pushPulses rest t
    | .fault _ => none
    | .refused _ => none

end Sys2Proof.Machine
end

