-- ==== Sys2Proof/Certificates/Slice0/Obligations.lean ====
section
/-! DEFINITION. The statements for the provers, each with the rule of the spec it formalises. A statement about an
operation gives the whole next state: what the record does not name is left as it was. -/

open Sys2Proof Sys2Proof.Machine

/-! ### Reset, the step, the invariants -/

/-- R200: reset is the ejected codec, the motor off, the mixer empty with the default options; neither memory is
written; the decided parameters of R5 are at their defaults (log entry 6), and no refusal is marked (log entry 3). The values are the spec's decisions D3, D6,
D10, D17, D31, D34, D41, D42 and the options' defaults; one half for "~0.5" is log entry 4. -/
def Obligations.ResetLeavesStatedValues : Prop :=
  State.reset.length = 0 ∧ State.reset.cursor = 0 ∧ State.reset.catCount = 0 ∧
  State.reset.engaged = false ∧ State.reset.pulseLatch = false ∧ State.reset.bitLatch = 0 ∧
  State.reset.tickAtLastAdvance = 0 ∧ State.reset.speed = .normal ∧
  State.reset.ringCap = 128 ∧ State.reset.sampleRate = 44100 ∧ State.reset.volume = mkRat 1 2 ∧
  State.reset.wcur = 0 ∧ State.reset.psgPhase = 0 ∧ State.reset.configured = false ∧
  (∀ i, State.reset.tape.read i = none) ∧ (∀ i, State.reset.ring.read i = none) ∧
  State.reset.ejectTape = State.reset ∧ State.reset.refusals = [] ∧
  State.reset.cfg.tapeCap = 268435456 ∧ State.reset.cfg.scanBreakPolicy = .resetCount ∧
  State.reset.cfg.insertFailClearsCatalog = false ∧
  State.reset.cfg.wrapGePort = false ∧ State.reset.cfg.wrapGeMotor = false

/-- The invariant of the block holds at reset (R201 with the ranges of 10_state.md), and R54 with it. The
configuration is any that meets R5 (log entry 6). -/
def Obligations.ResetMeetsInvariant : Prop := State.reset.Inv ∧ State.reset.catalogMatchesTape

/-- Every step keeps the invariant of the block: canonical memories, valid symbols (R11), `cursor` ≤ `length` (R12),
the catalog's offsets and names (R13, R26, R108), the ring's bounds (R30, R42, R167), `speed` and `engaged` (R32). The
ranges are what the spec derives from its rules; the canonical form of a memory is the model's (log entry 7). -/
def Obligations.StepKeepsInvariant : Prop := ∀ s t : State, s.Inv → step s = .next t → t.Inv

/-- R54: the catalog always describes the stored tape. The spec derives this from R104 and R83. -/
def Obligations.StepKeepsCatalogMatchingTape : Prop :=
  ∀ s t : State, s.Inv → s.catalogMatchesTape → step s = .next t → t.catalogMatchesTape

/-- A step runs the operation its next request decodes to, on the state without that request (R7, R69). That a step
without a request changes nothing is the model's choice (log entry 1), and so is where a table word is presented. -/
def Obligations.StepRunsTheNextRequest : Prop :=
  (∀ (s : State) (q : Request) (qs : List Request), s.requests = q :: qs →
    step s = exec (decode q.code q.lines) { s with requests := qs }) ∧
  (∀ s : State, s.requests = [] → step s = .next s) ∧
  (∀ (s : State) (w : Nat), w < 16 → step (s.withFetchWord 8 w) = exec (decode (BitVec.ofNat 4 w) .idle) s)

/-! ### Encoding -/

/-- R69, R70: the request that asks for an operation decodes to it, every operand kept; so does its code byte. The
operand lines and the byte that carries a code are the model's choice (log entry 2). -/
def Obligations.DecodeOfEncodeGivesTheOperation : Prop :=
  ∀ i : Instr, (encode i).instr = i ∧ decodeBytes i.codeBytes i.lines = .ok i

/-- R70, R71: each of the sixteen codes is of exactly one row of the table, and decodes to that row's operation. The
codes are the spec's decisions D1, D2. -/
def Obligations.EveryCodeIsOfOneRow : Prop :=
  ∀ (op : BitVec 4) (l : OperandLines), (decode op l).code = op ∧
    ∃ row ∈ opTable, row.covers op = true ∧ row.mnemonic = (decode op l).mnemonic ∧
      ∀ row' ∈ opTable, row'.covers op = true → row' = row

/-- The words of the operation table, written out from R70 and R71, and words that carry no code. That a word is one
byte with a zero upper half, and its operands null, absent or zero, is the model's choice (log entry 2). -/
def Obligations.TableWordsDecodeToTheirRows : Prop :=
  decodeTableWord 8 0b0000 = some .nop ∧ decodeTableWord 8 0b0001 = some (.tinsert none) ∧
  decodeTableWord 8 0b0010 = some .teject ∧ decodeTableWord 8 0b0011 = some (.tselect 0) ∧
  decodeTableWord 8 0b0100 = some .tcur ∧ decodeTableWord 8 0b0101 = some .tcatn ∧
  decodeTableWord 8 0b0110 = some (.tcate 0) ∧ decodeTableWord 8 0b0111 = some .casrd ∧
  decodeTableWord 8 0b1000 = some (.tpoll 0 0) ∧ decodeTableWord 8 0b1001 = some (.motorw 0 0) ∧
  decodeTableWord 8 0b1010 = some (.aconfig none none none) ∧
  decodeTableWord 8 0b1011 = some (.apulse false ⟨0⟩ ⟨0⟩) ∧
  decodeTableWord 8 0b1100 = some (.reserved 0) ∧ decodeTableWord 8 0b1111 = some (.reserved 3) ∧
  decodeTableWord 8 0b10000 = none

/-- R71, R182: code 0x0 is `NOP`, which changes no state and returns nothing; codes 0xC to 0xF are refused, which
changes nothing but the mark. The code space is the spec's decision D2. -/
def Obligations.NopAndReservedCodes : Prop :=
  (∀ l s, decode 0x0#4 l = .nop ∧ exec .nop s = .next { s with result := .none, event := none }) ∧
  (∀ (op : BitVec 4) l (s : State), 0xC#4 ≤ op → exec (decode op l) s = .next
    { s with refusals := s.refusals ++ [.reservedOp], result := .none, event := none }) ∧
  ∀ x (s : State), exec (.reserved x) s = .next { s with refusals := s.refusals ++ [.reservedOp], result := .none, event := none }

/-! ### Tape ingest -/

/-- R81, R82: an input without a first byte returns false and changes nothing, or only clears the catalog; every other
input that fits the buffer returns true; one that does not fit is refused. What is invalid, what then happens and the
refusal are the spec's decisions D4, D5, D6. -/
def Obligations.InsertValidityAndCapacity : Prop :=
  ∀ s : State,
    (∀ input, input = none ∨ input = some [] → exec (.tinsert input) s =
      .next { s with
        cat := if s.cfg.insertFailClearsCatalog then [] else s.cat
        result := .success false
        event := none }) ∧
    (∀ b bs, (normalise s.cfg (b :: bs)).length ≤ s.cfg.tapeCap →
      ∃ t, exec (.tinsert (some (b :: bs))) s = .next t ∧ t.result = .success true) ∧
    (∀ b bs, s.cfg.tapeCap < (normalise s.cfg (b :: bs)).length →
      exec (.tinsert (some (b :: bs))) s = .next
        { s with refusals := s.refusals ++ [.tapeTooLong], result := .none, event := none })

/-- R83: a `TINSERT` that fits stores the normalised bitstream from index 0, keeps every byte above it, sets `length`
and `cursor`, replaces the catalog by what the scan of the stored bitstream finds, counts the draws of that scan, and
writes nothing else. The place of the two checks is the spec's (R81, R82: D4, D5); the counter of draws is log entry 7. -/
def Obligations.InsertStoresTheBitstream : Prop :=
  ∀ (s : State) (b : Byte) (bs : List Byte), (normalise s.cfg (b :: bs)).length ≤ s.cfg.tapeCap →
    ∃ t, exec (.tinsert (some (b :: bs))) s = .next t ∧
      (∀ j < (normalise s.cfg (b :: bs)).length, t.tape.read j = (normalise s.cfg (b :: bs))[j]?) ∧
      (∀ a, (normalise s.cfg (b :: bs)).length ≤ a → t.tape.read a = s.tape.read a) ∧
      t.cat = (s.loadTape (normalise s.cfg (b :: bs))).scanAll.1 ∧
      t = { s with
        tape := t.tape
        length := (normalise s.cfg (b :: bs)).length
        cursor := 0
        cat := t.cat
        result := .success true
        event := none
        draws := (s.loadTape (normalise s.cfg (b :: bs))).scanAll.2 }

/-- R84: a raw binary input of `N` bytes, `P` of them skipped, gives 8·(`N` − `P`) symbols, and symbol 8·(j − P) + (7
− k) is bit k of input byte j. -/
def Obligations.RawBinaryExpandsMostSignificantFirst : Prop :=
  ∀ (cfg : Config) (bytes : List Byte), isAscii bytes = false →
    (normalise cfg bytes).length = 8 * (bytes.length - skipLen cfg bytes) ∧
    ∀ (j k : Nat) (x : Byte), skipLen cfg bytes ≤ j → bytes[j]? = some x → k < 8 →
      (normalise cfg bytes)[8 * (j - skipLen cfg bytes) + (7 - k)]? = some (if x.getLsbD k then 0x31#8 else 0x30#8)

/-- R86: an input of at least 16 bytes that begins with the magic tag is raw binary and loses its first 16 bytes;
every other raw binary input is expanded whole. The bound of 16 bytes is the spec's decision D7. -/
def Obligations.ContainerHeaderIsSkipped : Prop :=
  ∀ (cfg : Config) (bytes : List Byte), cfg.wf = true →
    (16 ≤ bytes.length ∧ cfg.magic <+: bytes →
      isAscii bytes = false ∧ normalise cfg bytes = (bytes.drop 16).flatMap symbolsOf ∧
      (normalise cfg bytes).length = 8 * (bytes.length - 16)) ∧
    (isAscii bytes = false → ¬ (16 ≤ bytes.length ∧ cfg.magic <+: bytes) →
      (normalise cfg bytes).length = 8 * bytes.length)

/-- R62, R63, R85: an input whose first byte is `'0'` or `'1'` gives exactly its `'0'` and `'1'` bytes, in order. -/
def Obligations.AsciiInputKeepsExactlyItsSymbols : Prop :=
  ∀ (cfg : Config) (b : Byte) (bs : List Byte), b = 0x30#8 ∨ b = 0x31#8 →
    (normalise cfg (b :: bs)).Sublist (b :: bs) ∧
    (∀ x ∈ normalise cfg (b :: bs), x = 0x30#8 ∨ x = 0x31#8) ∧
    (∀ x, x = 0x30#8 ∨ x = 0x31#8 → (normalise cfg (b :: bs)).count x = (b :: bs).count x) ∧
    (normalise cfg (b :: bs)).head? = some b

/-- R90: `TEJECT` empties the codec and nothing else; the tape's content is not cleared; afterwards `TCATE i` is out
of range for every `i`. That refusal is the spec's decision D16 (R121). -/
def Obligations.EjectEmptiesTheCodec : Prop :=
  ∀ s : State,
    exec .teject s = .next { s with cursor := 0, length := 0, cat := [], result := .none, event := none } ∧
    ∀ t i, exec .teject s = .next t → exec (.tcate i) t = .next { t with
      refusals := t.refusals ++ [.catalogIndexOutOfRange]
      result := .none
      event := none }

/-- R91: a bit read after `TEJECT` leaves `length` 0, `cursor` 0 and the catalog empty, under either comparator, at
either site; the port byte is 0x80 or 0x00. The low bits of the port byte are the spec's decision D20. -/
def Obligations.BitReadAfterEjectLeavesCodecEmpty : Prop :=
  ∀ (s t : State), exec .teject s = .next t →
    (∃ u b, exec .casrd t = .next u ∧ u.length = 0 ∧ u.cursor = 0 ∧ u.cat = [] ∧ u.result = .data b ∧
      (b = 0x80#8 ∨ b = 0x00#8)) ∧
    ∀ tick prn, t.tickAtLastAdvance ≤ tick →
      ∃ u, exec (.tpoll tick prn) t = .next u ∧ u.length = 0 ∧ u.cursor = 0 ∧ u.cat = []

/-! ### Header scan and field decode -/

/-- R102, R104 under the default policy: a pass from `p` reports `a` exactly when `a` is the first index at or after
`p` where 40 symbols `'1'` and then 40 others stand. That a pass starts with both counters at zero and that a longer
run of `'1'` still qualifies are the spec's decisions D9 and D11; the policy is D10; that a byte is `'1'` or not is
D19. -/
def Obligations.PassFindsTheFirstPattern : Prop :=
  ∀ (s : State) (d p : Nat), s.tape.wf → s.tapeWritten → s.cfg.scanBreakPolicy = .resetCount →
    ∀ a, (s.scanPass d p).1 = some a ↔ s.firstPatternFrom p a

/-- R103: under the two policies that reset, a header is declared only where 40 others directly follow 40 symbols
`'1'`; under all three its 80 positions lie within the tape, at or after the start of the pass (R104). The policies
are the spec's decision D10. -/
def Obligations.DeclaredHeadersStandAtPatterns : Prop :=
  ∀ (s : State) (d p a d' : Nat), s.scanPass d p = (some a, d') →
    p ≤ a ∧ a + 79 < s.length ∧
    (s.tape.wf → s.tapeWritten → s.cfg.scanBreakPolicy ≠ .ignore → s.patternAt a)

/-- R103: what `BreakOnOne` does to the two counters under each policy, and what a pass makes of it: of 40 or more
symbols `'1'`, a boundary run that is broken before its 40th symbol, `m` symbols `'1'` and then 40 or more others to the
end of the tape. `reset_count` declares a header at the last 40 of the `m`, if there are 40; `reset_nocount` needs one
more, since it does not count the first; `ignore` completes the first boundary run. The policies are the spec's decision
D10. -/
def Obligations.BrokenBoundaryRunFollowsThePolicy : Prop :=
  (∀ o h : Nat, breakOnOne .resetCount o h = (1, 0) ∧ breakOnOne .resetNocount o h = (0, 0) ∧
    breakOnOne .ignore o h = (o + 1, h)) ∧
  ∀ (s : State) (d p n k m j : Nat), s.tape.wf → 40 ≤ n → 1 ≤ k → k < 40 → 1 ≤ m → 40 ≤ j →
    s.length = p + n + k + m + j →
    s.onesAt p n → s.othersAt (p + n) k → s.onesAt (p + n + k) m → s.othersAt (p + n + k + m) j →
    (s.cfg.scanBreakPolicy = .resetCount →
      (s.scanPass d p).1 = if 40 ≤ m then some (p + n + k + (m - 40)) else none) ∧
    (s.cfg.scanBreakPolicy = .resetNocount →
      (s.scanPass d p).1 = if 41 ≤ m then some (p + n + k + (m - 40)) else none) ∧
    (s.cfg.scanBreakPolicy = .ignore → (s.scanPass d p).1 = some (p + (n - 40) + m))

/-- R100, R105, R106 under the default policy: the catalog a `TINSERT` makes lists the first pattern of the tape, then
the first pattern at or after 800 symbols past it, and so on, until no pattern is left. Where passes start and what
they start with are the spec's decisions D9, D44. -/
def Obligations.CatalogListsPatternsInOrder : Prop :=
  ∀ (s t : State) (b : Byte) (bs : List Byte), s.tape.wf → s.cfg.scanBreakPolicy = .resetCount →
    (normalise s.cfg (b :: bs)).length ≤ s.cfg.tapeCap → exec (.tinsert (some (b :: bs))) s = .next t →
    t.offsetsFrom 0 (t.cat.map (·.offset))

/-- R107, R111, R113: the name of each entry that a `TINSERT` makes is decoded from the tape it stored, at that
entry's offset: character `c` is the sanitised field at `offset` + 91 + 9c wherever that field lies within the tape, and
a frame that lies within the tape gives the whole name without a draw; the draws that a frame past the end needs are the
ones after those made before the insert, since only the last entry can need any. Under every policy. The bit order of a
character is the spec's decision D13, the decode past the end D12; the draws are free values (log entry 7). -/
def Obligations.CatalogNamesAreDecodedFromTheTape : Prop :=
  ∀ (s t : State) (b : Byte) (bs : List Byte), s.tape.wf → (normalise s.cfg (b :: bs)).length ≤ s.cfg.tapeCap →
    exec (.tinsert (some (b :: bs))) s = .next t →
    ∀ e ∈ t.cat, e.name.length = 17 ∧ e.name = (t.decodeName s.draws e.offset).1 ∧
      (∀ d, e.offset + 242 < t.length → e.name = (t.decodeName d e.offset).1) ∧
      ∀ c d, c < 17 → e.offset + 98 + 9 * c < t.length →
        e.name[c]? = some (sanitize (t.field8 d (e.offset + 91 + 9 * c)).1)

/-- R47, R109, R110: eight valid symbols that are the expansion of a byte decode to that byte, without a draw; the type
of a header is the field 82 symbols past its start. The bit order of the name is the spec's decision D13, that the type is
a function without effect D14. -/
def Obligations.FieldDecodeInvertsExpansion : Prop :=
  (∀ (s : State) (d a : Nat) (x : Byte), a + 8 ≤ s.length →
    (∀ j < 8, s.tape.read (a + j) = some (if x.getLsbD (7 - j) then 0x31#8 else 0x30#8)) →
    s.field8 d a = (x, d) ∧ ∀ start, a = start + 82 → s.headerType d start = (x, d)) ∧
  ∀ (s : State) (d start : Nat), s.headerType d start = s.field8 d (start + 82)

/-- R111: character `c` of a name is the sanitised field at `S` + 91 + 9c, when the frame lies within the tape. The
bit order within a character is the spec's decision D13. -/
def Obligations.NameCharactersAreSpacedFields : Prop :=
  ∀ (s : State) (d start : Nat), s.tapeWritten → start + 242 < s.length →
    (s.decodeName d start).2 = d ∧
    ∀ c < 17, (s.decodeName d start).1[c]? = some (sanitize (s.field8 d (start + 91 + 9 * c)).1)

/-- R112: `Sanitize` keeps 0x21 to 0x7A and replaces every other byte by a space; a name always has 17 bytes, each in
that range or a space, also where the decode runs past the end of the tape (R113). -/
def Obligations.NamesAreSeventeenPrintableBytes : Prop :=
  (∀ v : Byte, (0x21#8 ≤ v ∧ v ≤ 0x7A#8 → sanitize v = v) ∧ (¬ (0x21#8 ≤ v ∧ v ≤ 0x7A#8) → sanitize v = 0x20#8)) ∧
  ∀ (s : State) (d start : Nat),
    (s.decodeName d start).1.length = 17 ∧ ∀ b ∈ (s.decodeName d start).1, nameByte b

/-- R45, R46: `Sym(i)` is 1 for the byte 0x31 and 0 for every other byte below `length`; at or above `length` it is
the next draw. Both clauses are the spec's decisions D18, D19; the draw is a free value (log entry 7). -/
def Obligations.SymbolBitsAndDraws : Prop :=
  ∀ (s : State) (d i : Nat),
    (∀ b, i < s.length → s.tape.read i = some b → s.sym d i = (if b = 0x31#8 then 1#1 else 0#1, d)) ∧
    (s.length ≤ i → s.sym d i = (Config.freeBit d, d + 1))

/-- R108: the catalog never holds more than `CAT_MAX` = ceil(`TAPE_CAP` / 800) entries. The spec derives this from
R104 and R106. -/
def Obligations.CatalogFitsItsStore : Prop :=
  ∀ s : State, s.Inv → s.catCount ≤ s.cfg.catMax ∧ s.cfg.catMax = (s.cfg.tapeCap + 799) / 800

/-! ### Catalog and cursor -/

/-- R120: `TCATN` returns `catCount` and writes nothing; it returns 0 after reset, after `TEJECT` and after a
`TINSERT` whose scan found no header. -/
def Obligations.CatalogCountIsReturned : Prop :=
  (∀ s : State, exec .tcatn s = .next { s with result := .count s.cat.length, event := none }) ∧
  (∃ u, exec .tcatn State.reset = .next u ∧ u.result = .count 0) ∧
  (∀ s t : State, exec .teject s = .next t → ∃ u, exec .tcatn t = .next u ∧ u.result = .count 0) ∧
  ∀ (s t : State) (b : Byte) (bs : List Byte), exec (.tinsert (some (b :: bs))) s = .next t →
    (normalise s.cfg (b :: bs)).length ≤ s.cfg.tapeCap →
    (s.loadTape (normalise s.cfg (b :: bs))).scanAll.1 = [] → ∃ u, exec .tcatn t = .next u ∧ u.result = .count 0

/-- R121: `TCATE i` returns entry `i` and writes nothing; an index at or above `catCount` is refused. The refusal is
the spec's decision D16. -/
def Obligations.CatalogEntryIsReturned : Prop :=
  ∀ (s : State) (i : Nat),
    (∀ e, s.cat[i]? = some e → exec (.tcate i) s = .next { s with result := .entry e.name e.offset, event := none }) ∧
    (s.cat.length ≤ i → exec (.tcate i) s = .next
      { s with refusals := s.refusals ++ [.catalogIndexOutOfRange], result := .none, event := none })

/-- R122: `TSELECT 0` sets `cursor` to 0, `TSELECT i` to the offset of entry `i`, and writes `cursor` only; an index
that names no entry is refused. The refusal is the spec's decision D15 (R123), and that `TSELECT 0` is always accepted
is D38. -/
def Obligations.SelectSetsTheCursor : Prop :=
  ∀ s : State,
    exec (.tselect 0) s = .next { s with cursor := 0, result := .none, event := none } ∧
    (∀ i e, i ≠ 0 → s.cat[i]? = some e →
      exec (.tselect i) s = .next { s with cursor := e.offset, result := .none, event := none }) ∧
    (∀ i, i ≠ 0 → s.cat.length ≤ i → exec (.tselect i) s = .next
      { s with refusals := s.refusals ++ [.catalogIndexOutOfRange], result := .none, event := none })

/-- R123, R54: after a `TSELECT` that is not refused the cursor is 0, or 79 symbols follow it on the tape and (under the policies that
reset) the header pattern stands there. The spec derives this from R122, R13 and R104. -/
def Obligations.SelectedCursorIsZeroOrAtAPattern : Prop :=
  ∀ (s t : State) (i : Nat), s.Inv → i = 0 ∨ i < s.catCount → exec (.tselect i) s = .next t →
    (t.cursor = 0 ∨ t.cursor + 79 < t.length) ∧
    (s.catalogMatchesTape → s.cfg.scanBreakPolicy ≠ .ignore → t.cursor = 0 ∨ t.patternAt t.cursor)

/-- R124: `TCUR` returns the highest index whose offset is at or past the cursor, else 0, and writes nothing. -/
def Obligations.CurrentEntryIsTheHighestAtOrPastTheCursor : Prop :=
  ∀ s : State, ∃ r, exec .tcur s = .next { s with result := .index r, event := none } ∧
    ((∃ e, s.cat[r]? = some e ∧ s.cursor ≤ e.offset ∧
        ∀ i e', s.cat[i]? = some e' → s.cursor ≤ e'.offset → i ≤ r) ∨
      (r = 0 ∧ ∀ e ∈ s.cat, e.offset < s.cursor))

/-- R125: with ascending offsets `TCUR` names the last entry until the cursor has passed its start, and 0 afterwards.
The spec derives this from R124. -/
def Obligations.CurrentEntryIsTheLastUntilPassed : Prop :=
  ∀ s : State, s.Inv →
    (∀ e, s.cat.getLast? = some e → s.cursor ≤ e.offset →
      exec .tcur s = .next { s with result := .index (s.cat.length - 1), event := none }) ∧
    (∀ e, s.cat.getLast? = some e → e.offset < s.cursor →
      exec .tcur s = .next { s with result := .index 0, event := none }) ∧
    (s.cat = [] → exec .tcur s = .next { s with result := .index 0, event := none })

/-- R126, R129, R67: `CASRD` returns the bit at the cursor in bit 7, the other bits 0, steps the cursor and wraps it
by the port's comparator, and writes nothing else but the draw of an unspecified bit. Bits 6 to 0 are the spec's
decision D20, the comparator's default D17, the unspecified bit D18 (a free value, log entry 7). -/
def Obligations.PortReadPopsOneBit : Prop :=
  ∀ (s : State) (c : Nat),
    c = (if s.cfg.wrapGePort then (if s.cursor + 1 ≥ s.length then 0 else s.cursor + 1)
         else (if s.cursor + 1 > s.length then 0 else s.cursor + 1)) →
    (∀ b, s.cursor < s.length → s.cursor < s.cfg.tapeCap → s.tape.read s.cursor = some b →
      exec .casrd s = .next { s with cursor := c, result := .data (if b = 0x31#8 then 0x80#8 else 0x00#8), event := none }) ∧
    (s.cursor < s.length → s.cursor < s.cfg.tapeCap → s.tape.read s.cursor = none →
      exec .casrd s = .next { s with
        cursor := c
        result := .data (if Config.freeByte s.draws = 0x31#8 then 0x80#8 else 0x00#8)
        event := none
        draws := s.draws + 1 }) ∧
    (s.length ≤ s.cursor →
      exec .casrd s = .next { s with
        cursor := c
        result := .data (if Config.freeBit s.draws = 1 then 0x80#8 else 0x00#8)
        event := none
        draws := s.draws + 1 })

/-- R128: a bit read of the empty codec returns an unspecified bit and leaves the state as it was, at both sites and
under both comparators. The spec derives this from R126; the draw is a free value (log entry 7). -/
def Obligations.EmptyCodecReadLeavesTheState : Prop :=
  ∀ (s : State) (site : Site), s.length = 0 → s.cursor = 0 →
    s.popValue = Config.freeBit s.draws ∧ s.popState site = { s with draws := s.draws + 1 }

/-- R127: port reads from index 0 walk the tape in order; with `>` the cursor is back at 0 after `length` + 1 reads,
with `>=` after `length`. Which comparator a site has is the spec's decision D17. -/
def Obligations.TapeLoopsWithItsPeriod : Prop :=
  ∀ s : State, s.cursor = 0 → s.length ≤ s.cfg.tapeCap →
    (∀ n < s.length, ∃ u, readPort n s = some u ∧ u.cursor = n) ∧
    (∀ n b, n < s.length → s.tape.read n = some b →
      ∃ u, readPort (n + 1) s = some u ∧ u.result = .data (if b = 0x31#8 then 0x80#8 else 0x00#8)) ∧
    (s.cfg.wrapGePort = false →
      (∃ u, readPort s.length s = some u ∧ u.cursor = s.length) ∧
      ∃ u, readPort (s.length + 1) s = some u ∧ u.cursor = 0) ∧
    (s.cfg.wrapGePort = true → 0 < s.length → ∃ u, readPort s.length s = some u ∧ u.cursor = 0)

/-- R12: where both sites wrap with `>=`, the cursor stays below `length` or at 0. The spec derives this from R126. -/
def Obligations.CursorStaysBelowLengthWhenBothSitesWrapAtIt : Prop :=
  ∀ s t : State, s.Inv → s.cfg.wrapGePort = true → s.cfg.wrapGeMotor = true → s.cursor < s.length ∨ s.cursor = 0 →
    step s = .next t → t.cursor < t.length ∨ t.cursor = 0

/-- R216: after a `TSELECT i` of an entry other than `TSELECT 0`, `TCUR` names the last entry, whichever `i` was. The spec derives
this from R122 and R125. -/
def Obligations.CurrentEntryAfterSelectIsTheLast : Prop :=
  ∀ (s t : State) (i : Nat), s.Inv → i ≠ 0 → i < s.catCount → exec (.tselect i) s = .next t →
    ∃ u, exec .tcur t = .next u ∧ u.result = .index (s.cat.length - 1)

/-! ### Motor and bit reader -/

/-- R141, R143, R144: a poll whose `elapsed` does not exceed the latch's advance threshold writes nothing and returns
the status byte. That the level uses the one `elapsed` is the spec's decision D22; the printer flag is D27. -/
def Obligations.PollWithoutAdvanceWritesNothing : Prop :=
  ∀ (s : State) (tick : Nat) (prn : Bit) (elapsed level : Nat),
    s.tickAtLastAdvance ≤ tick → elapsed = (tick - s.tickAtLastAdvance) / 32 →
    elapsed ≤ (if s.bitLatch = 1 then s.cfg.tAdv1 else s.cfg.tAdv0) →
    level = (if s.bitLatch = 1 then s.cfg.tLvl1 else s.cfg.tLvl0) →
    exec (.tpoll tick prn) s = .next { s with
      result := .status ((if elapsed > level then 0x80#8 else 0#8) ||| (if s.engaged then 0#8 else 0x40#8) |||
        (if prn = 1 then 0x04#8 else 0#8) ||| 0x3B#8)
      event := none }

/-- R140 to R144: a poll whose `elapsed` exceeds the latch's advance threshold takes exactly one bit into the latch,
notes the tick, steps the cursor by the motor's comparator, and returns the level of the new latch. That the level
uses the new latch and the `elapsed` before the advance is the spec's decision D22; the printer flag is D27; an
unspecified bit is a free value (log entry 7). -/
def Obligations.PollThatAdvancesTakesOneBit : Prop :=
  ∀ (s : State) (tick : Nat) (prn : Bit) (elapsed c : Nat) (bit : Bit) (d : Nat),
    s.tickAtLastAdvance ≤ tick → elapsed = (tick - s.tickAtLastAdvance) / 32 →
    (if s.bitLatch = 1 then s.cfg.tAdv1 else s.cfg.tAdv0) < elapsed →
    c = (if s.cfg.wrapGeMotor then (if s.cursor + 1 ≥ s.length then 0 else s.cursor + 1)
         else (if s.cursor + 1 > s.length then 0 else s.cursor + 1)) →
    ((∃ b, s.cursor < s.length ∧ s.cursor < s.cfg.tapeCap ∧ s.tape.read s.cursor = some b ∧
        bit = (if b = 0x31#8 then 1 else 0) ∧ d = s.draws) ∨
      (s.cursor < s.length ∧ s.cursor < s.cfg.tapeCap ∧ s.tape.read s.cursor = none ∧
        bit = (if Config.freeByte s.draws = 0x31#8 then 1 else 0) ∧ d = s.draws + 1) ∨
      (s.length ≤ s.cursor ∧ bit = Config.freeBit s.draws ∧ d = s.draws + 1)) →
    exec (.tpoll tick prn) s = .next { s with
      bitLatch := bit
      tickAtLastAdvance := tick
      cursor := c
      draws := d
      result := .status ((if elapsed > (if bit = 1 then s.cfg.tLvl1 else s.cfg.tLvl0) then 0x80#8 else 0#8) |||
        (if s.engaged then 0#8 else 0x40#8) ||| (if prn = 1 then 0x04#8 else 0#8) ||| 0x3B#8)
      event := none }

/-- R66, R144: bits 6, 2, 5, 4, 3, 1, 0 of every status byte, and the eight bytes a poll can return, for every poll
that is not refused (R149, R44). The printer flag's place as an operand is the spec's decision D27. -/
def Obligations.StatusByteFields : Prop :=
  ∀ (s : State) (tick : Nat) (prn : Bit), s.tickAtLastAdvance ≤ tick → (s.cursor < s.length → s.cursor < s.cfg.tapeCap) →
    ∃ t b, exec (.tpoll tick prn) s = .next t ∧ t.result = .status b ∧ b.getLsbD 6 = !s.engaged ∧ b.getLsbD 2 = (prn == 1) ∧
      b.getLsbD 5 = true ∧ b.getLsbD 4 = true ∧ b.getLsbD 3 = true ∧ b.getLsbD 1 = true ∧ b.getLsbD 0 = true ∧
      b ∈ [0x3B#8, 0x3F#8, 0x7B#8, 0x7F#8, 0xBB#8, 0xBF#8, 0xFB#8, 0xFF#8]

/-- R145, R146, R147, R32: the four cases of a motor-control write, and the number that `speed` stands for: 1 when
normal, `SPEED_BOOST`, which is greater than 1, when boosted. That every write sets `pulseLatch` to its control bit is the
spec's decision D25 (R146), that `speed` has two values D26; the number's type is log entry 15. -/
def Obligations.MotorWriteTogglesOnAPulse : Prop :=
  (∀ s : State, (s.speed = .normal → s.speedMultiplier = 1) ∧
    (s.speed = .boost → s.speedMultiplier = s.cfg.speedBoost ∧ (s.cfg.wf = true → 1 < s.speedMultiplier))) ∧
  ∀ (s : State) (data : Byte) (tick : Nat) (ctl : Bool), ctl = data.getLsbD s.cfg.motorCtrlBit.val →
    (ctl = false →
      exec (.motorw data tick) s = .next { s with pulseLatch := false, result := .none, event := none }) ∧
    (ctl = true → s.pulseLatch = true →
      exec (.motorw data tick) s = .next { s with pulseLatch := true, result := .none, event := none }) ∧
    (ctl = true → s.pulseLatch = false → s.engaged = false →
      exec (.motorw data tick) s = .next { s with
        engaged := true, tickAtLastAdvance := tick, speed := .boost, pulseLatch := true, result := .none, event := none }) ∧
    (ctl = true → s.pulseLatch = false → s.engaged = true →
      exec (.motorw data tick) s = .next { s with
        engaged := false, speed := .normal, pulseLatch := true, result := .none, event := none })

/-- R146, R215: of two writes with the control bit set and none with it clear between them, the second changes
nothing. When `pulseLatch` changes is the spec's decision D25. -/
def Obligations.HeldControlBitIsOnePulse : Prop :=
  ∀ (s t : State) (data data' : Byte) (tick tick' : Nat),
    data.getLsbD s.cfg.motorCtrlBit.val = true → data'.getLsbD s.cfg.motorCtrlBit.val = true →
    exec (.motorw data tick) s = .next t → exec (.motorw data' tick') t = .next t

/-- R148: the order constraints on the thresholds of the machine after reset. The thresholds themselves are OPEN (D23)
and free here (log entry 6). -/
def Obligations.ThresholdsAreOrdered : Prop :=
  State.reset.cfg.tAdv0 < State.reset.cfg.tAdv1 ∧ State.reset.cfg.tLvl1 < State.reset.cfg.tAdv1 ∧
    State.reset.cfg.tLvl0 < State.reset.cfg.tAdv0

/-! ### Mixer -/

/-- R161, R187: an `ACONFIG` before the configuration is closed stores its options, defaulted and clamped, resets
`wcur`, closes the configuration and writes nothing else; a later one is refused, and so is a volume outside 0.0 to
1.0. Clamping is the spec's decision D28, the refusals D41; one half for "~0.5" is log entry 4. -/
def Obligations.ConfigureStoresOptions : Prop :=
  ∀ (s : State) (rate count : Option Nat) (vol : Option Rat),
    (s.configured = true → exec (.aconfig rate count vol) s = .next
      { s with refusals := s.refusals ++ [.reconfigure], result := .none, event := none }) ∧
    (∀ v, s.configured = false → vol = some v → v < 0 ∨ 1 < v →
      exec (.aconfig rate count vol) s = .next
        { s with refusals := s.refusals ++ [.volumeOutOfRange], result := .none, event := none }) ∧
    (s.configured = false → (∀ v, vol = some v → 0 ≤ v ∧ v ≤ 1) → ∃ t, exec (.aconfig rate count vol) s = .next t ∧
      (rate = none ∨ rate = some 0 → t.sampleRate = 44100) ∧ (∀ r, rate = some r → r ≠ 0 → t.sampleRate = r) ∧
      (count = none ∨ count = some 0 → t.ringCap = 128) ∧ (∀ n, count = some n → 1024 < n → t.ringCap = 1024) ∧
      (∀ n, count = some n → n ≠ 0 → n ≤ 1024 → t.ringCap = n) ∧
      (vol = none → t.volume = mkRat 1 2) ∧ (∀ v, vol = some v → t.volume = v) ∧
      t = { s with
        sampleRate := t.sampleRate
        ringCap := t.ringCap
        volume := t.volume
        wcur := 0
        configured := true
        result := .none
        event := none })

/-- R162: after an accepted `ACONFIG`, and after any pulse, every later `ACONFIG` is refused, whatever operations come
between. The flag and the refusal are the spec's decision D41. -/
def Obligations.ConfigurationStaysClosed : Prop :=
  (∀ (s t : State) (rate count : Option Nat) (vol : Option Rat),
    (∀ v, vol = some v → 0 ≤ v ∧ v ≤ 1) → exec (.aconfig rate count vol) s = .next t → t.configured = true) ∧
  (∀ (s t : State) (strobe : Bool) (b p : SampleName), exec (.apulse strobe b p) s = .next t → t.configured = true) ∧
  (∀ (s t : State) (i : Instr), s.configured = true → exec i s = .next t → t.configured = true) ∧
  ∀ (s : State) (rate count : Option Nat) (vol : Option Rat), s.configured = true →
    exec (.aconfig rate count vol) s = .next { s with refusals := s.refusals ++ [.reconfigure], result := .none, event := none }

/-- R164, R165: a pulse without a sample boundary closes the configuration, toggles `psgPhase` and writes nothing
else; the sound generator is advanced when the pulse finds `psgPhase` = 1. The phase of the divider is the spec's
decision D31. -/
def Obligations.PulseWithoutBoundary : Prop :=
  ∀ (s : State) (b p : SampleName), exec (.apulse false b p) s = .next { s with
    configured := true
    psgPhase := if s.psgPhase = 1 then 0 else 1
    result := .psgTick (s.psgPhase == 1)
    event := none }

/-- R166, R168: a boundary that does not fill the ring pushes the sum at `wcur` and steps `wcur` by one; the pushed
sample reads as `add` of the two samples the operands name. The sample type and `add` are OPEN (D29), and that the ring
holds names of samples is log entry 5; the phase of the divider is the spec's decision D31. -/
def Obligations.PulsePushesOneSum : Prop :=
  ∀ (s : State) (b p : SampleName), s.wcur + 1 ≠ s.ringCap →
    ∃ t, exec (.apulse true b p) s = .next t ∧
      t.ring.read s.wcur = some (s.cfg.sumName b p) ∧
      s.cfg.sampleOf (s.cfg.sumName b p) = s.cfg.add (s.cfg.sampleOf b) (s.cfg.sampleOf p) ∧
      (∀ a, a ≠ s.wcur → t.ring.read a = s.ring.read a) ∧
      t = { s with
        ring := t.ring
        wcur := s.wcur + 1
        configured := true
        psgPhase := if s.psgPhase = 1 then 0 else 1
        result := .psgTick (s.psgPhase == 1)
        event := none }

/-- R167, R168, R185, R186: the push that fills the ring emits the samples `ring[0]` to `ring[ringCap-1]` in index
order and the count, and returns `wcur` to 0; the pushed sample reads as `add` of the two samples the operands name, a
type and an operation that are OPEN (D29, log entry 5); a slot that nothing has written delivers a draw of its own (log
entry 7). Every request that the host makes from inside the event is refused with `reentry`, whatever it asks for; the
pulse completes all the same, and nothing else is changed but the count of the draws. That a missing consumer does not
matter and that a nested request is refused are the spec's decision D33; that the nested requests are given beforehand,
event by event, is log entry 9. -/
def Obligations.PulseThatFillsTheRingFlushes : Prop :=
  ∀ (s : State) (b p : SampleName), s.ring.wf → s.wcur + 1 = s.ringCap →
    ∃ t e, exec (.apulse true b p) s = .next t ∧
      t.ring.read s.wcur = some (s.cfg.sumName b p) ∧
      s.cfg.sampleOf (s.cfg.sumName b p) = s.cfg.add (s.cfg.sampleOf b) (s.cfg.sampleOf p) ∧
      (∀ a, a ≠ s.wcur → t.ring.read a = s.ring.read a) ∧
      e.count = s.ringCap ∧ e.samples.length = s.ringCap ∧
      (∀ i v, i < s.ringCap → t.ring.read i = some v → e.samples[i]? = some v) ∧
      (∀ i < s.ringCap, t.ring.read i = none → e.samples[i]? =
        some (Config.freeSample (s.draws + (List.range i).countP fun j => (t.ring.read j).isNone))) ∧
      t = { s with
        ring := t.ring
        wcur := 0
        configured := true
        psgPhase := if s.psgPhase = 1 then 0 else 1
        result := .psgTick (s.psgPhase == 1)
        event := some e
        refusals := s.refusals ++ (s.callback.headD []).map fun _ => .reentry
        callback := s.callback.tail
        draws := s.draws + (List.range s.ringCap).countP fun j => (t.ring.read j).isNone }

/-- R201: a flush hands over only samples that have been pushed: the unspecified content of the ring is never seen.
The spec derives this from R166 and R167 (D42). -/
def Obligations.FlushDeliversOnlyWrittenSamples : Prop :=
  ∀ (s t : State) (b p : SampleName) (e : SamplesEvent), s.Inv → exec (.apulse true b p) s = .next t → t.event = some e →
    t.draws = s.draws ∧ ∀ i < e.count, ∃ v, t.ring.read i = some v ∧ e.samples[i]? = some v

/-- R167, R168, R170: `ringCap` boundaries from an empty ring emit one event, whose samples are the sums in push order
and read as `add` of each pair. The sample type and `add` are OPEN (D29, log entry 5). Requests that the host
makes from inside the event do not matter (R186). -/
def Obligations.RingDeliversSumsInPushOrder : Prop :=
  ∀ (s : State) (pairs : List (SampleName × SampleName)), s.Inv → s.wcur = 0 → pairs.length = s.ringCap →
    ∃ t, pushPulses pairs s = some t ∧ t.wcur = 0 ∧
      (∃ e, t.event = some e ∧ e.samples = pairs.map (fun x => s.cfg.sumName x.1 x.2) ∧ e.count = s.ringCap ∧
        e.samples.map s.cfg.sampleOf = pairs.map fun x => s.cfg.add (s.cfg.sampleOf x.1) (s.cfg.sampleOf x.2)) ∧
      ∀ n < s.ringCap, ∃ u, pushPulses (pairs.take n) s = some u ∧ u.wcur = n ∧ (0 < n → u.event = none)

/-! ### The whole machine -/

/-- 10_state.md section 1, column "written by": no operation writes a register that the table does not let it write.
Nothing writes the configuration record (R203 point 4), and the refusal mark only grows (R182). That `requests` is left
alone, and `callback` but by a pulse, is the model's choice (log entries 1 and 9). -/
def Obligations.WritersOfEachRegister : Prop :=
  ∀ (i : Instr) (s t : State), exec i s = .next t →
    t.cfg = s.cfg ∧ t.requests = s.requests ∧ s.refusals <+: t.refusals ∧
    (t.callback ≠ s.callback → i.mnemonic = "APULSE") ∧
    (t.tape ≠ s.tape → i.mnemonic = "TINSERT") ∧
    (t.length ≠ s.length → i.mnemonic ∈ ["TINSERT", "TEJECT"]) ∧
    (t.cursor ≠ s.cursor → i.mnemonic ∈ ["TINSERT", "TEJECT", "TSELECT", "CASRD", "TPOLL"]) ∧
    (t.cat ≠ s.cat → i.mnemonic ∈ ["TINSERT", "TEJECT"]) ∧
    (t.engaged ≠ s.engaged → i.mnemonic = "MOTORW") ∧
    (t.pulseLatch ≠ s.pulseLatch → i.mnemonic = "MOTORW") ∧
    (t.speed ≠ s.speed → i.mnemonic = "MOTORW") ∧
    (t.bitLatch ≠ s.bitLatch → i.mnemonic = "TPOLL") ∧
    (t.tickAtLastAdvance ≠ s.tickAtLastAdvance → i.mnemonic ∈ ["TPOLL", "MOTORW"]) ∧
    (t.ring ≠ s.ring → i.mnemonic = "APULSE") ∧
    (t.ringCap ≠ s.ringCap → i.mnemonic = "ACONFIG") ∧
    (t.sampleRate ≠ s.sampleRate → i.mnemonic = "ACONFIG") ∧
    (t.volume ≠ s.volume → i.mnemonic = "ACONFIG") ∧
    (t.wcur ≠ s.wcur → i.mnemonic ∈ ["APULSE", "ACONFIG"]) ∧
    (t.psgPhase ≠ s.psgPhase → i.mnemonic = "APULSE") ∧
    (t.configured ≠ s.configured → i.mnemonic ∈ ["ACONFIG", "APULSE"])

/-- R182, R180: an operation is refused exactly when a row of the table of refusals applies: then it changes no state,
returns nothing, and the row's reason is marked; otherwise it completes, and it marks nothing but the requests made from
inside the event it emits, each with `reentry` (R186). It never faults, and a refusal never ends the run. Each refusal is
a decision of the spec, named in R182's table; where the buffer's end is tested is log entry 11, how a nested request is
given log entry 9, what the mark holds log entry 3. -/
def Obligations.RefusalsAreExactlyTheTable : Prop :=
  ∀ (i : Instr) (s : State),
    (∀ r, Refuses s i r → exec i s = .next { s with refusals := s.refusals ++ [r], result := .none, event := none }) ∧
    ((∀ r, ¬ Refuses s i r) → ∃ t, exec i s = .next t ∧
      t.refusals = s.refusals ++ (if t.event = none then [] else (s.callback.headD []).map fun _ => .reentry)) ∧
    (∀ f, exec i s ≠ .fault f) ∧ ∀ r, exec i s ≠ .refused r

/-- R182: a refused request does not stop the block. The next request runs as if the refused one had not been made, but
for the mark; every step answers a next state, and in a run of any length the mark is kept. What the mark holds is log
entry 3. -/
def Obligations.RunsGoOnAndKeepTheMark : Prop :=
  (∀ (s : State) (q : Request) (qs : List Request) (r : RefusalReason), s.requests = q :: qs →
    Refuses { s with requests := qs } q.instr r →
    step s = .next { s with requests := qs, refusals := s.refusals ++ [r], result := .none, event := none }) ∧
  ∀ (n : Nat) (s : State), ∃ t : State, Sys2Proof.core.run n s = .next t ∧ s.refusals <+: t.refusals

/-- R180, R183, R44: an operation to which no row of the table of refusals applies completes, whatever the tape and
its catalog hold, and marks nothing while the host keeps its duty (R186); and between operations the row of the tape
buffer's end never applies. The table rests on the spec's decisions. -/
def Obligations.UnrefusedOperationsComplete : Prop :=
  (∀ (i : Instr) (s : State), (∀ r, ¬ Refuses s i r) →
    ∃ t, exec i s = .next t ∧ (s.callback.headD [] = [] → t.refusals = s.refusals)) ∧
  ∀ (i : Instr) (s : State), s.Inv → ¬ Refuses s i .tapeIndexOutOfBuffer

/-- R31, R219, R182: no operation reads `speed`, `sampleRate`, `volume` or the refusal mark, nor what the last operation
returned or emitted: in a state that differs only in them every operation has the same outcome, but for the options that
it does not store, and it marks the same refusals. That the mixer reads neither option is the spec's decision D30. -/
def Obligations.StoredOptionsAreNotRead : Prop :=
  ∀ (i : Instr) (s s' : State),
    s' = { s with
      speed := s'.speed
      sampleRate := s'.sampleRate
      volume := s'.volume
      refusals := s'.refusals
      result := s'.result
      event := s'.event } →
    ∀ t, exec i s = .next t → ∃ t' marks, exec i s' = .next t' ∧
      t' = { t with
        speed := t'.speed
        sampleRate := t'.sampleRate
        volume := t'.volume
        refusals := s'.refusals ++ marks } ∧ t.refusals = s.refusals ++ marks ∧
      (t'.speed = t.speed ∨ t'.speed = s'.speed ∧ t.speed = s.speed) ∧
      (t'.sampleRate = t.sampleRate ∨ t'.sampleRate = s'.sampleRate ∧ t.sampleRate = s.sampleRate) ∧
      (t'.volume = t.volume ∨ t'.volume = s'.volume ∧ t.volume = s.volume)

/-! ### The bus side -/

/-- R73, R43, R190: exactly when a bus transaction is a read of a cassette-bit port, a read of the sound component's
ports or a write to the motor-control range, and what it asks of the block: with only one of them, that one's
operation; with none of them, nothing; with a read and a write at once, one of the two, as the input `readWins` says.
The byte that `CASRD` returns, 0x80 or 0x00, goes onto the data pins; a `MOTORW` leaves the pins as they are.
The port addresses are OPEN (D21); the form of a pattern, that the memory-request flag is not looked at, and the input
`readWins` are the model's choice (log entry 12). -/
def Obligations.BusTransactionsSelectTheirOperation : Prop :=
  ∀ (cfg : Config) (pins : BusPins) (tick : Nat) (readWins : Bool),
    (busInstr cfg pins tick readWins = some .casrd ↔
      asksCassetteRead cfg pins ∧ (asksMotorWrite cfg pins → readWins = true)) ∧
    (busInstr cfg pins tick readWins = some (.motorw pins.data tick) ↔
      asksMotorWrite cfg pins ∧ (asksCassetteRead cfg pins ∨ asksSoundRead cfg pins → readWins = false)) ∧
    (∀ i, busInstr cfg pins tick readWins = some i → i = .casrd ∨ i = .motorw pins.data tick) ∧
    (readMade cfg pins readWins .sound = true ↔
      asksSoundRead cfg pins ∧ (asksMotorWrite cfg pins → readWins = true)) ∧
    (∀ b, pinsAnswered pins (.data b) = { pins with data := b }) ∧
    (∀ s t, (s.cursor < s.length → s.cursor < s.cfg.tapeCap) → exec .casrd s = .next t → ∃ b, t.result = .data b ∧ (b = 0x80#8 ∨ b = 0x00#8) ∧
      pinsAnswered pins t.result = { pins with data := b }) ∧
    ∀ s t data tick', exec (.motorw data tick') s = .next t → pinsAnswered pins t.result = pins

/-- R169, R187: a dispatcher call asks for its pulses, one `APULSE` each in order, and then for the operations of at
most one bus transaction: a `CASRD`, a `MOTORW`, or one `TPOLL` for each poll that the sound component makes while it
handles an IO read of its ports; the block runs them in that order, after what was waiting. That requests queue in the
state is log entry 1, that the polls are an input log entry 12. -/
def Obligations.DispatchAsksPulsesThenTransaction : Prop :=
  ∀ (s : State) (c : BusCall), ∃ tail,
    (s.dispatch c).requests.map Request.instr =
      s.requests.map Request.instr ++ c.pulses.map (fun p => Instr.apulse p.bstrobe p.bval p.pval) ++ tail ∧
    (readMade s.cfg c.pins c.readWins .sound = true → tail = c.polls.map fun p => Instr.tpoll p.tick p.prn) ∧
    (readMade s.cfg c.pins c.readWins .sound = false →
      tail = (busInstr s.cfg c.pins c.tick c.readWins).toList ∧ tail.length ≤ 1)

/-- R74: the expansions of the pseudo-operations. The pseudo-operations are the spec's decision D1. -/
def Obligations.PseudoOperationsExpand : Prop :=
  (∀ n, (expandPseudo n .catalog).length = n + 1 ∧ (expandPseudo n .catalog)[0]? = some .tcatn ∧
    ∀ i < n, (expandPseudo n .catalog)[i + 1]? = some (.tcate i)) ∧
  (∀ n pulses, expandPseudo n (.dispatchAudio pulses) =
    pulses.map fun p => Instr.apulse p.bstrobe p.bval p.pval) ∧
  ∀ n, expandPseudo n .rewind = [.tselect 0]

/-! ### The memories -/

/-- R83: storing a run of bytes in one pass is the loop of single stores at ascending indices, and reading a run is
the loop of single reads; both on memories in canonical form, which they keep. The one-pass access and the canonical
form are the model's (log entries 7 and 13). -/
def Obligations.RunAccessIsTheLoopOfSingleAccesses : Prop :=
  ∀ (m : Memory Byte) (a n : Nat) (vs : List Byte), m.wf →
    m.writeRun a vs = (vs.zipIdx a).foldl (fun m x => m.write x.2 x.1) m ∧ (m.writeRun a vs).wf ∧
    m.readRun a n = (List.range n).map fun i => m.read (a + i)
end

