-- ==== Sys2Proof/Laws/Memory.lean ====
section
/-! SUPPORT. The laws of a sparse memory: read after write, the canonical form is kept, a run written or read in
one pass is the loop of single accesses. -/

namespace Sys2Proof.Machine

variable {α : Type}

/-! ### One read, one write -/

@[simp] theorem Memory.read_nil (a : Nat) : Memory.read ([] : Memory α) a = none := rfl

theorem Memory.read_cons (k : Nat) (v : α) (m : Memory α) (a : Nat) :
    Memory.read ((k, v) :: m) a = if k = a then some v else Memory.read m a := rfl

theorem Memory.read_write (m : Memory α) (a b : Nat) (v : α) :
    Memory.read (Memory.write m a v) b = if a = b then some v else Memory.read m b := by
  induction m with
  | nil => simp [Memory.write, Memory.read]
  | cons c m ih =>
    obtain ⟨k, w⟩ := c
    simp only [Memory.write]
    split
    · simp [Memory.read_cons]
    · split
      · subst_vars; simp only [Memory.read_cons]; split <;> simp_all
      · simp only [Memory.read_cons, ih]; split <;> split <;> simp_all

@[simp] theorem Memory.read_write_same (m : Memory α) (a : Nat) (v : α) :
    Memory.read (Memory.write m a v) a = some v := by simp [Memory.read_write]

theorem Memory.read_write_other (m : Memory α) {a b : Nat} (v : α) (h : a ≠ b) :
    Memory.read (Memory.write m a v) b = Memory.read m b := by simp [Memory.read_write, h]

theorem Memory.mem_write {m : Memory α} {a : Nat} {v : α} {c : Nat × α} (h : c ∈ Memory.write m a v) :
    c = (a, v) ∨ c ∈ m := by
  induction m with
  | nil => simpa [Memory.write] using h
  | cons d m ih =>
    obtain ⟨k, w⟩ := d
    simp only [Memory.write] at h
    split at h
    · simpa using h
    · split at h
      · rcases List.mem_cons.1 h with rfl | h
        · exact .inl rfl
        · exact .inr (List.mem_cons_of_mem _ h)
      · rcases List.mem_cons.1 h with rfl | h
        · exact .inr List.mem_cons_self
        · exact (ih h).imp_right (List.mem_cons_of_mem _)

theorem Memory.wf_write {m : Memory α} (h : m.wf) (a : Nat) (v : α) : (Memory.write m a v).wf := by
  induction m with
  | nil => simp [Memory.write]
  | cons d m ih =>
    obtain ⟨k, w⟩ := d
    obtain ⟨hk, hm⟩ := List.pairwise_cons.1 h
    simp only [Memory.write]
    split
    · rename_i hlt
      refine List.pairwise_cons.2 ⟨fun c hc => ?_, h⟩
      rcases List.mem_cons.1 hc with rfl | hc
      · exact hlt
      · exact Nat.lt_trans hlt (hk c hc)
    · split
      · subst_vars; exact List.pairwise_cons.2 ⟨hk, hm⟩
      · refine List.pairwise_cons.2 ⟨fun c hc => ?_, ih hm⟩
        rcases Memory.mem_write hc with rfl | hc
        · simp only; omega
        · exact hk c hc

/-- An index below every listed one holds nothing. -/
theorem Memory.read_eq_none {m : Memory α} {a : Nat} (h : ∀ c ∈ m, c.1 ≠ a) : Memory.read m a = none := by
  induction m with
  | nil => rfl
  | cons d m ih =>
    obtain ⟨k, w⟩ := d
    have hk : k ≠ a := h (k, w) List.mem_cons_self
    simpa [Memory.read_cons, hk] using ih fun c hc => h c (List.mem_cons_of_mem _ hc)

theorem Memory.mem_of_read {m : Memory α} {a : Nat} {v : α} (h : Memory.read m a = some v) : (a, v) ∈ m := by
  induction m with
  | nil => simp at h
  | cons d m ih =>
    obtain ⟨k, w⟩ := d
    rw [Memory.read_cons] at h
    split at h
    · subst_vars; obtain rfl := Option.some.inj h; exact List.mem_cons_self
    · exact List.mem_cons_of_mem _ (ih h)

theorem Memory.read_of_mem {m : Memory α} (hm : m.wf) {a : Nat} {v : α} (h : (a, v) ∈ m) : Memory.read m a = some v := by
  induction m with
  | nil => simp at h
  | cons d m ih =>
    obtain ⟨k, w⟩ := d
    obtain ⟨hk, hm⟩ := List.pairwise_cons.1 hm
    rw [Memory.read_cons]
    rcases List.mem_cons.1 h with heq | h
    · obtain ⟨rfl, rfl⟩ := Prod.mk.inj heq; simp
    · have := hk _ h
      rw [if_neg (by simp only at this; omega)]
      exact ih hm h

/-- Memories in canonical form that read alike are equal: equal memories are equal data. -/
theorem Memory.ext_of_wf {m m' : Memory α} (hm : m.wf) (hm' : m'.wf)
    (h : ∀ a, Memory.read m a = Memory.read m' a) : m = m' := by
  have hmem : ∀ c, c ∈ m ↔ c ∈ m' := fun ⟨a, v⟩ =>
    ⟨fun hc => Memory.mem_of_read ((h a).symm.trans (Memory.read_of_mem hm hc)),
     fun hc => Memory.mem_of_read ((h a).trans (Memory.read_of_mem hm' hc))⟩
  refine List.Perm.eq_of_pairwise (le := fun c d => c.1 < d.1) (fun a b _ _ hab hba => ?_) hm hm' ?_
  · omega
  · have hnd : ∀ {n : Memory α}, n.wf → n.Nodup := fun hn => hn.imp fun hlt heq => by subst heq; omega
    exact (List.perm_ext_iff_of_nodup (hnd hm) (hnd hm')).2 hmem

/-! ### Runs -/

theorem Memory.read_append (m m' : Memory α) (a : Nat) :
    Memory.read (m ++ m') a = (Memory.read m a).or (Memory.read m' a) := by
  induction m with
  | nil => simp
  | cons d m ih =>
    obtain ⟨k, w⟩ := d
    simp only [List.cons_append, Memory.read_cons]
    split <;> simp_all

theorem Memory.read_filter (m : Memory α) (p : Nat → Bool) (a : Nat) :
    Memory.read (m.filter fun c => p c.1) a = if p a then Memory.read m a else none := by
  induction m with
  | nil => simp
  | cons d m ih =>
    obtain ⟨k, w⟩ := d
    by_cases hka : k = a
    · subst hka
      by_cases hp : p k <;> simp [Memory.read_cons, hp, ih]
    · by_cases hp : p k <;> simp [Memory.read_cons, hp, hka, ih]

theorem Memory.read_cellsFrom (vs : List α) (a b : Nat) :
    Memory.read (Memory.cellsFrom a vs) b = if a ≤ b then vs[b - a]? else none := by
  induction vs generalizing a with
  | nil => simp [Memory.cellsFrom]
  | cons v vs ih =>
    simp only [Memory.cellsFrom, Memory.read_cons, ih]
    rcases Nat.lt_trichotomy a b with h | rfl | h
    · rw [if_neg (by omega), if_pos (by omega), if_pos (by omega)]
      obtain ⟨n, rfl⟩ : ∃ n, b = a + 1 + n := ⟨b - (a + 1), by omega⟩
      simp [show a + 1 + n - (a + 1) = n by omega, show a + 1 + n - a = n + 1 by omega]
    · simp
    · rw [if_neg (by omega), if_neg (by omega), if_neg (by omega)]

theorem Memory.mem_cellsFrom {vs : List α} {a : Nat} {c : Nat × α} (h : c ∈ Memory.cellsFrom a vs) :
    a ≤ c.1 ∧ c.1 < a + vs.length := by
  induction vs generalizing a with
  | nil => simp [Memory.cellsFrom] at h
  | cons v vs ih =>
    rcases List.mem_cons.1 h with rfl | h
    · simp
    · have := ih h; simp only [List.length_cons]; omega

theorem Memory.wf_cellsFrom (vs : List α) (a : Nat) : (Memory.cellsFrom a vs).wf := by
  induction vs generalizing a with
  | nil => simp [Memory.cellsFrom]
  | cons v vs ih =>
    refine List.pairwise_cons.2 ⟨fun c hc => ?_, ih (a + 1)⟩
    have := Memory.mem_cellsFrom hc
    simp only; omega

/-- A run written: the values at the written indices, everything else as before. -/
theorem Memory.read_writeRun (m : Memory α) (a : Nat) (vs : List α) (b : Nat) :
    Memory.read (Memory.writeRun m a vs) b =
      if a ≤ b ∧ b < a + vs.length then vs[b - a]? else Memory.read m b := by
  simp only [Memory.writeRun, Memory.read_append]
  rw [Memory.read_filter m (fun k => decide (k < a)) b, Memory.read_filter m (fun k => decide (a + vs.length ≤ k)) b,
    Memory.read_cellsFrom]
  rcases Nat.lt_or_ge b a with h | h
  · simp only [h, decide_true, if_true]
    rw [if_neg (by omega), if_neg (by simp; omega), if_neg (by omega)]
    simp
  · simp only [Nat.not_lt.2 h, decide_false, Bool.false_eq_true, if_false, Option.none_or]
    rcases Nat.lt_or_ge b (a + vs.length) with h' | h'
    · rw [if_pos h, if_neg (by simp; omega), if_pos ⟨h, h'⟩]
      simp
    · rw [if_pos h, if_pos (by simpa using h'), if_neg (by omega), List.getElem?_eq_none (by omega)]
      simp

theorem Memory.wf_writeRun {m : Memory α} (h : m.wf) (a : Nat) (vs : List α) : (Memory.writeRun m a vs).wf := by
  refine List.pairwise_append.2 ⟨List.pairwise_append.2 ⟨h.filter _, Memory.wf_cellsFrom vs a, ?_⟩, h.filter _, ?_⟩
  · intro c hc d hd
    have := Memory.mem_cellsFrom hd
    simp only [List.mem_filter, decide_eq_true_eq] at hc
    omega
  · intro c hc d hd
    simp only [List.mem_filter, decide_eq_true_eq] at hd
    rcases List.mem_append.1 hc with hc | hc
    · simp only [List.mem_filter, decide_eq_true_eq] at hc; omega
    · have := Memory.mem_cellsFrom hc; omega

theorem Memory.mem_writeRun {m : Memory α} {a : Nat} {vs : List α} {c : Nat × α} (h : c ∈ Memory.writeRun m a vs) :
    c ∈ m ∨ (a ≤ c.1 ∧ c.1 < a + vs.length) := by
  rcases List.mem_append.1 h with h | h
  · rcases List.mem_append.1 h with h | h
    · exact .inl (List.mem_filter.1 h).1
    · exact .inr (Memory.mem_cellsFrom h)
  · exact .inl (List.mem_filter.1 h).1

theorem Memory.read_dropBelow (m : Memory α) {a b : Nat} (h : a ≤ b) :
    Memory.read (Memory.dropBelow a m) b = Memory.read m b := by
  induction m with
  | nil => rfl
  | cons d m ih =>
    obtain ⟨k, w⟩ := d
    by_cases hk : k < a
    · have : Memory.dropBelow a ((k, w) :: m) = Memory.dropBelow a m := by simp [Memory.dropBelow, hk]
      rw [this, ih, Memory.read_cons, if_neg (by omega)]
    · have : Memory.dropBelow a ((k, w) :: m) = (k, w) :: m := by simp [Memory.dropBelow, hk]
      rw [this]

theorem Memory.wf_dropBelow {m : Memory α} (h : m.wf) (a : Nat) : (Memory.dropBelow a m).wf :=
  h.sublist (List.dropWhile_sublist _)

theorem Memory.dropBelow_head {m : Memory α} {a k : Nat} {v : α} {rest : Memory α}
    (h : Memory.dropBelow a m = (k, v) :: rest) : a ≤ k := by
  induction m with
  | nil => simp [Memory.dropBelow] at h
  | cons d m ih =>
    obtain ⟨k', w⟩ := d
    by_cases hk : k' < a
    · exact ih (by simpa [Memory.dropBelow, hk] using h)
    · simp [Memory.dropBelow, hk] at h; omega

@[simp] theorem Memory.length_readRun (m : Memory α) (a n : Nat) : (Memory.readRun m a n).length = n := by
  induction n generalizing m a with
  | zero => rfl
  | succ n ih =>
    simp only [Memory.readRun]
    split
    · simp [ih]
    · split <;> simp [ih]

/-- A run read in one pass is the loop of single reads. -/
theorem Memory.readRun_eq_map {m : Memory α} (h : m.wf) (a n : Nat) :
    Memory.readRun m a n = (List.range n).map fun i => Memory.read m (a + i) := by
  induction n generalizing m a with
  | zero => rfl
  | succ n ih =>
    have hshift : ∀ (m' : Memory α), (List.range n).map (fun i => Memory.read m' (a + 1 + i)) =
        (List.range n).map (fun i => Memory.read m' (a + (i + 1))) := fun m' => by
      refine List.map_congr_left fun i _ => ?_
      rw [show a + 1 + i = a + (i + 1) by omega]
    have hd := Memory.wf_dropBelow h a
    have hr : ∀ i, Memory.read m (a + i) = Memory.read (Memory.dropBelow a m) (a + i) := fun i =>
      (Memory.read_dropBelow m (by omega)).symm
    simp only [List.range_succ_eq_map, List.map_cons, List.map_map, Nat.add_zero, Function.comp_def, hr,
      Nat.succ_eq_add_one]
    simp only [Memory.readRun]
    split
    · rename_i heq
      rw [heq, ih (by simp), hshift]
      simp
    · rename_i k v rest heq
      rw [heq] at hd
      obtain ⟨hk, hrest⟩ := List.pairwise_cons.1 hd
      have hak := Memory.dropBelow_head heq
      split
      · rename_i hka
        subst hka
        rw [heq, ih hrest, hshift]
        simp [Memory.read_cons]
      · rename_i hka
        rw [heq, ih hd, hshift]
        have hlow : Memory.read rest a = none := Memory.read_eq_none fun c hc => by have := hk c hc; simp only at this; omega
        simp only [Memory.read_cons, hka, if_false, hlow]

theorem Memory.getElem?_readRun {m : Memory α} (h : m.wf) (a n i : Nat) :
    (Memory.readRun m a n)[i]? = if i < n then some (Memory.read m (a + i)) else none := by
  rw [Memory.readRun_eq_map h]
  by_cases hi : i < n <;> simp [hi]

end Sys2Proof.Machine
end

