-- ==== Sys2Proof/Laws/State.lean ====
section
/-! SUPPORT. One lemma per field per update of the state, so that no proof unfolds a record update. -/

namespace Sys2Proof.Machine

variable (s : State)

/-! ### `State.loadTape` -/

@[simp] theorem State.loadTape_cfg (out : List Byte) : (s.loadTape out).cfg = s.cfg := rfl
@[simp] theorem State.loadTape_tape (out : List Byte) : (s.loadTape out).tape = s.tape.writeRun 0 out := rfl
@[simp] theorem State.loadTape_length (out : List Byte) : (s.loadTape out).length = out.length := rfl
@[simp] theorem State.loadTape_cursor (out : List Byte) : (s.loadTape out).cursor = 0 := rfl
@[simp] theorem State.loadTape_cat (out : List Byte) : (s.loadTape out).cat = [] := rfl
@[simp] theorem State.loadTape_engaged (out : List Byte) : (s.loadTape out).engaged = s.engaged := rfl
@[simp] theorem State.loadTape_pulseLatch (out : List Byte) : (s.loadTape out).pulseLatch = s.pulseLatch := rfl
@[simp] theorem State.loadTape_bitLatch (out : List Byte) : (s.loadTape out).bitLatch = s.bitLatch := rfl
@[simp] theorem State.loadTape_tickAtLastAdvance (out : List Byte) : (s.loadTape out).tickAtLastAdvance = s.tickAtLastAdvance := rfl
@[simp] theorem State.loadTape_speed (out : List Byte) : (s.loadTape out).speed = s.speed := rfl
@[simp] theorem State.loadTape_ring (out : List Byte) : (s.loadTape out).ring = s.ring := rfl
@[simp] theorem State.loadTape_ringCap (out : List Byte) : (s.loadTape out).ringCap = s.ringCap := rfl
@[simp] theorem State.loadTape_wcur (out : List Byte) : (s.loadTape out).wcur = s.wcur := rfl
@[simp] theorem State.loadTape_sampleRate (out : List Byte) : (s.loadTape out).sampleRate = s.sampleRate := rfl
@[simp] theorem State.loadTape_volume (out : List Byte) : (s.loadTape out).volume = s.volume := rfl
@[simp] theorem State.loadTape_psgPhase (out : List Byte) : (s.loadTape out).psgPhase = s.psgPhase := rfl
@[simp] theorem State.loadTape_configured (out : List Byte) : (s.loadTape out).configured = s.configured := rfl
@[simp] theorem State.loadTape_requests (out : List Byte) : (s.loadTape out).requests = s.requests := rfl
@[simp] theorem State.loadTape_callback (out : List Byte) : (s.loadTape out).callback = s.callback := rfl
@[simp] theorem State.loadTape_result (out : List Byte) : (s.loadTape out).result = s.result := rfl
@[simp] theorem State.loadTape_event (out : List Byte) : (s.loadTape out).event = s.event := rfl
@[simp] theorem State.loadTape_refusals (out : List Byte) : (s.loadTape out).refusals = s.refusals := rfl
@[simp] theorem State.loadTape_draws (out : List Byte) : (s.loadTape out).draws = s.draws := rfl

/-! ### `State.withCatalog` -/

@[simp] theorem State.withCatalog_cfg (es : List CatEntry) (d : Nat) : (s.withCatalog es d).cfg = s.cfg := rfl
@[simp] theorem State.withCatalog_tape (es : List CatEntry) (d : Nat) : (s.withCatalog es d).tape = s.tape := rfl
@[simp] theorem State.withCatalog_length (es : List CatEntry) (d : Nat) : (s.withCatalog es d).length = s.length := rfl
@[simp] theorem State.withCatalog_cursor (es : List CatEntry) (d : Nat) : (s.withCatalog es d).cursor = s.cursor := rfl
@[simp] theorem State.withCatalog_cat (es : List CatEntry) (d : Nat) : (s.withCatalog es d).cat = es := rfl
@[simp] theorem State.withCatalog_engaged (es : List CatEntry) (d : Nat) : (s.withCatalog es d).engaged = s.engaged := rfl
@[simp] theorem State.withCatalog_pulseLatch (es : List CatEntry) (d : Nat) : (s.withCatalog es d).pulseLatch = s.pulseLatch := rfl
@[simp] theorem State.withCatalog_bitLatch (es : List CatEntry) (d : Nat) : (s.withCatalog es d).bitLatch = s.bitLatch := rfl
@[simp] theorem State.withCatalog_tickAtLastAdvance (es : List CatEntry) (d : Nat) : (s.withCatalog es d).tickAtLastAdvance = s.tickAtLastAdvance := rfl
@[simp] theorem State.withCatalog_speed (es : List CatEntry) (d : Nat) : (s.withCatalog es d).speed = s.speed := rfl
@[simp] theorem State.withCatalog_ring (es : List CatEntry) (d : Nat) : (s.withCatalog es d).ring = s.ring := rfl
@[simp] theorem State.withCatalog_ringCap (es : List CatEntry) (d : Nat) : (s.withCatalog es d).ringCap = s.ringCap := rfl
@[simp] theorem State.withCatalog_wcur (es : List CatEntry) (d : Nat) : (s.withCatalog es d).wcur = s.wcur := rfl
@[simp] theorem State.withCatalog_sampleRate (es : List CatEntry) (d : Nat) : (s.withCatalog es d).sampleRate = s.sampleRate := rfl
@[simp] theorem State.withCatalog_volume (es : List CatEntry) (d : Nat) : (s.withCatalog es d).volume = s.volume := rfl
@[simp] theorem State.withCatalog_psgPhase (es : List CatEntry) (d : Nat) : (s.withCatalog es d).psgPhase = s.psgPhase := rfl
@[simp] theorem State.withCatalog_configured (es : List CatEntry) (d : Nat) : (s.withCatalog es d).configured = s.configured := rfl
@[simp] theorem State.withCatalog_requests (es : List CatEntry) (d : Nat) : (s.withCatalog es d).requests = s.requests := rfl
@[simp] theorem State.withCatalog_callback (es : List CatEntry) (d : Nat) : (s.withCatalog es d).callback = s.callback := rfl
@[simp] theorem State.withCatalog_result (es : List CatEntry) (d : Nat) : (s.withCatalog es d).result = s.result := rfl
@[simp] theorem State.withCatalog_event (es : List CatEntry) (d : Nat) : (s.withCatalog es d).event = s.event := rfl
@[simp] theorem State.withCatalog_refusals (es : List CatEntry) (d : Nat) : (s.withCatalog es d).refusals = s.refusals := rfl
@[simp] theorem State.withCatalog_draws (es : List CatEntry) (d : Nat) : (s.withCatalog es d).draws = d := rfl

/-! ### `State.ejectTape` -/

@[simp] theorem State.ejectTape_cfg : s.ejectTape.cfg = s.cfg := rfl
@[simp] theorem State.ejectTape_tape : s.ejectTape.tape = s.tape := rfl
@[simp] theorem State.ejectTape_length : s.ejectTape.length = 0 := rfl
@[simp] theorem State.ejectTape_cursor : s.ejectTape.cursor = 0 := rfl
@[simp] theorem State.ejectTape_cat : s.ejectTape.cat = [] := rfl
@[simp] theorem State.ejectTape_engaged : s.ejectTape.engaged = s.engaged := rfl
@[simp] theorem State.ejectTape_pulseLatch : s.ejectTape.pulseLatch = s.pulseLatch := rfl
@[simp] theorem State.ejectTape_bitLatch : s.ejectTape.bitLatch = s.bitLatch := rfl
@[simp] theorem State.ejectTape_tickAtLastAdvance : s.ejectTape.tickAtLastAdvance = s.tickAtLastAdvance := rfl
@[simp] theorem State.ejectTape_speed : s.ejectTape.speed = s.speed := rfl
@[simp] theorem State.ejectTape_ring : s.ejectTape.ring = s.ring := rfl
@[simp] theorem State.ejectTape_ringCap : s.ejectTape.ringCap = s.ringCap := rfl
@[simp] theorem State.ejectTape_wcur : s.ejectTape.wcur = s.wcur := rfl
@[simp] theorem State.ejectTape_sampleRate : s.ejectTape.sampleRate = s.sampleRate := rfl
@[simp] theorem State.ejectTape_volume : s.ejectTape.volume = s.volume := rfl
@[simp] theorem State.ejectTape_psgPhase : s.ejectTape.psgPhase = s.psgPhase := rfl
@[simp] theorem State.ejectTape_configured : s.ejectTape.configured = s.configured := rfl
@[simp] theorem State.ejectTape_requests : s.ejectTape.requests = s.requests := rfl
@[simp] theorem State.ejectTape_callback : s.ejectTape.callback = s.callback := rfl
@[simp] theorem State.ejectTape_result : s.ejectTape.result = s.result := rfl
@[simp] theorem State.ejectTape_event : s.ejectTape.event = s.event := rfl
@[simp] theorem State.ejectTape_refusals : s.ejectTape.refusals = s.refusals := rfl
@[simp] theorem State.ejectTape_draws : s.ejectTape.draws = s.draws := rfl

/-! ### `State.seek` -/

@[simp] theorem State.seek_cfg (a : Nat) : (s.seek a).cfg = s.cfg := rfl
@[simp] theorem State.seek_tape (a : Nat) : (s.seek a).tape = s.tape := rfl
@[simp] theorem State.seek_length (a : Nat) : (s.seek a).length = s.length := rfl
@[simp] theorem State.seek_cursor (a : Nat) : (s.seek a).cursor = a := rfl
@[simp] theorem State.seek_cat (a : Nat) : (s.seek a).cat = s.cat := rfl
@[simp] theorem State.seek_engaged (a : Nat) : (s.seek a).engaged = s.engaged := rfl
@[simp] theorem State.seek_pulseLatch (a : Nat) : (s.seek a).pulseLatch = s.pulseLatch := rfl
@[simp] theorem State.seek_bitLatch (a : Nat) : (s.seek a).bitLatch = s.bitLatch := rfl
@[simp] theorem State.seek_tickAtLastAdvance (a : Nat) : (s.seek a).tickAtLastAdvance = s.tickAtLastAdvance := rfl
@[simp] theorem State.seek_speed (a : Nat) : (s.seek a).speed = s.speed := rfl
@[simp] theorem State.seek_ring (a : Nat) : (s.seek a).ring = s.ring := rfl
@[simp] theorem State.seek_ringCap (a : Nat) : (s.seek a).ringCap = s.ringCap := rfl
@[simp] theorem State.seek_wcur (a : Nat) : (s.seek a).wcur = s.wcur := rfl
@[simp] theorem State.seek_sampleRate (a : Nat) : (s.seek a).sampleRate = s.sampleRate := rfl
@[simp] theorem State.seek_volume (a : Nat) : (s.seek a).volume = s.volume := rfl
@[simp] theorem State.seek_psgPhase (a : Nat) : (s.seek a).psgPhase = s.psgPhase := rfl
@[simp] theorem State.seek_configured (a : Nat) : (s.seek a).configured = s.configured := rfl
@[simp] theorem State.seek_requests (a : Nat) : (s.seek a).requests = s.requests := rfl
@[simp] theorem State.seek_callback (a : Nat) : (s.seek a).callback = s.callback := rfl
@[simp] theorem State.seek_result (a : Nat) : (s.seek a).result = s.result := rfl
@[simp] theorem State.seek_event (a : Nat) : (s.seek a).event = s.event := rfl
@[simp] theorem State.seek_refusals (a : Nat) : (s.seek a).refusals = s.refusals := rfl
@[simp] theorem State.seek_draws (a : Nat) : (s.seek a).draws = s.draws := rfl

/-! ### `State.popState` -/

@[simp] theorem State.popState_cfg (site : Site) : (s.popState site).cfg = s.cfg := rfl
@[simp] theorem State.popState_tape (site : Site) : (s.popState site).tape = s.tape := rfl
@[simp] theorem State.popState_length (site : Site) : (s.popState site).length = s.length := rfl
@[simp] theorem State.popState_cursor (site : Site) : (s.popState site).cursor = wrapCursor (wrapGe s.cfg site) (s.cursor + 1) s.length := rfl
@[simp] theorem State.popState_cat (site : Site) : (s.popState site).cat = s.cat := rfl
@[simp] theorem State.popState_engaged (site : Site) : (s.popState site).engaged = s.engaged := rfl
@[simp] theorem State.popState_pulseLatch (site : Site) : (s.popState site).pulseLatch = s.pulseLatch := rfl
@[simp] theorem State.popState_bitLatch (site : Site) : (s.popState site).bitLatch = s.bitLatch := rfl
@[simp] theorem State.popState_tickAtLastAdvance (site : Site) : (s.popState site).tickAtLastAdvance = s.tickAtLastAdvance := rfl
@[simp] theorem State.popState_speed (site : Site) : (s.popState site).speed = s.speed := rfl
@[simp] theorem State.popState_ring (site : Site) : (s.popState site).ring = s.ring := rfl
@[simp] theorem State.popState_ringCap (site : Site) : (s.popState site).ringCap = s.ringCap := rfl
@[simp] theorem State.popState_wcur (site : Site) : (s.popState site).wcur = s.wcur := rfl
@[simp] theorem State.popState_sampleRate (site : Site) : (s.popState site).sampleRate = s.sampleRate := rfl
@[simp] theorem State.popState_volume (site : Site) : (s.popState site).volume = s.volume := rfl
@[simp] theorem State.popState_psgPhase (site : Site) : (s.popState site).psgPhase = s.psgPhase := rfl
@[simp] theorem State.popState_configured (site : Site) : (s.popState site).configured = s.configured := rfl
@[simp] theorem State.popState_requests (site : Site) : (s.popState site).requests = s.requests := rfl
@[simp] theorem State.popState_callback (site : Site) : (s.popState site).callback = s.callback := rfl
@[simp] theorem State.popState_result (site : Site) : (s.popState site).result = s.result := rfl
@[simp] theorem State.popState_event (site : Site) : (s.popState site).event = s.event := rfl
@[simp] theorem State.popState_refusals (site : Site) : (s.popState site).refusals = s.refusals := rfl
@[simp] theorem State.popState_draws (site : Site) : (s.popState site).draws = (s.sym s.draws s.cursor).2 := rfl

/-! ### `State.takeBit` -/

@[simp] theorem State.takeBit_cfg (tick : Nat) : (s.takeBit tick).cfg = s.cfg := rfl
@[simp] theorem State.takeBit_tape (tick : Nat) : (s.takeBit tick).tape = s.tape := rfl
@[simp] theorem State.takeBit_length (tick : Nat) : (s.takeBit tick).length = s.length := rfl
@[simp] theorem State.takeBit_cursor (tick : Nat) : (s.takeBit tick).cursor = wrapCursor (wrapGe s.cfg .motor) (s.cursor + 1) s.length := rfl
@[simp] theorem State.takeBit_cat (tick : Nat) : (s.takeBit tick).cat = s.cat := rfl
@[simp] theorem State.takeBit_engaged (tick : Nat) : (s.takeBit tick).engaged = s.engaged := rfl
@[simp] theorem State.takeBit_pulseLatch (tick : Nat) : (s.takeBit tick).pulseLatch = s.pulseLatch := rfl
@[simp] theorem State.takeBit_bitLatch (tick : Nat) : (s.takeBit tick).bitLatch = s.popValue := rfl
@[simp] theorem State.takeBit_tickAtLastAdvance (tick : Nat) : (s.takeBit tick).tickAtLastAdvance = tick := rfl
@[simp] theorem State.takeBit_speed (tick : Nat) : (s.takeBit tick).speed = s.speed := rfl
@[simp] theorem State.takeBit_ring (tick : Nat) : (s.takeBit tick).ring = s.ring := rfl
@[simp] theorem State.takeBit_ringCap (tick : Nat) : (s.takeBit tick).ringCap = s.ringCap := rfl
@[simp] theorem State.takeBit_wcur (tick : Nat) : (s.takeBit tick).wcur = s.wcur := rfl
@[simp] theorem State.takeBit_sampleRate (tick : Nat) : (s.takeBit tick).sampleRate = s.sampleRate := rfl
@[simp] theorem State.takeBit_volume (tick : Nat) : (s.takeBit tick).volume = s.volume := rfl
@[simp] theorem State.takeBit_psgPhase (tick : Nat) : (s.takeBit tick).psgPhase = s.psgPhase := rfl
@[simp] theorem State.takeBit_configured (tick : Nat) : (s.takeBit tick).configured = s.configured := rfl
@[simp] theorem State.takeBit_requests (tick : Nat) : (s.takeBit tick).requests = s.requests := rfl
@[simp] theorem State.takeBit_callback (tick : Nat) : (s.takeBit tick).callback = s.callback := rfl
@[simp] theorem State.takeBit_result (tick : Nat) : (s.takeBit tick).result = s.result := rfl
@[simp] theorem State.takeBit_event (tick : Nat) : (s.takeBit tick).event = s.event := rfl
@[simp] theorem State.takeBit_refusals (tick : Nat) : (s.takeBit tick).refusals = s.refusals := rfl
@[simp] theorem State.takeBit_draws (tick : Nat) : (s.takeBit tick).draws = (s.sym s.draws s.cursor).2 := rfl

/-! ### `State.engage` -/

@[simp] theorem State.engage_cfg (tick : Nat) : (s.engage tick).cfg = s.cfg := rfl
@[simp] theorem State.engage_tape (tick : Nat) : (s.engage tick).tape = s.tape := rfl
@[simp] theorem State.engage_length (tick : Nat) : (s.engage tick).length = s.length := rfl
@[simp] theorem State.engage_cursor (tick : Nat) : (s.engage tick).cursor = s.cursor := rfl
@[simp] theorem State.engage_cat (tick : Nat) : (s.engage tick).cat = s.cat := rfl
@[simp] theorem State.engage_engaged (tick : Nat) : (s.engage tick).engaged = true := rfl
@[simp] theorem State.engage_pulseLatch (tick : Nat) : (s.engage tick).pulseLatch = s.pulseLatch := rfl
@[simp] theorem State.engage_bitLatch (tick : Nat) : (s.engage tick).bitLatch = s.bitLatch := rfl
@[simp] theorem State.engage_tickAtLastAdvance (tick : Nat) : (s.engage tick).tickAtLastAdvance = tick := rfl
@[simp] theorem State.engage_speed (tick : Nat) : (s.engage tick).speed = .boost := rfl
@[simp] theorem State.engage_ring (tick : Nat) : (s.engage tick).ring = s.ring := rfl
@[simp] theorem State.engage_ringCap (tick : Nat) : (s.engage tick).ringCap = s.ringCap := rfl
@[simp] theorem State.engage_wcur (tick : Nat) : (s.engage tick).wcur = s.wcur := rfl
@[simp] theorem State.engage_sampleRate (tick : Nat) : (s.engage tick).sampleRate = s.sampleRate := rfl
@[simp] theorem State.engage_volume (tick : Nat) : (s.engage tick).volume = s.volume := rfl
@[simp] theorem State.engage_psgPhase (tick : Nat) : (s.engage tick).psgPhase = s.psgPhase := rfl
@[simp] theorem State.engage_configured (tick : Nat) : (s.engage tick).configured = s.configured := rfl
@[simp] theorem State.engage_requests (tick : Nat) : (s.engage tick).requests = s.requests := rfl
@[simp] theorem State.engage_callback (tick : Nat) : (s.engage tick).callback = s.callback := rfl
@[simp] theorem State.engage_result (tick : Nat) : (s.engage tick).result = s.result := rfl
@[simp] theorem State.engage_event (tick : Nat) : (s.engage tick).event = s.event := rfl
@[simp] theorem State.engage_refusals (tick : Nat) : (s.engage tick).refusals = s.refusals := rfl
@[simp] theorem State.engage_draws (tick : Nat) : (s.engage tick).draws = s.draws := rfl

/-! ### `State.disengage` -/

@[simp] theorem State.disengage_cfg : s.disengage.cfg = s.cfg := rfl
@[simp] theorem State.disengage_tape : s.disengage.tape = s.tape := rfl
@[simp] theorem State.disengage_length : s.disengage.length = s.length := rfl
@[simp] theorem State.disengage_cursor : s.disengage.cursor = s.cursor := rfl
@[simp] theorem State.disengage_cat : s.disengage.cat = s.cat := rfl
@[simp] theorem State.disengage_engaged : s.disengage.engaged = false := rfl
@[simp] theorem State.disengage_pulseLatch : s.disengage.pulseLatch = s.pulseLatch := rfl
@[simp] theorem State.disengage_bitLatch : s.disengage.bitLatch = s.bitLatch := rfl
@[simp] theorem State.disengage_tickAtLastAdvance : s.disengage.tickAtLastAdvance = s.tickAtLastAdvance := rfl
@[simp] theorem State.disengage_speed : s.disengage.speed = .normal := rfl
@[simp] theorem State.disengage_ring : s.disengage.ring = s.ring := rfl
@[simp] theorem State.disengage_ringCap : s.disengage.ringCap = s.ringCap := rfl
@[simp] theorem State.disengage_wcur : s.disengage.wcur = s.wcur := rfl
@[simp] theorem State.disengage_sampleRate : s.disengage.sampleRate = s.sampleRate := rfl
@[simp] theorem State.disengage_volume : s.disengage.volume = s.volume := rfl
@[simp] theorem State.disengage_psgPhase : s.disengage.psgPhase = s.psgPhase := rfl
@[simp] theorem State.disengage_configured : s.disengage.configured = s.configured := rfl
@[simp] theorem State.disengage_requests : s.disengage.requests = s.requests := rfl
@[simp] theorem State.disengage_callback : s.disengage.callback = s.callback := rfl
@[simp] theorem State.disengage_result : s.disengage.result = s.result := rfl
@[simp] theorem State.disengage_event : s.disengage.event = s.event := rfl
@[simp] theorem State.disengage_refusals : s.disengage.refusals = s.refusals := rfl
@[simp] theorem State.disengage_draws : s.disengage.draws = s.draws := rfl

/-! ### `State.latchPulse` -/

@[simp] theorem State.latchPulse_cfg (ctl : Bool) : (s.latchPulse ctl).cfg = s.cfg := rfl
@[simp] theorem State.latchPulse_tape (ctl : Bool) : (s.latchPulse ctl).tape = s.tape := rfl
@[simp] theorem State.latchPulse_length (ctl : Bool) : (s.latchPulse ctl).length = s.length := rfl
@[simp] theorem State.latchPulse_cursor (ctl : Bool) : (s.latchPulse ctl).cursor = s.cursor := rfl
@[simp] theorem State.latchPulse_cat (ctl : Bool) : (s.latchPulse ctl).cat = s.cat := rfl
@[simp] theorem State.latchPulse_engaged (ctl : Bool) : (s.latchPulse ctl).engaged = s.engaged := rfl
@[simp] theorem State.latchPulse_pulseLatch (ctl : Bool) : (s.latchPulse ctl).pulseLatch = ctl := rfl
@[simp] theorem State.latchPulse_bitLatch (ctl : Bool) : (s.latchPulse ctl).bitLatch = s.bitLatch := rfl
@[simp] theorem State.latchPulse_tickAtLastAdvance (ctl : Bool) : (s.latchPulse ctl).tickAtLastAdvance = s.tickAtLastAdvance := rfl
@[simp] theorem State.latchPulse_speed (ctl : Bool) : (s.latchPulse ctl).speed = s.speed := rfl
@[simp] theorem State.latchPulse_ring (ctl : Bool) : (s.latchPulse ctl).ring = s.ring := rfl
@[simp] theorem State.latchPulse_ringCap (ctl : Bool) : (s.latchPulse ctl).ringCap = s.ringCap := rfl
@[simp] theorem State.latchPulse_wcur (ctl : Bool) : (s.latchPulse ctl).wcur = s.wcur := rfl
@[simp] theorem State.latchPulse_sampleRate (ctl : Bool) : (s.latchPulse ctl).sampleRate = s.sampleRate := rfl
@[simp] theorem State.latchPulse_volume (ctl : Bool) : (s.latchPulse ctl).volume = s.volume := rfl
@[simp] theorem State.latchPulse_psgPhase (ctl : Bool) : (s.latchPulse ctl).psgPhase = s.psgPhase := rfl
@[simp] theorem State.latchPulse_configured (ctl : Bool) : (s.latchPulse ctl).configured = s.configured := rfl
@[simp] theorem State.latchPulse_requests (ctl : Bool) : (s.latchPulse ctl).requests = s.requests := rfl
@[simp] theorem State.latchPulse_callback (ctl : Bool) : (s.latchPulse ctl).callback = s.callback := rfl
@[simp] theorem State.latchPulse_result (ctl : Bool) : (s.latchPulse ctl).result = s.result := rfl
@[simp] theorem State.latchPulse_event (ctl : Bool) : (s.latchPulse ctl).event = s.event := rfl
@[simp] theorem State.latchPulse_refusals (ctl : Bool) : (s.latchPulse ctl).refusals = s.refusals := rfl
@[simp] theorem State.latchPulse_draws (ctl : Bool) : (s.latchPulse ctl).draws = s.draws := rfl

/-! ### `State.configureMixer` -/

@[simp] theorem State.configureMixer_cfg (rate count : Option Nat) (vol : Option Rat) : (s.configureMixer rate count vol).cfg = s.cfg := rfl
@[simp] theorem State.configureMixer_tape (rate count : Option Nat) (vol : Option Rat) : (s.configureMixer rate count vol).tape = s.tape := rfl
@[simp] theorem State.configureMixer_length (rate count : Option Nat) (vol : Option Rat) : (s.configureMixer rate count vol).length = s.length := rfl
@[simp] theorem State.configureMixer_cursor (rate count : Option Nat) (vol : Option Rat) : (s.configureMixer rate count vol).cursor = s.cursor := rfl
@[simp] theorem State.configureMixer_cat (rate count : Option Nat) (vol : Option Rat) : (s.configureMixer rate count vol).cat = s.cat := rfl
@[simp] theorem State.configureMixer_engaged (rate count : Option Nat) (vol : Option Rat) : (s.configureMixer rate count vol).engaged = s.engaged := rfl
@[simp] theorem State.configureMixer_pulseLatch (rate count : Option Nat) (vol : Option Rat) : (s.configureMixer rate count vol).pulseLatch = s.pulseLatch := rfl
@[simp] theorem State.configureMixer_bitLatch (rate count : Option Nat) (vol : Option Rat) : (s.configureMixer rate count vol).bitLatch = s.bitLatch := rfl
@[simp] theorem State.configureMixer_tickAtLastAdvance (rate count : Option Nat) (vol : Option Rat) : (s.configureMixer rate count vol).tickAtLastAdvance = s.tickAtLastAdvance := rfl
@[simp] theorem State.configureMixer_speed (rate count : Option Nat) (vol : Option Rat) : (s.configureMixer rate count vol).speed = s.speed := rfl
@[simp] theorem State.configureMixer_ring (rate count : Option Nat) (vol : Option Rat) : (s.configureMixer rate count vol).ring = s.ring := rfl
@[simp] theorem State.configureMixer_ringCap (rate count : Option Nat) (vol : Option Rat) : (s.configureMixer rate count vol).ringCap = countOption count := rfl
@[simp] theorem State.configureMixer_wcur (rate count : Option Nat) (vol : Option Rat) : (s.configureMixer rate count vol).wcur = 0 := rfl
@[simp] theorem State.configureMixer_sampleRate (rate count : Option Nat) (vol : Option Rat) : (s.configureMixer rate count vol).sampleRate = rateOption rate := rfl
@[simp] theorem State.configureMixer_volume (rate count : Option Nat) (vol : Option Rat) : (s.configureMixer rate count vol).volume = volOption vol := rfl
@[simp] theorem State.configureMixer_psgPhase (rate count : Option Nat) (vol : Option Rat) : (s.configureMixer rate count vol).psgPhase = s.psgPhase := rfl
@[simp] theorem State.configureMixer_configured (rate count : Option Nat) (vol : Option Rat) : (s.configureMixer rate count vol).configured = true := rfl
@[simp] theorem State.configureMixer_requests (rate count : Option Nat) (vol : Option Rat) : (s.configureMixer rate count vol).requests = s.requests := rfl
@[simp] theorem State.configureMixer_callback (rate count : Option Nat) (vol : Option Rat) : (s.configureMixer rate count vol).callback = s.callback := rfl
@[simp] theorem State.configureMixer_result (rate count : Option Nat) (vol : Option Rat) : (s.configureMixer rate count vol).result = s.result := rfl
@[simp] theorem State.configureMixer_event (rate count : Option Nat) (vol : Option Rat) : (s.configureMixer rate count vol).event = s.event := rfl
@[simp] theorem State.configureMixer_refusals (rate count : Option Nat) (vol : Option Rat) : (s.configureMixer rate count vol).refusals = s.refusals := rfl
@[simp] theorem State.configureMixer_draws (rate count : Option Nat) (vol : Option Rat) : (s.configureMixer rate count vol).draws = s.draws := rfl

/-! ### `State.beginPulse` -/

@[simp] theorem State.beginPulse_cfg : s.beginPulse.cfg = s.cfg := rfl
@[simp] theorem State.beginPulse_tape : s.beginPulse.tape = s.tape := rfl
@[simp] theorem State.beginPulse_length : s.beginPulse.length = s.length := rfl
@[simp] theorem State.beginPulse_cursor : s.beginPulse.cursor = s.cursor := rfl
@[simp] theorem State.beginPulse_cat : s.beginPulse.cat = s.cat := rfl
@[simp] theorem State.beginPulse_engaged : s.beginPulse.engaged = s.engaged := rfl
@[simp] theorem State.beginPulse_pulseLatch : s.beginPulse.pulseLatch = s.pulseLatch := rfl
@[simp] theorem State.beginPulse_bitLatch : s.beginPulse.bitLatch = s.bitLatch := rfl
@[simp] theorem State.beginPulse_tickAtLastAdvance : s.beginPulse.tickAtLastAdvance = s.tickAtLastAdvance := rfl
@[simp] theorem State.beginPulse_speed : s.beginPulse.speed = s.speed := rfl
@[simp] theorem State.beginPulse_ring : s.beginPulse.ring = s.ring := rfl
@[simp] theorem State.beginPulse_ringCap : s.beginPulse.ringCap = s.ringCap := rfl
@[simp] theorem State.beginPulse_wcur : s.beginPulse.wcur = s.wcur := rfl
@[simp] theorem State.beginPulse_sampleRate : s.beginPulse.sampleRate = s.sampleRate := rfl
@[simp] theorem State.beginPulse_volume : s.beginPulse.volume = s.volume := rfl
@[simp] theorem State.beginPulse_psgPhase : s.beginPulse.psgPhase = s.psgPhase ^^^ 1 := rfl
@[simp] theorem State.beginPulse_configured : s.beginPulse.configured = true := rfl
@[simp] theorem State.beginPulse_requests : s.beginPulse.requests = s.requests := rfl
@[simp] theorem State.beginPulse_callback : s.beginPulse.callback = s.callback := rfl
@[simp] theorem State.beginPulse_result : s.beginPulse.result = s.result := rfl
@[simp] theorem State.beginPulse_event : s.beginPulse.event = s.event := rfl
@[simp] theorem State.beginPulse_refusals : s.beginPulse.refusals = s.refusals := rfl
@[simp] theorem State.beginPulse_draws : s.beginPulse.draws = s.draws := rfl

/-! ### `State.pushSample` -/

@[simp] theorem State.pushSample_cfg (v : SampleName) : (s.pushSample v).cfg = s.cfg := rfl
@[simp] theorem State.pushSample_tape (v : SampleName) : (s.pushSample v).tape = s.tape := rfl
@[simp] theorem State.pushSample_length (v : SampleName) : (s.pushSample v).length = s.length := rfl
@[simp] theorem State.pushSample_cursor (v : SampleName) : (s.pushSample v).cursor = s.cursor := rfl
@[simp] theorem State.pushSample_cat (v : SampleName) : (s.pushSample v).cat = s.cat := rfl
@[simp] theorem State.pushSample_engaged (v : SampleName) : (s.pushSample v).engaged = s.engaged := rfl
@[simp] theorem State.pushSample_pulseLatch (v : SampleName) : (s.pushSample v).pulseLatch = s.pulseLatch := rfl
@[simp] theorem State.pushSample_bitLatch (v : SampleName) : (s.pushSample v).bitLatch = s.bitLatch := rfl
@[simp] theorem State.pushSample_tickAtLastAdvance (v : SampleName) : (s.pushSample v).tickAtLastAdvance = s.tickAtLastAdvance := rfl
@[simp] theorem State.pushSample_speed (v : SampleName) : (s.pushSample v).speed = s.speed := rfl
@[simp] theorem State.pushSample_ring (v : SampleName) : (s.pushSample v).ring = s.ring.write s.wcur v := rfl
@[simp] theorem State.pushSample_ringCap (v : SampleName) : (s.pushSample v).ringCap = s.ringCap := rfl
@[simp] theorem State.pushSample_wcur (v : SampleName) : (s.pushSample v).wcur = s.wcur + 1 := rfl
@[simp] theorem State.pushSample_sampleRate (v : SampleName) : (s.pushSample v).sampleRate = s.sampleRate := rfl
@[simp] theorem State.pushSample_volume (v : SampleName) : (s.pushSample v).volume = s.volume := rfl
@[simp] theorem State.pushSample_psgPhase (v : SampleName) : (s.pushSample v).psgPhase = s.psgPhase := rfl
@[simp] theorem State.pushSample_configured (v : SampleName) : (s.pushSample v).configured = s.configured := rfl
@[simp] theorem State.pushSample_requests (v : SampleName) : (s.pushSample v).requests = s.requests := rfl
@[simp] theorem State.pushSample_callback (v : SampleName) : (s.pushSample v).callback = s.callback := rfl
@[simp] theorem State.pushSample_result (v : SampleName) : (s.pushSample v).result = s.result := rfl
@[simp] theorem State.pushSample_event (v : SampleName) : (s.pushSample v).event = s.event := rfl
@[simp] theorem State.pushSample_refusals (v : SampleName) : (s.pushSample v).refusals = s.refusals := rfl
@[simp] theorem State.pushSample_draws (v : SampleName) : (s.pushSample v).draws = s.draws := rfl

/-! ### `State.returnSamplesReady` -/

@[simp] theorem State.returnSamplesReady_cfg : s.returnSamplesReady.cfg = s.cfg := rfl
@[simp] theorem State.returnSamplesReady_tape : s.returnSamplesReady.tape = s.tape := rfl
@[simp] theorem State.returnSamplesReady_length : s.returnSamplesReady.length = s.length := rfl
@[simp] theorem State.returnSamplesReady_cursor : s.returnSamplesReady.cursor = s.cursor := rfl
@[simp] theorem State.returnSamplesReady_cat : s.returnSamplesReady.cat = s.cat := rfl
@[simp] theorem State.returnSamplesReady_engaged : s.returnSamplesReady.engaged = s.engaged := rfl
@[simp] theorem State.returnSamplesReady_pulseLatch : s.returnSamplesReady.pulseLatch = s.pulseLatch := rfl
@[simp] theorem State.returnSamplesReady_bitLatch : s.returnSamplesReady.bitLatch = s.bitLatch := rfl
@[simp] theorem State.returnSamplesReady_tickAtLastAdvance : s.returnSamplesReady.tickAtLastAdvance = s.tickAtLastAdvance := rfl
@[simp] theorem State.returnSamplesReady_speed : s.returnSamplesReady.speed = s.speed := rfl
@[simp] theorem State.returnSamplesReady_ring : s.returnSamplesReady.ring = s.ring := rfl
@[simp] theorem State.returnSamplesReady_ringCap : s.returnSamplesReady.ringCap = s.ringCap := rfl
@[simp] theorem State.returnSamplesReady_wcur : s.returnSamplesReady.wcur = 0 := rfl
@[simp] theorem State.returnSamplesReady_sampleRate : s.returnSamplesReady.sampleRate = s.sampleRate := rfl
@[simp] theorem State.returnSamplesReady_volume : s.returnSamplesReady.volume = s.volume := rfl
@[simp] theorem State.returnSamplesReady_psgPhase : s.returnSamplesReady.psgPhase = s.psgPhase := rfl
@[simp] theorem State.returnSamplesReady_configured : s.returnSamplesReady.configured = s.configured := rfl
@[simp] theorem State.returnSamplesReady_requests : s.returnSamplesReady.requests = s.requests := rfl
@[simp] theorem State.returnSamplesReady_callback : s.returnSamplesReady.callback = s.callback := rfl
@[simp] theorem State.returnSamplesReady_result : s.returnSamplesReady.result = s.result := rfl
@[simp] theorem State.returnSamplesReady_event : s.returnSamplesReady.event = s.event := rfl
@[simp] theorem State.returnSamplesReady_refusals : s.returnSamplesReady.refusals = s.refusals := rfl
@[simp] theorem State.returnSamplesReady_draws : s.returnSamplesReady.draws = s.draws := rfl

/-! ### `State.answer` -/

@[simp] theorem State.answer_cfg (r : Result) : (s.answer r).cfg = s.cfg := rfl
@[simp] theorem State.answer_tape (r : Result) : (s.answer r).tape = s.tape := rfl
@[simp] theorem State.answer_length (r : Result) : (s.answer r).length = s.length := rfl
@[simp] theorem State.answer_cursor (r : Result) : (s.answer r).cursor = s.cursor := rfl
@[simp] theorem State.answer_cat (r : Result) : (s.answer r).cat = s.cat := rfl
@[simp] theorem State.answer_engaged (r : Result) : (s.answer r).engaged = s.engaged := rfl
@[simp] theorem State.answer_pulseLatch (r : Result) : (s.answer r).pulseLatch = s.pulseLatch := rfl
@[simp] theorem State.answer_bitLatch (r : Result) : (s.answer r).bitLatch = s.bitLatch := rfl
@[simp] theorem State.answer_tickAtLastAdvance (r : Result) : (s.answer r).tickAtLastAdvance = s.tickAtLastAdvance := rfl
@[simp] theorem State.answer_speed (r : Result) : (s.answer r).speed = s.speed := rfl
@[simp] theorem State.answer_ring (r : Result) : (s.answer r).ring = s.ring := rfl
@[simp] theorem State.answer_ringCap (r : Result) : (s.answer r).ringCap = s.ringCap := rfl
@[simp] theorem State.answer_wcur (r : Result) : (s.answer r).wcur = s.wcur := rfl
@[simp] theorem State.answer_sampleRate (r : Result) : (s.answer r).sampleRate = s.sampleRate := rfl
@[simp] theorem State.answer_volume (r : Result) : (s.answer r).volume = s.volume := rfl
@[simp] theorem State.answer_psgPhase (r : Result) : (s.answer r).psgPhase = s.psgPhase := rfl
@[simp] theorem State.answer_configured (r : Result) : (s.answer r).configured = s.configured := rfl
@[simp] theorem State.answer_requests (r : Result) : (s.answer r).requests = s.requests := rfl
@[simp] theorem State.answer_callback (r : Result) : (s.answer r).callback = s.callback := rfl
@[simp] theorem State.answer_result (r : Result) : (s.answer r).result = r := rfl
@[simp] theorem State.answer_event (r : Result) : (s.answer r).event = none := rfl
@[simp] theorem State.answer_refusals (r : Result) : (s.answer r).refusals = s.refusals := rfl
@[simp] theorem State.answer_draws (r : Result) : (s.answer r).draws = s.draws := rfl

/-! ### `State.answerEvent` -/

@[simp] theorem State.answerEvent_cfg (r : Result) (e : SamplesEvent) : (s.answerEvent r e).cfg = s.cfg := rfl
@[simp] theorem State.answerEvent_tape (r : Result) (e : SamplesEvent) : (s.answerEvent r e).tape = s.tape := rfl
@[simp] theorem State.answerEvent_length (r : Result) (e : SamplesEvent) : (s.answerEvent r e).length = s.length := rfl
@[simp] theorem State.answerEvent_cursor (r : Result) (e : SamplesEvent) : (s.answerEvent r e).cursor = s.cursor := rfl
@[simp] theorem State.answerEvent_cat (r : Result) (e : SamplesEvent) : (s.answerEvent r e).cat = s.cat := rfl
@[simp] theorem State.answerEvent_engaged (r : Result) (e : SamplesEvent) : (s.answerEvent r e).engaged = s.engaged := rfl
@[simp] theorem State.answerEvent_pulseLatch (r : Result) (e : SamplesEvent) : (s.answerEvent r e).pulseLatch = s.pulseLatch := rfl
@[simp] theorem State.answerEvent_bitLatch (r : Result) (e : SamplesEvent) : (s.answerEvent r e).bitLatch = s.bitLatch := rfl
@[simp] theorem State.answerEvent_tickAtLastAdvance (r : Result) (e : SamplesEvent) : (s.answerEvent r e).tickAtLastAdvance = s.tickAtLastAdvance := rfl
@[simp] theorem State.answerEvent_speed (r : Result) (e : SamplesEvent) : (s.answerEvent r e).speed = s.speed := rfl
@[simp] theorem State.answerEvent_ring (r : Result) (e : SamplesEvent) : (s.answerEvent r e).ring = s.ring := rfl
@[simp] theorem State.answerEvent_ringCap (r : Result) (e : SamplesEvent) : (s.answerEvent r e).ringCap = s.ringCap := rfl
@[simp] theorem State.answerEvent_wcur (r : Result) (e : SamplesEvent) : (s.answerEvent r e).wcur = s.wcur := rfl
@[simp] theorem State.answerEvent_sampleRate (r : Result) (e : SamplesEvent) : (s.answerEvent r e).sampleRate = s.sampleRate := rfl
@[simp] theorem State.answerEvent_volume (r : Result) (e : SamplesEvent) : (s.answerEvent r e).volume = s.volume := rfl
@[simp] theorem State.answerEvent_psgPhase (r : Result) (e : SamplesEvent) : (s.answerEvent r e).psgPhase = s.psgPhase := rfl
@[simp] theorem State.answerEvent_configured (r : Result) (e : SamplesEvent) : (s.answerEvent r e).configured = s.configured := rfl
@[simp] theorem State.answerEvent_requests (r : Result) (e : SamplesEvent) : (s.answerEvent r e).requests = s.requests := rfl
@[simp] theorem State.answerEvent_callback (r : Result) (e : SamplesEvent) : (s.answerEvent r e).callback = s.callback := rfl
@[simp] theorem State.answerEvent_result (r : Result) (e : SamplesEvent) : (s.answerEvent r e).result = r := rfl
@[simp] theorem State.answerEvent_event (r : Result) (e : SamplesEvent) : (s.answerEvent r e).event = some e := rfl
@[simp] theorem State.answerEvent_refusals (r : Result) (e : SamplesEvent) : (s.answerEvent r e).refusals = s.refusals := rfl
@[simp] theorem State.answerEvent_draws (r : Result) (e : SamplesEvent) : (s.answerEvent r e).draws = s.draws := rfl

/-! ### `State.hostTurn` -/

@[simp] theorem State.hostTurn_cfg : s.hostTurn.cfg = s.cfg := rfl
@[simp] theorem State.hostTurn_tape : s.hostTurn.tape = s.tape := rfl
@[simp] theorem State.hostTurn_length : s.hostTurn.length = s.length := rfl
@[simp] theorem State.hostTurn_cursor : s.hostTurn.cursor = s.cursor := rfl
@[simp] theorem State.hostTurn_cat : s.hostTurn.cat = s.cat := rfl
@[simp] theorem State.hostTurn_engaged : s.hostTurn.engaged = s.engaged := rfl
@[simp] theorem State.hostTurn_pulseLatch : s.hostTurn.pulseLatch = s.pulseLatch := rfl
@[simp] theorem State.hostTurn_bitLatch : s.hostTurn.bitLatch = s.bitLatch := rfl
@[simp] theorem State.hostTurn_tickAtLastAdvance : s.hostTurn.tickAtLastAdvance = s.tickAtLastAdvance := rfl
@[simp] theorem State.hostTurn_speed : s.hostTurn.speed = s.speed := rfl
@[simp] theorem State.hostTurn_ring : s.hostTurn.ring = s.ring := rfl
@[simp] theorem State.hostTurn_ringCap : s.hostTurn.ringCap = s.ringCap := rfl
@[simp] theorem State.hostTurn_wcur : s.hostTurn.wcur = s.wcur := rfl
@[simp] theorem State.hostTurn_sampleRate : s.hostTurn.sampleRate = s.sampleRate := rfl
@[simp] theorem State.hostTurn_volume : s.hostTurn.volume = s.volume := rfl
@[simp] theorem State.hostTurn_psgPhase : s.hostTurn.psgPhase = s.psgPhase := rfl
@[simp] theorem State.hostTurn_configured : s.hostTurn.configured = s.configured := rfl
@[simp] theorem State.hostTurn_requests : s.hostTurn.requests = s.requests := rfl
@[simp] theorem State.hostTurn_callback : s.hostTurn.callback = s.callback.tail := rfl
@[simp] theorem State.hostTurn_result : s.hostTurn.result = s.result := rfl
@[simp] theorem State.hostTurn_event : s.hostTurn.event = s.event := rfl
@[simp] theorem State.hostTurn_refusals : s.hostTurn.refusals = s.refusals ++ (s.callback.headD []).map fun _ => .reentry := rfl
@[simp] theorem State.hostTurn_draws : s.hostTurn.draws = s.draws := rfl

/-! ### `State.refuse` -/

@[simp] theorem State.refuse_cfg (r : RefusalReason) : (s.refuse r).cfg = s.cfg := rfl
@[simp] theorem State.refuse_tape (r : RefusalReason) : (s.refuse r).tape = s.tape := rfl
@[simp] theorem State.refuse_length (r : RefusalReason) : (s.refuse r).length = s.length := rfl
@[simp] theorem State.refuse_cursor (r : RefusalReason) : (s.refuse r).cursor = s.cursor := rfl
@[simp] theorem State.refuse_cat (r : RefusalReason) : (s.refuse r).cat = s.cat := rfl
@[simp] theorem State.refuse_engaged (r : RefusalReason) : (s.refuse r).engaged = s.engaged := rfl
@[simp] theorem State.refuse_pulseLatch (r : RefusalReason) : (s.refuse r).pulseLatch = s.pulseLatch := rfl
@[simp] theorem State.refuse_bitLatch (r : RefusalReason) : (s.refuse r).bitLatch = s.bitLatch := rfl
@[simp] theorem State.refuse_tickAtLastAdvance (r : RefusalReason) : (s.refuse r).tickAtLastAdvance = s.tickAtLastAdvance := rfl
@[simp] theorem State.refuse_speed (r : RefusalReason) : (s.refuse r).speed = s.speed := rfl
@[simp] theorem State.refuse_ring (r : RefusalReason) : (s.refuse r).ring = s.ring := rfl
@[simp] theorem State.refuse_ringCap (r : RefusalReason) : (s.refuse r).ringCap = s.ringCap := rfl
@[simp] theorem State.refuse_wcur (r : RefusalReason) : (s.refuse r).wcur = s.wcur := rfl
@[simp] theorem State.refuse_sampleRate (r : RefusalReason) : (s.refuse r).sampleRate = s.sampleRate := rfl
@[simp] theorem State.refuse_volume (r : RefusalReason) : (s.refuse r).volume = s.volume := rfl
@[simp] theorem State.refuse_psgPhase (r : RefusalReason) : (s.refuse r).psgPhase = s.psgPhase := rfl
@[simp] theorem State.refuse_configured (r : RefusalReason) : (s.refuse r).configured = s.configured := rfl
@[simp] theorem State.refuse_requests (r : RefusalReason) : (s.refuse r).requests = s.requests := rfl
@[simp] theorem State.refuse_callback (r : RefusalReason) : (s.refuse r).callback = s.callback := rfl
@[simp] theorem State.refuse_result (r : RefusalReason) : (s.refuse r).result = .none := rfl
@[simp] theorem State.refuse_event (r : RefusalReason) : (s.refuse r).event = none := rfl
@[simp] theorem State.refuse_refusals (r : RefusalReason) : (s.refuse r).refusals = s.refusals ++ [r] := rfl
@[simp] theorem State.refuse_draws (r : RefusalReason) : (s.refuse r).draws = s.draws := rfl

/-! ### `State.present` -/

@[simp] theorem State.present_cfg (r : Request) : (s.present r).cfg = s.cfg := rfl
@[simp] theorem State.present_tape (r : Request) : (s.present r).tape = s.tape := rfl
@[simp] theorem State.present_length (r : Request) : (s.present r).length = s.length := rfl
@[simp] theorem State.present_cursor (r : Request) : (s.present r).cursor = s.cursor := rfl
@[simp] theorem State.present_cat (r : Request) : (s.present r).cat = s.cat := rfl
@[simp] theorem State.present_engaged (r : Request) : (s.present r).engaged = s.engaged := rfl
@[simp] theorem State.present_pulseLatch (r : Request) : (s.present r).pulseLatch = s.pulseLatch := rfl
@[simp] theorem State.present_bitLatch (r : Request) : (s.present r).bitLatch = s.bitLatch := rfl
@[simp] theorem State.present_tickAtLastAdvance (r : Request) : (s.present r).tickAtLastAdvance = s.tickAtLastAdvance := rfl
@[simp] theorem State.present_speed (r : Request) : (s.present r).speed = s.speed := rfl
@[simp] theorem State.present_ring (r : Request) : (s.present r).ring = s.ring := rfl
@[simp] theorem State.present_ringCap (r : Request) : (s.present r).ringCap = s.ringCap := rfl
@[simp] theorem State.present_wcur (r : Request) : (s.present r).wcur = s.wcur := rfl
@[simp] theorem State.present_sampleRate (r : Request) : (s.present r).sampleRate = s.sampleRate := rfl
@[simp] theorem State.present_volume (r : Request) : (s.present r).volume = s.volume := rfl
@[simp] theorem State.present_psgPhase (r : Request) : (s.present r).psgPhase = s.psgPhase := rfl
@[simp] theorem State.present_configured (r : Request) : (s.present r).configured = s.configured := rfl
@[simp] theorem State.present_requests (r : Request) : (s.present r).requests = r :: s.requests := rfl
@[simp] theorem State.present_callback (r : Request) : (s.present r).callback = s.callback := rfl
@[simp] theorem State.present_result (r : Request) : (s.present r).result = s.result := rfl
@[simp] theorem State.present_event (r : Request) : (s.present r).event = s.event := rfl
@[simp] theorem State.present_refusals (r : Request) : (s.present r).refusals = s.refusals := rfl
@[simp] theorem State.present_draws (r : Request) : (s.present r).draws = s.draws := rfl

/-! ### `State.enqueue` -/

@[simp] theorem State.enqueue_cfg (is : List Instr) : (s.enqueue is).cfg = s.cfg := rfl
@[simp] theorem State.enqueue_tape (is : List Instr) : (s.enqueue is).tape = s.tape := rfl
@[simp] theorem State.enqueue_length (is : List Instr) : (s.enqueue is).length = s.length := rfl
@[simp] theorem State.enqueue_cursor (is : List Instr) : (s.enqueue is).cursor = s.cursor := rfl
@[simp] theorem State.enqueue_cat (is : List Instr) : (s.enqueue is).cat = s.cat := rfl
@[simp] theorem State.enqueue_engaged (is : List Instr) : (s.enqueue is).engaged = s.engaged := rfl
@[simp] theorem State.enqueue_pulseLatch (is : List Instr) : (s.enqueue is).pulseLatch = s.pulseLatch := rfl
@[simp] theorem State.enqueue_bitLatch (is : List Instr) : (s.enqueue is).bitLatch = s.bitLatch := rfl
@[simp] theorem State.enqueue_tickAtLastAdvance (is : List Instr) : (s.enqueue is).tickAtLastAdvance = s.tickAtLastAdvance := rfl
@[simp] theorem State.enqueue_speed (is : List Instr) : (s.enqueue is).speed = s.speed := rfl
@[simp] theorem State.enqueue_ring (is : List Instr) : (s.enqueue is).ring = s.ring := rfl
@[simp] theorem State.enqueue_ringCap (is : List Instr) : (s.enqueue is).ringCap = s.ringCap := rfl
@[simp] theorem State.enqueue_wcur (is : List Instr) : (s.enqueue is).wcur = s.wcur := rfl
@[simp] theorem State.enqueue_sampleRate (is : List Instr) : (s.enqueue is).sampleRate = s.sampleRate := rfl
@[simp] theorem State.enqueue_volume (is : List Instr) : (s.enqueue is).volume = s.volume := rfl
@[simp] theorem State.enqueue_psgPhase (is : List Instr) : (s.enqueue is).psgPhase = s.psgPhase := rfl
@[simp] theorem State.enqueue_configured (is : List Instr) : (s.enqueue is).configured = s.configured := rfl
@[simp] theorem State.enqueue_requests (is : List Instr) : (s.enqueue is).requests = s.requests ++ is.map encode := rfl
@[simp] theorem State.enqueue_callback (is : List Instr) : (s.enqueue is).callback = s.callback := rfl
@[simp] theorem State.enqueue_result (is : List Instr) : (s.enqueue is).result = s.result := rfl
@[simp] theorem State.enqueue_event (is : List Instr) : (s.enqueue is).event = s.event := rfl
@[simp] theorem State.enqueue_refusals (is : List Instr) : (s.enqueue is).refusals = s.refusals := rfl
@[simp] theorem State.enqueue_draws (is : List Instr) : (s.enqueue is).draws = s.draws := rfl

/-! ### Updates that go through a pair -/

theorem State.fillCatalog_eq : s.fillCatalog = s.withCatalog s.scanAll.1 s.scanAll.2 := rfl

theorem State.enterSamplesReady_eq :
    s.enterSamplesReady =
      ({ samples := (slotSamples (s.ring.readRun 0 s.ringCap) s.draws).1, count := s.ringCap },
       { s with draws := (slotSamples (s.ring.readRun 0 s.ringCap) s.draws).2 }) := rfl

/-! ### A motor-control write, case by case (R145 to R147) -/

theorem State.motorWrite_clear (tick : Nat) : s.motorWrite false tick = s.latchPulse false := rfl

theorem State.motorWrite_held (tick : Nat) (h : s.pulseLatch = true) : s.motorWrite true tick = s.latchPulse true := by
  simp [State.motorWrite, State.pulse, h]

theorem State.motorWrite_start (tick : Nat) (h : s.pulseLatch = false) (he : s.engaged = false) :
    s.motorWrite true tick = (s.engage tick).latchPulse true := by
  simp [State.motorWrite, State.pulse, State.togglePulse, h, he]

theorem State.motorWrite_stop (tick : Nat) (h : s.pulseLatch = false) (he : s.engaged = true) :
    s.motorWrite true tick = s.disengage.latchPulse true := by
  simp [State.motorWrite, State.pulse, State.togglePulse, h, he]

/-- The four things a motor-control write can do. -/
theorem State.motorWrite_cases (ctl : Bool) (tick : Nat) :
    s.motorWrite ctl tick = s.latchPulse ctl ∨
    (s.engaged = false ∧ s.motorWrite ctl tick = (s.engage tick).latchPulse ctl) ∨
    (s.engaged = true ∧ s.motorWrite ctl tick = s.disengage.latchPulse ctl) := by
  cases ctl with
  | false => exact .inl rfl
  | true =>
    cases h : s.pulseLatch with
    | true => exact .inl (s.motorWrite_held tick h)
    | false =>
      cases he : s.engaged with
      | false => exact .inr (.inl ⟨rfl, s.motorWrite_start tick h he⟩)
      | true => exact .inr (.inr ⟨rfl, s.motorWrite_stop tick h he⟩)

end Sys2Proof.Machine
end

