-- ==== Sys2Proof/Laws/Scan.lean ====
section
/-! SUPPORT. What the header scan and the field decode can do: where a pass can end, what it then has seen, what a
name looks like, which entries a scan makes. -/

namespace Sys2Proof.Machine

/-! ### Cells, symbols, draws -/

@[simp] theorem cellByte_some (b : Byte) (d : Nat) : cellByte (some b) d = (b, d) := rfl

@[simp] theorem cellByte_none (d : Nat) : cellByte none d = (Config.freeByte d, d + 1) := rfl

theorem State.sym_of_read {s : State} {i : Nat} {b : Byte} (hi : i < s.length) (hb : s.tape.read i = some b) (d : Nat) :
    s.sym d i = (bitOfSymbol b, d) := by simp [State.sym, hi, State.memRead, hb]

theorem State.sym_of_length_le {s : State} {i : Nat} (hi : s.length ≤ i) (d : Nat) :
    s.sym d i = (Config.freeBit d, d + 1) := by simp [State.sym, Nat.not_lt.2 hi]

/-! ### One pass -/

theorem passFrom_nil (policy : ScanBreakPolicy) (k o h d : Nat) : passFrom policy [] k o h d = (none, d) := rfl

theorem passFrom_cons (policy : ScanBreakPolicy) (c : Option Byte) (cs : List (Option Byte)) (k o h d : Nat) :
    passFrom policy (c :: cs) k o h d =
      if (cellByte c d).1 = symOne then
        if 0 < h then
          passFrom policy cs (k + 1) (breakOnOne policy o h).1 (breakOnOne policy o h).2 (cellByte c d).2
        else passFrom policy cs (k + 1) (o + 1) h (cellByte c d).2
      else if 40 ≤ o then
        if 40 ≤ h + 1 then (some (k - 79), (cellByte c d).2)
        else passFrom policy cs (k + 1) o (h + 1) (cellByte c d).2
      else passFrom policy cs (k + 1) 0 0 (cellByte c d).2 := rfl

theorem breakOnOne_le (policy : ScanBreakPolicy) (o h : Nat) :
    (breakOnOne policy o h).1 + (breakOnOne policy o h).2 ≤ o + h + 1 := by
  cases policy <;> simp only [breakOnOne] <;> omega

/-- Where a pass from `p` can end (R104): at a header start at or after `p`, all 80 symbols being valid. -/
theorem passFrom_bounds (policy : ScanBreakPolicy) {p : Nat} (cs : List (Option Byte)) {k o h d a d' : Nat}
    (hk : p + o + h ≤ k) (hr : passFrom policy cs k o h d = (some a, d')) :
    p ≤ a ∧ a + 79 < k + cs.length := by
  induction cs generalizing k o h d with
  | nil => simp [passFrom_nil] at hr
  | cons c cs ih =>
    have hle := breakOnOne_le policy o h
    rw [passFrom_cons] at hr
    simp only [List.length_cons]
    split at hr
    · split at hr
      · have := ih (by omega) hr; omega
      · have := ih (by omega) hr; omega
    · split at hr
      · split at hr
        · simp only [Prod.mk.injEq, Option.some.injEq] at hr; omega
        · have := ih (by omega) hr; omega
      · have := ih (by omega) hr; omega

/-- The list of cells holds bytes, `'1'` exactly where `g` says so. -/
def cellsMatch (g : Nat → Prop) (k : Nat) (cs : List (Option Byte)) : Prop :=
  ∀ j < cs.length, ∃ b, cs[j]? = some (some b) ∧ (b = symOne ↔ g (k + j))

theorem cellsMatch_cons {g : Nat → Prop} {k : Nat} {c : Option Byte} {cs : List (Option Byte)}
    (h : cellsMatch g k (c :: cs)) : (∃ b, c = some b ∧ (b = symOne ↔ g k)) ∧ cellsMatch g (k + 1) cs := by
  constructor
  · obtain ⟨b, hb, hg⟩ := h 0 (by simp)
    exact ⟨b, by simpa using hb, hg⟩
  · intro j hj
    obtain ⟨b, hb, hg⟩ := h (j + 1) (by simpa using hj)
    refine ⟨b, by simpa using hb, ?_⟩
    rw [hg, show k + (j + 1) = k + 1 + j by omega]

/-- The counters of a pass at index `k` count what stands before `k`: `o` ones, then `h` others. -/
structure CountersAt (g : Nat → Prop) (k o h : Nat) : Prop where
  room : o + h ≤ k
  short : h < 40
  ones : ∀ j, k - h - o ≤ j → j < k - h → g j
  others : ∀ j, k - h ≤ j → j < k → ¬ g j
  leader : 0 < h → 40 ≤ o

theorem CountersAt.start (g : Nat → Prop) (k : Nat) : CountersAt g k 0 0 :=
  ⟨by omega, by omega, fun j h1 h2 => by omega, fun j h1 h2 => by omega, fun h => by omega⟩

theorem CountersAt.one {g : Nat → Prop} {k o : Nat} (hc : CountersAt g k o 0) (hg : g k) : CountersAt g (k + 1) (o + 1) 0 := by
  refine ⟨by have := hc.room; omega, by omega, fun j h1 h2 => ?_, fun j h1 h2 => by omega, fun h => by omega⟩
  rcases Nat.lt_or_ge j k with h | h
  · exact hc.ones j (by omega) (by omega)
  · obtain rfl : j = k := by omega
    exact hg

theorem CountersAt.other {g : Nat → Prop} {k o h : Nat} (hc : CountersAt g k o h) (ho : 40 ≤ o) (hh : h + 1 < 40)
    (hg : ¬ g k) : CountersAt g (k + 1) o (h + 1) := by
  have := hc.room
  refine ⟨by omega, hh, fun j h1 h2 => hc.ones j (by omega) (by omega), fun j h1 h2 => ?_, fun _ => ho⟩
  rcases Nat.lt_or_ge j k with h' | h'
  · exact hc.others j (by omega) (by omega)
  · obtain rfl : j = k := by omega
    exact hg

theorem CountersAt.break {g : Nat → Prop} {k o h : Nat} {policy : ScanBreakPolicy} (hp : policy ≠ .ignore) (hg : g k) :
    CountersAt g (k + 1) (breakOnOne policy o h).1 (breakOnOne policy o h).2 := by
  cases policy with
  | resetCount => simpa [breakOnOne] using (CountersAt.start g k).one hg
  | resetNocount => exact CountersAt.start g (k + 1)
  | ignore => exact absurd rfl hp

/-- A header found is a header pattern (R104), for the policies that reset (R103). -/
theorem passFrom_sound {policy : ScanBreakPolicy} (hp : policy ≠ .ignore) {g : Nat → Prop} (cs : List (Option Byte))
    {k o h d a d' : Nat} (hm : cellsMatch g k cs) (hc : CountersAt g k o h)
    (hr : passFrom policy cs k o h d = (some a, d')) :
    (∀ j < 40, g (a + j)) ∧ ∀ j < 40, ¬ g (a + 40 + j) := by
  induction cs generalizing k o h d with
  | nil => simp [passFrom_nil] at hr
  | cons c cs ih =>
    obtain ⟨⟨b, rfl, hb⟩, hm'⟩ := cellsMatch_cons hm
    rw [passFrom_cons, cellByte_some] at hr
    by_cases hg : g k
    · rw [if_pos (hb.2 hg)] at hr
      split at hr
      · exact ih hm' (CountersAt.break hp hg) hr
      · obtain rfl : h = 0 := by omega
        exact ih hm' (hc.one hg) hr
    · rw [if_neg (hb.not.2 hg)] at hr
      split at hr
      · rename_i ho
        split at hr
        · have := hc.room
          have := hc.short
          simp only [Prod.mk.injEq, Option.some.injEq] at hr
          refine ⟨fun j hj => hc.ones _ (by omega) (by omega), fun j hj => ?_⟩
          rcases Nat.lt_or_ge (a + 40 + j) k with hlt | hge
          · exact hc.others _ (by omega) hlt
          · rwa [show a + 40 + j = k by omega]
        · exact ih hm' (hc.other ho (by omega) hg) hr
      · exact ih hm' (CountersAt.start g (k + 1)) hr

/-- Under the default policy a pass does not miss a pattern that lies ahead of it: it ends there or before. -/
theorem passFrom_complete {g : Nat → Prop} (cs : List (Option Byte)) {k o h d a : Nat} (hm : cellsMatch g k cs)
    (hend : a + 79 < k + cs.length) (hones : ∀ j < 40, g (a + j)) (hothers : ∀ j < 40, ¬ g (a + 40 + j))
    (hpos : k ≤ a ∧ h < 40 ∨ a < k ∧ k ≤ a + 40 ∧ h = 0 ∧ k ≤ a + o ∨ a + 40 ≤ k ∧ k ≤ a + 79 ∧ 40 ≤ o ∧ h + 40 + a = k) :
    ∃ a' ≤ a, (passFrom .resetCount cs k o h d).1 = some a' := by
  induction cs generalizing k o h d with
  | nil => simp only [List.length_nil] at hend; omega
  | cons c cs ih =>
    obtain ⟨⟨b, rfl, hb⟩, hm'⟩ := cellsMatch_cons hm
    simp only [List.length_cons] at hend
    rw [passFrom_cons, cellByte_some]
    by_cases hg : g k
    · rw [if_pos (hb.2 hg)]
      have hk : k < a + 40 := by
        by_contra hge
        exact hothers (k - (a + 40)) (by omega) (by rwa [show a + 40 + (k - (a + 40)) = k by omega])
      split
      · exact ih hm' (by omega) (by show k + 1 ≤ a ∧ 0 < 40 ∨ a < k + 1 ∧ k + 1 ≤ a + 40 ∧ 0 = 0 ∧ k + 1 ≤ a + 1 ∨ _; omega)
      · exact ih hm' (by omega) (by omega)
    · rw [if_neg (hb.not.2 hg)]
      have hk : k < a ∨ a + 40 ≤ k := by
        by_contra hge
        exact hg (by simpa [show a + (k - a) = k by omega] using hones (k - a) (by omega))
      split
      · split
        · exact ⟨k - 79, by omega, rfl⟩
        · exact ih hm' (by omega) (by omega)
      · exact ih hm' (by omega) (by omega)

/-- A pass over bytes that have been written makes no draw. -/
theorem passFrom_draws {policy : ScanBreakPolicy} {g : Nat → Prop} (cs : List (Option Byte)) {k o h d : Nat}
    (hm : cellsMatch g k cs) : (passFrom policy cs k o h d).2 = d := by
  induction cs generalizing k o h with
  | nil => rfl
  | cons c cs ih =>
    obtain ⟨⟨b, rfl, -⟩, hm'⟩ := cellsMatch_cons hm
    rw [passFrom_cons, cellByte_some]
    split
    · split <;> exact ih hm'
    · split
      · split
        · rfl
        · exact ih hm'
      · exact ih hm'

/-! ### Runs of symbols -/

theorem passFrom_ones {policy : ScanBreakPolicy} {cs : List (Option Byte)} (hcs : ∀ c ∈ cs, c = some symOne)
    (rest : List (Option Byte)) (k o d : Nat) :
    passFrom policy (cs ++ rest) k o 0 d = passFrom policy rest (k + cs.length) (o + cs.length) 0 d := by
  induction cs generalizing k o with
  | nil => rfl
  | cons c cs ih =>
    obtain ⟨rfl, hrest⟩ := List.forall_mem_cons.1 hcs
    simp only [List.cons_append, passFrom_cons, cellByte_some, if_true, Nat.lt_irrefl, if_false, ih hrest, List.length_cons]
    rw [show k + 1 + cs.length = k + (cs.length + 1) by omega, show o + 1 + cs.length = o + (cs.length + 1) by omega]

/-- Under `ignore` the ones inside a boundary run leave it as it is (R103). -/
theorem passFrom_ignored_ones {cs : List (Option Byte)} (hcs : ∀ c ∈ cs, c = some symOne)
    (rest : List (Option Byte)) (k o d : Nat) {h : Nat} (hh : 0 < h) :
    passFrom .ignore (cs ++ rest) k o h d = passFrom .ignore rest (k + cs.length) (o + cs.length) h d := by
  induction cs generalizing k o with
  | nil => rfl
  | cons c cs ih =>
    obtain ⟨rfl, hrest⟩ := List.forall_mem_cons.1 hcs
    simp only [List.cons_append, passFrom_cons, cellByte_some, if_true, if_pos hh, breakOnOne, ih hrest, List.length_cons]
    rw [show k + 1 + cs.length = k + (cs.length + 1) by omega, show o + 1 + cs.length = o + (cs.length + 1) by omega]

/-- A boundary run that the pass does not see completed. -/
theorem passFrom_others_short {policy : ScanBreakPolicy} {cs : List (Option Byte)}
    (hcs : ∀ c ∈ cs, ∃ b, c = some b ∧ b ≠ symOne) (rest : List (Option Byte)) (k d : Nat) {o h : Nat} (ho : 40 ≤ o)
    (hh : h + cs.length < 40) :
    passFrom policy (cs ++ rest) k o h d = passFrom policy rest (k + cs.length) o (h + cs.length) d := by
  induction cs generalizing k h with
  | nil => rfl
  | cons c cs ih =>
    obtain ⟨⟨b, rfl, hb⟩, hrest⟩ := List.forall_mem_cons.1 hcs
    rw [List.length_cons] at hh
    rw [List.cons_append, passFrom_cons, cellByte_some, if_neg hb, if_pos ho, if_neg (by omega), ih hrest _ (by omega),
      List.length_cons, show k + 1 + cs.length = k + (cs.length + 1) by omega,
      show h + 1 + cs.length = h + (cs.length + 1) by omega]

/-- A boundary run that reaches its 40th symbol declares the header (R104). -/
theorem passFrom_others_enough {policy : ScanBreakPolicy} {cs : List (Option Byte)}
    (hcs : ∀ c ∈ cs, ∃ b, c = some b ∧ b ≠ symOne) (k d : Nat) {o h : Nat} (ho : 40 ≤ o) (hh : h < 40)
    (hlen : 40 ≤ h + cs.length) : (passFrom policy cs k o h d).1 = some (k + (39 - h) - 79) := by
  induction cs generalizing k h with
  | nil => simp only [List.length_nil] at hlen; omega
  | cons c cs ih =>
    obtain ⟨⟨b, rfl, hb⟩, hrest⟩ := List.forall_mem_cons.1 hcs
    rw [List.length_cons] at hlen
    rw [passFrom_cons, cellByte_some, if_neg hb, if_pos ho]
    split
    · simp only [Option.some.injEq]; omega
    · rw [ih hrest _ (by omega) (by omega)]
      simp only [Option.some.injEq]; omega

/-- Without a full leader no header follows. -/
theorem passFrom_others_none {policy : ScanBreakPolicy} {cs : List (Option Byte)}
    (hcs : ∀ c ∈ cs, ∃ b, c = some b ∧ b ≠ symOne) (k d : Nat) {o h : Nat} (ho : o < 40) :
    (passFrom policy cs k o h d).1 = none := by
  induction cs generalizing k o h with
  | nil => rfl
  | cons c cs ih =>
    obtain ⟨⟨b, rfl, hb⟩, hrest⟩ := List.forall_mem_cons.1 hcs
    rw [passFrom_cons, cellByte_some, if_neg hb, if_neg (by omega)]
    exact ih hrest _ (by omega)

/-- A `'1'` that breaks a boundary run (R103). -/
theorem passFrom_break (policy : ScanBreakPolicy) (cs : List (Option Byte)) (k o d : Nat) {h : Nat} (hh : 0 < h) :
    passFrom policy (some symOne :: cs) k o h d =
      passFrom policy cs (k + 1) (breakOnOne policy o h).1 (breakOnOne policy o h).2 d := by
  rw [passFrom_cons, cellByte_some, if_pos rfl, if_pos hh]

/-! ### `ScanPass` -/

theorem State.tapeFrom_length (s : State) (p : Nat) : (s.tapeFrom p).length = s.length - p := by simp [State.tapeFrom]

/-- The cells a pass from `p` reads are the valid bytes from `p` on. -/
theorem State.cellsMatch_tapeFrom {s : State} (hwf : s.tape.wf) (hw : s.tapeWritten) (p : Nat) :
    cellsMatch (fun i => s.tape.read i = some symOne) p (s.tapeFrom p) := by
  intro j hj
  rw [State.tapeFrom_length] at hj
  obtain ⟨b, hb⟩ := hw (p + j) (by omega)
  refine ⟨b, ?_, by simp [hb]⟩
  rw [State.tapeFrom, Memory.getElem?_readRun hwf, if_pos hj, hb]

theorem State.scanPass_bounds {s : State} {d p a d' : Nat} (h : s.scanPass d p = (some a, d')) :
    p ≤ a ∧ a + 79 < s.length := by
  have := passFrom_bounds (p := p) s.cfg.scanBreakPolicy _ (by omega) h
  rw [State.tapeFrom_length] at this
  omega

/-- The header pattern in terms of the ones of the tape, for a tape whose valid bytes have been written. -/
theorem State.patternAt_iff {s : State} (hw : s.tapeWritten) (a : Nat) :
    s.patternAt a ↔ a + 79 < s.length ∧ (∀ j < 40, s.tape.read (a + j) = some symOne) ∧
      ∀ j < 40, ¬ s.tape.read (a + 40 + j) = some symOne := by
  refine and_congr_right fun hlen => and_congr_right fun _ => forall_congr' fun j => ?_
  refine forall_congr' fun hj => ⟨fun ⟨b, hb, hne⟩ heq => hne (by rw [hb] at heq; exact Option.some.inj heq), fun hne => ?_⟩
  obtain ⟨b, hb⟩ := hw (a + 40 + j) (by omega)
  exact ⟨b, hb, fun heq => hne (by rw [hb, heq])⟩

theorem State.scanPass_sound {s : State} (hwf : s.tape.wf) (hw : s.tapeWritten) (hp : s.cfg.scanBreakPolicy ≠ .ignore)
    {d p a d' : Nat} (h : s.scanPass d p = (some a, d')) : s.patternAt a := by
  have hm := s.cellsMatch_tapeFrom hwf hw p
  exact (State.patternAt_iff hw a).2 ⟨(State.scanPass_bounds h).2, passFrom_sound hp _ hm (CountersAt.start _ p) h⟩

theorem State.scanPass_complete {s : State} (hwf : s.tape.wf) (hw : s.tapeWritten)
    (hp : s.cfg.scanBreakPolicy = .resetCount) {d p a : Nat} (hpa : p ≤ a) (h : s.patternAt a) :
    ∃ a' ≤ a, (s.scanPass d p).1 = some a' := by
  obtain ⟨hlen, ho, hn⟩ := (State.patternAt_iff hw a).1 h
  rw [State.scanPass, hp]
  exact passFrom_complete _ (s.cellsMatch_tapeFrom hwf hw p) (by rw [State.tapeFrom_length]; omega) ho hn (by omega)

theorem State.scanPass_draws {s : State} (hwf : s.tape.wf) (hw : s.tapeWritten) (d p : Nat) : (s.scanPass d p).2 = d :=
  passFrom_draws _ (s.cellsMatch_tapeFrom hwf hw p)

/-- The cells a pass reads, as a run from `a` of length `n` and what follows it. -/
theorem Memory.readRun_add {α : Type} {m : Memory α} (h : m.wf) (a n l : Nat) :
    Memory.readRun m a (n + l) = Memory.readRun m a n ++ Memory.readRun m (a + n) l := by
  simp only [Memory.readRun_eq_map h, List.range_add, List.map_append, List.map_map, Function.comp_def, Nat.add_assoc]

theorem State.onesAt.cells {s : State} (h : s.tape.wf) {a n : Nat} (ho : s.onesAt a n) :
    ∀ c ∈ Memory.readRun s.tape a n, c = some symOne := by
  simp only [Memory.readRun_eq_map h, List.mem_map, List.mem_range]
  rintro c ⟨i, hi, rfl⟩
  exact ho i hi

theorem State.othersAt.cells {s : State} (h : s.tape.wf) {a n : Nat} (ho : s.othersAt a n) :
    ∀ c ∈ Memory.readRun s.tape a n, ∃ b, c = some b ∧ b ≠ symOne := by
  simp only [Memory.readRun_eq_map h, List.mem_map, List.mem_range]
  rintro c ⟨i, hi, rfl⟩
  exact ho i hi

/-! ### Fields and names -/

theorem State.fieldFrom_succ (s : State) (n a : Nat) (v : Byte) (d : Nat) :
    s.fieldFrom (n + 1) a v d =
      s.fieldFrom n (a + 1) ((v <<< 1) ||| (s.sym d a).1.setWidth 8) (s.sym d a).2 := rfl

/-- Bytes of the tape packed into a field, first symbol most significant. -/
def packSymbols (v : Byte) (bytes : List Byte) : Byte :=
  bytes.foldl (fun v b => (v <<< 1) ||| (bitOfSymbol b).setWidth 8) v

/-- Symbols that are valid and written are packed without a draw. -/
theorem State.fieldFrom_of_read {s : State} (bytes : List Byte) {a : Nat} (hlen : a + bytes.length ≤ s.length)
    (hb : ∀ j < bytes.length, s.tape.read (a + j) = bytes[j]?) (v : Byte) (d : Nat) :
    s.fieldFrom bytes.length a v d = (packSymbols v bytes, d) := by
  induction bytes generalizing a v with
  | nil => rfl
  | cons b bytes ih =>
    simp only [List.length_cons] at hlen hb ⊢
    have h0 : s.tape.read a = some b := by simpa using hb 0 (by omega)
    rw [State.fieldFrom_succ, State.sym_of_read (by omega) h0]
    refine ih (by omega) (fun j hj => ?_) _
    rw [show a + 1 + j = a + (j + 1) by omega, hb (j + 1) (by omega), List.getElem?_cons_succ]

/-- Expanding a byte and packing its symbols gives the byte (R47). -/
theorem packSymbols_symbolsOf (x : Byte) : packSymbols 0 (symbolsOf x) = x := by
  revert x; decide

/-- A field that lies within a written tape takes no draw, so the draws made before do not matter. -/
theorem State.fieldFrom_of_written {s : State} (hw : s.tapeWritten) (n : Nat) {a : Nat} (ha : a + n ≤ s.length) (v : Byte)
    (d d' : Nat) : s.fieldFrom n a v d = ((s.fieldFrom n a v d').1, d) := by
  induction n generalizing a v with
  | zero => rfl
  | succ n ih =>
    obtain ⟨b, hb⟩ := hw a (by omega)
    simp only [State.fieldFrom_succ, State.sym_of_read (show a < s.length by omega) hb]
    exact ih (by omega) _

theorem State.field8_of_written {s : State} (hw : s.tapeWritten) {a : Nat} (ha : a + 8 ≤ s.length) (d d' : Nat) :
    s.field8 d a = ((s.field8 d' a).1, d) := s.fieldFrom_of_written hw 8 ha 0 d d'

theorem State.nameFrom_succ (s : State) (n a d : Nat) :
    s.nameFrom (n + 1) a d =
      (sanitize (s.field8 d a).1 :: (s.nameFrom n (a + 9) (s.field8 d a).2).1,
        (s.nameFrom n (a + 9) (s.field8 d a).2).2) := rfl

theorem sanitize_nameByte (v : Byte) : nameByte (sanitize v) := by
  unfold sanitize nameByte
  split
  · rename_i h; exact .inl h
  · exact .inr rfl

theorem State.nameFrom_spec (s : State) (n a d : Nat) :
    (s.nameFrom n a d).1.length = n ∧ ∀ b ∈ (s.nameFrom n a d).1, nameByte b := by
  induction n generalizing a d with
  | zero => simp [State.nameFrom]
  | succ n ih =>
    obtain ⟨hl, hb⟩ := ih (a + 9) (s.field8 d a).2
    rw [State.nameFrom_succ]
    refine ⟨by simp [hl], fun b hmem => ?_⟩
    rcases List.mem_cons.1 hmem with rfl | hmem
    · exact sanitize_nameByte _
    · exact hb b hmem

/-- Character `c` of a name is its sanitised field, where that field lies within a written tape (R111, R113). -/
theorem State.nameFrom_char {s : State} (hw : s.tapeWritten) (n a d d' : Nat) {c : Nat} (hc : c < n)
    (hlen : a + 9 * c + 8 ≤ s.length) : (s.nameFrom n a d).1[c]? = some (sanitize (s.field8 d' (a + 9 * c)).1) := by
  induction n generalizing a d c with
  | zero => omega
  | succ n ih =>
    rw [State.nameFrom_succ]
    cases c with
    | zero => simp [s.field8_of_written hw (show a + 8 ≤ s.length by omega) d d']
    | succ c =>
      rw [List.getElem?_cons_succ, ih _ _ (by omega) (by omega), show a + 9 + 9 * c = a + 9 * (c + 1) by omega]

/-- A name whose frame lies within a written tape takes no draw. -/
theorem State.nameFrom_draws {s : State} (hw : s.tapeWritten) (n a d : Nat) (hlen : a + 9 * n ≤ s.length + 1) :
    (s.nameFrom n a d).2 = d := by
  induction n generalizing a d with
  | zero => rfl
  | succ n ih =>
    rw [State.nameFrom_succ, s.field8_of_written hw (show a + 8 ≤ s.length by omega) d d]
    exact ih _ _ (by omega)

theorem State.decodeName_char {s : State} (hw : s.tapeWritten) (d d' : Nat) {start c : Nat} (hc : c < 17)
    (hlen : start + 98 + 9 * c < s.length) :
    (s.decodeName d start).1[c]? = some (sanitize (s.field8 d' (start + 91 + 9 * c)).1) :=
  s.nameFrom_char hw 17 (start + 91) d d' hc (by omega)

theorem State.decodeName_draws {s : State} (hw : s.tapeWritten) (d : Nat) {start : Nat} (hlen : start + 242 < s.length) :
    (s.decodeName d start).2 = d := s.nameFrom_draws hw 17 (start + 91) d (by omega)

theorem State.decodeName_of_written {s : State} (hw : s.tapeWritten) (d d' : Nat) {start : Nat}
    (hlen : start + 242 < s.length) : (s.decodeName d start).1 = (s.decodeName d' start).1 := by
  have hl : ∀ d, (s.decodeName d start).1.length = 17 := fun d => (s.nameFrom_spec 17 (start + 91) d).1
  refine List.ext_getElem? fun c => ?_
  rcases Nat.lt_or_ge c 17 with hc | hc
  · rw [s.decodeName_char hw d d hc (by omega), s.decodeName_char hw d' d hc (by omega)]
  · rw [List.getElem?_eq_none (by rw [hl]; exact hc), List.getElem?_eq_none (by rw [hl]; exact hc)]

/-- The decode looks at the tape and its length alone. -/
theorem State.fieldFrom_congr {s t : State} (htape : t.tape = s.tape) (hlen : t.length = s.length) (n a : Nat) (v : Byte)
    (d : Nat) : t.fieldFrom n a v d = s.fieldFrom n a v d := by
  induction n generalizing a v d with
  | zero => rfl
  | succ n ih => simp only [State.fieldFrom_succ, State.sym, State.memRead, htape, hlen, ih]

theorem State.nameFrom_congr {s t : State} (htape : t.tape = s.tape) (hlen : t.length = s.length) (n a d : Nat) :
    t.nameFrom n a d = s.nameFrom n a d := by
  induction n generalizing a d with
  | zero => rfl
  | succ n ih => simp only [State.nameFrom_succ, State.field8, State.fieldFrom_congr htape hlen, ih]

theorem State.field8_congr {s t : State} (htape : t.tape = s.tape) (hlen : t.length = s.length) (d a : Nat) :
    t.field8 d a = s.field8 d a := State.fieldFrom_congr htape hlen 8 a 0 d

theorem State.decodeName_congr {s t : State} (htape : t.tape = s.tape) (hlen : t.length = s.length) (d start : Nat) :
    t.decodeName d start = s.decodeName d start := State.nameFrom_congr htape hlen 17 (start + 91) d

/-! ### `ScanAll` -/

theorem State.scanFrom_succ (s : State) (fuel p d : Nat) :
    s.scanFrom (fuel + 1) p d =
      if p < s.length then
        match s.scanPass d p with
        | (none, d1) => ([], d1)
        | (some a, d1) =>
          ({ name := (s.decodeName d1 a).1, offset := a } :: (s.scanFrom fuel (a + 800) (s.decodeName d1 a).2).1,
            (s.scanFrom fuel (a + 800) (s.decodeName d1 a).2).2)
      else ([], d) := rfl

/-- What the entries of a scan look like (R13, R26): from `p` on, within the tape, 800 apart, names of 17 bytes. -/
theorem State.scanFrom_spec (s : State) (fuel p d : Nat) :
    (∀ e ∈ (s.scanFrom fuel p d).1,
      p ≤ e.offset ∧ e.offset + 79 < s.length ∧ e.name.length = 17 ∧ ∀ b ∈ e.name, nameByte b) ∧
    (s.scanFrom fuel p d).1.Pairwise fun e f => e.offset + 800 ≤ f.offset := by
  induction fuel generalizing p d with
  | zero => simp [State.scanFrom]
  | succ fuel ih =>
    rw [State.scanFrom_succ]
    split
    · rcases hpass : s.scanPass d p with ⟨r, d1⟩
      cases r with
      | none => simp
      | some a =>
        obtain ⟨hpa, hlen⟩ := State.scanPass_bounds hpass
        obtain ⟨hall, hpw⟩ := ih (a + 800) (s.decodeName d1 a).2
        refine ⟨fun e he => ?_, List.pairwise_cons.2 ⟨fun e he => (hall e he).1, hpw⟩⟩
        rcases List.mem_cons.1 he with rfl | he
        · exact ⟨hpa, hlen, State.nameFrom_spec s 17 _ _⟩
        · obtain ⟨h1, h2⟩ := hall e he
          exact ⟨by omega, h2⟩
    · simp

/-- Every entry of a scan stands at a header pattern (R54, R104), for the policies that reset. -/
theorem State.scanFrom_patterns {s : State} (hwf : s.tape.wf) (hw : s.tapeWritten)
    (hp : s.cfg.scanBreakPolicy ≠ .ignore) (fuel p d : Nat) : ∀ e ∈ (s.scanFrom fuel p d).1, s.patternAt e.offset := by
  induction fuel generalizing p d with
  | zero => simp [State.scanFrom]
  | succ fuel ih =>
    rw [State.scanFrom_succ]
    split
    · rcases hpass : s.scanPass d p with ⟨r, d1⟩
      cases r with
      | none => simp
      | some a =>
        intro e he
        rcases List.mem_cons.1 he with rfl | he
        · exact State.scanPass_sound hwf hw hp hpass
        · exact ih _ _ e he
    · simp

/-- The name of every entry of a scan of a written tape is decoded at its offset, with the draws made before the scan:
an entry that needs a draw is the last one (R106, R107, R113). -/
theorem State.scanFrom_names {s : State} (hwf : s.tape.wf) (hw : s.tapeWritten) (fuel p d : Nat) :
    ∀ e ∈ (s.scanFrom fuel p d).1, e.name = (s.decodeName d e.offset).1 := by
  induction fuel generalizing p with
  | zero => simp [State.scanFrom]
  | succ fuel ih =>
    rw [State.scanFrom_succ]
    split
    · have hd := s.scanPass_draws hwf hw d p
      rcases hpass : s.scanPass d p with ⟨r, d1⟩
      obtain rfl : d1 = d := by rw [← hd, hpass]
      cases r with
      | none => simp
      | some a =>
        dsimp only
        intro e he
        rcases List.mem_cons.1 he with rfl | hmem
        · dsimp only
        rcases Nat.lt_or_ge (a + 242) s.length with h | h
        · have hdraws : (s.decodeName d1 a).2 = d1 := s.decodeName_draws hw d1 h
          generalize (s.decodeName d1 a).2 = d2 at hmem hdraws
          subst hdraws
          exact ih (a + 800) e hmem
        · have hnil : ∀ d', (s.scanFrom fuel (a + 800) d').1 = [] := fun d' => by
            cases fuel with
            | zero => rfl
            | succ f => rw [State.scanFrom_succ, if_neg (by omega)]
          rw [hnil] at hmem
          exact absurd hmem (List.not_mem_nil)
    · simp

end Sys2Proof.Machine
end

