-- ==== Sys2Proof/Laws/Exec.lean ====
section
/-! SUPPORT. What each meaning can do, said once: which next states it answers, the refused request (R182) among them. -/

namespace Sys2Proof.Machine

open Host (Outcome)

variable {s t : State}

/-! ### One arm of `exec` each -/

theorem exec_nop : exec .nop s = execNop s := rfl
theorem exec_tinsert (input : Option (List Byte)) : exec (.tinsert input) s = execTinsert input s := rfl
theorem exec_teject : exec .teject s = execTeject s := rfl
theorem exec_tselect (k : Nat) : exec (.tselect k) s = execTselect k s := rfl
theorem exec_tcur : exec .tcur s = execTcur s := rfl
theorem exec_tcatn : exec .tcatn s = execTcatn s := rfl
theorem exec_tcate (k : Nat) : exec (.tcate k) s = execTcate k s := rfl
theorem exec_casrd : exec .casrd s = execCasrd s := rfl
theorem exec_tpoll (tick : Nat) (prn : Bit) : exec (.tpoll tick prn) s = execTpoll tick prn s := rfl
theorem exec_motorw (data : Byte) (tick : Nat) : exec (.motorw data tick) s = execMotorw data tick s := rfl
theorem exec_aconfig (rate count : Option Nat) (vol : Option Rat) : exec (.aconfig rate count vol) s = execAconfig rate count vol s := rfl
theorem exec_apulse (b : Bool) (v w : SampleName) : exec (.apulse b v w) s = execApulse b v w s := rfl
theorem exec_reserved (x : BitVec 2) : exec (.reserved x) s = execReserved x s := rfl

theorem execNop_next : execNop s = .next t ↔ t = s.answer .none := by
  simp [execNop, eq_comm]

theorem execReserved_next (x : BitVec 2) : execReserved x s = .next t ↔ t = s.refuse .reservedOp := by
  simp [execReserved, eq_comm]

@[simp] theorem validInput_none : validInput none = none := rfl
@[simp] theorem validInput_nil : validInput (some []) = none := rfl
@[simp] theorem validInput_cons (b : Byte) (bs : List Byte) : validInput (some (b :: bs)) = some (b :: bs) := rfl

theorem validInput_eq_some {input : Option (List Byte)} {bytes : List Byte} :
    validInput input = some bytes ↔ input = some bytes ∧ bytes ≠ [] := by
  rcases input with _ | _ | ⟨b, bs⟩
  · simp
  · simp only [validInput_nil, Option.some.injEq, reduceCtorEq, false_iff, not_and, ne_eq, not_not]
    exact Eq.symm
  · simp only [validInput_cons, Option.some.injEq]
    exact ⟨fun h => ⟨h, h ▸ List.cons_ne_nil b bs⟩, fun h => h.1⟩

/-- A `TINSERT` returns false on an input without a first byte, stores what fits, and is refused for what does not. -/
theorem execTinsert_next {input : Option (List Byte)} : execTinsert input s = .next t ↔
    (validInput input = none ∧ t = s.failedInsert.answer (.success false)) ∨
    ∃ bytes, validInput input = some bytes ∧
      (((normalise s.cfg bytes).length ≤ s.cfg.tapeCap ∧
          t = (s.loadTape (normalise s.cfg bytes)).fillCatalog.answer (.success true)) ∨
        (s.cfg.tapeCap < (normalise s.cfg bytes).length ∧ t = s.refuse .tapeTooLong)) := by
  unfold execTinsert
  cases validInput input with
  | none => simp [eq_comm]
  | some bytes =>
    simp only [reduceCtorEq, false_and, Option.some.injEq, exists_eq_left', false_or]
    split
    · rename_i h; simp [h, Nat.not_le.2 h, eq_comm]
    · rename_i h; simp [h, Nat.not_lt.1 h, @eq_comm _ t]

theorem execTeject_next : execTeject s = .next t ↔ t = s.ejectTape.answer .none := by
  simp [execTeject, eq_comm]

theorem execTcatn_next : execTcatn s = .next t ↔ t = s.answer (.count s.catCount) := by
  simp [execTcatn, eq_comm]

theorem execTcate_next {i : Nat} : execTcate i s = .next t ↔
    (∃ e, s.cat[i]? = some e ∧ t = s.answer (.entry e.name e.offset)) ∨
    (s.catCount ≤ i ∧ t = s.refuse .catalogIndexOutOfRange) := by
  unfold execTcate
  rcases h : s.cat[i]? with _ | e
  · rw [List.getElem?_eq_none_iff] at h; simp [h, eq_comm]
  · obtain ⟨h', -⟩ := List.getElem?_eq_some_iff.1 h; simp [Nat.not_le.2 h', eq_comm]

theorem execTselect_next {i : Nat} : execTselect i s = .next t ↔
    (i = 0 ∧ t = (s.seek 0).answer .none) ∨
    (i ≠ 0 ∧ ∃ e, s.cat[i]? = some e ∧ t = (s.seek e.offset).answer .none) ∨
    (i ≠ 0 ∧ s.catCount ≤ i ∧ t = s.refuse .catalogIndexOutOfRange) := by
  unfold execTselect
  split
  · rename_i h; simp [h, eq_comm]
  · rename_i h
    rcases hc : s.cat[i]? with _ | e
    · rw [List.getElem?_eq_none_iff] at hc; simp [h, hc, eq_comm]
    · obtain ⟨hc', -⟩ := List.getElem?_eq_some_iff.1 hc; simp [h, Nat.not_le.2 hc', eq_comm]

theorem execTcur_next : execTcur s = .next t ↔ t = s.answer (.index s.currentEntry) := by
  simp [execTcur, eq_comm]

/-- The bit read's address is refused only outside the buffer (R44, R45). -/
theorem State.popRefused_iff : s.popRefused = true ↔ s.cursor < s.length ∧ s.cfg.tapeCap ≤ s.cursor := by
  simp [State.popRefused, State.symRefused, State.tapeIndexRefused]

theorem State.popRefused_of_le (h : s.length ≤ s.cfg.tapeCap) : s.popRefused = false := by
  rw [Bool.eq_false_iff, ne_eq, State.popRefused_iff]; omega

theorem execCasrd_next : execCasrd s = .next t ↔
    (s.popRefused = false ∧ t = (s.popState .port).answer (.data (portByte s.popValue))) ∨
    (s.popRefused = true ∧ t = s.refuse .tapeIndexOutOfBuffer) := by
  unfold execCasrd; cases s.popRefused <;> simp [eq_comm]

theorem execTpoll_next {tick : Nat} {prn : Bit} : execTpoll tick prn s = .next t ↔
    (s.tickAtLastAdvance ≤ tick ∧ (s.popRefused && s.advances tick) = false ∧
      t = (s.afterAdvance tick).answer (.status (s.pollStatus tick prn))) ∨
    (tick < s.tickAtLastAdvance ∧ t = s.refuse .tickWentBackwards) ∨
    (s.tickAtLastAdvance ≤ tick ∧ s.popRefused = true ∧ s.advances tick = true ∧ t = s.refuse .tapeIndexOutOfBuffer) := by
  unfold execTpoll
  by_cases h : tick < s.tickAtLastAdvance
  · simp [h, Nat.not_le.2 h, @eq_comm _ t]
  · cases hp : s.popRefused <;> cases ha : s.advances tick <;> simp [h, Nat.not_lt.1 h, @eq_comm _ t]

theorem execMotorw_next {data : Byte} {tick : Nat} :
    execMotorw data tick s = .next t ↔ t = (s.motorWrite (controlBit s.cfg data) tick).answer .none := by
  simp [execMotorw, eq_comm]

theorem volumeRefused_iff {vol : Option Rat} : volumeRefused vol = true ↔ ∃ v, vol = some v ∧ (v < 0 ∨ 1 < v) := by
  cases vol <;> simp [volumeRefused]

theorem execAconfig_next {rate count : Option Nat} {vol : Option Rat} : execAconfig rate count vol s = .next t ↔
    (s.configured = false ∧ volumeRefused vol = false ∧ t = (s.configureMixer rate count vol).answer .none) ∨
    (s.configured = true ∧ t = s.refuse .reconfigure) ∨
    (s.configured = false ∧ volumeRefused vol = true ∧ t = s.refuse .volumeOutOfRange) := by
  unfold execAconfig; cases s.configured <;> cases volumeRefused vol <;> simp [eq_comm]

/-- What a run of slots delivers: the samples written, and a draw of its own for each slot that nothing has written. -/
theorem slotSamples_spec (slots : List (Option SampleName)) (d : Nat) :
    (slotSamples slots d).2 = d + slots.countP (·.isNone) ∧ (slotSamples slots d).1.length = slots.length ∧
    ∀ i (_ : i < slots.length), (slotSamples slots d).1[i]? =
      some (slots[i].getD (Config.freeSample (d + (slots.take i).countP (·.isNone)))) := by
  induction slots generalizing d with
  | nil => simp [slotSamples]
  | cons c slots ih =>
    cases c with
    | some v =>
      obtain ⟨hd, hl, hs⟩ := ih d
      refine ⟨by simp [slotSamples, hd], by simp [slotSamples, hl], fun i hi => ?_⟩
      cases i with
      | zero => simp [slotSamples]
      | succ i => simpa [slotSamples] using hs i (by simpa using hi)
    | none =>
      obtain ⟨hd, hl, hs⟩ := ih (d + 1)
      refine ⟨by simp [slotSamples, hd]; omega, by simp [slotSamples, hl], fun i hi => ?_⟩
      cases i with
      | zero => simp [slotSamples]
      | succ i =>
        simp only [slotSamples, List.getElem?_cons_succ, hs i (by simpa using hi)]
        simp [Nat.add_assoc, Nat.add_comm]

/-- The flush (R167): the event carries the ring in index order, `wcur` returns to 0, the requests the host makes inside
are refused (R186), and nothing else changes but the draws of slots never written. -/
theorem State.flush_eq (res : Result) : s.flush res = { s with
    wcur := 0
    draws := (slotSamples (s.ring.readRun 0 s.ringCap) s.draws).2
    refusals := s.refusals ++ (s.callback.headD []).map fun _ => .reentry
    callback := s.callback.tail
    result := res
    event := some { samples := (slotSamples (s.ring.readRun 0 s.ringCap) s.draws).1, count := s.ringCap } } := rfl

/-- A pulse: no boundary, a push, or a push that fills the ring (R164). -/
theorem execApulse_next {bstrobe : Bool} {bval pval : SampleName} : execApulse bstrobe bval pval s = .next t ↔
    (bstrobe = false ∧ t = s.beginPulse.answer (.psgTick s.psgTick)) ∨
    (bstrobe = true ∧ s.wcur + 1 ≠ s.ringCap ∧
      t = (s.beginPulse.pushSample (s.cfg.sumName bval pval)).answer (.psgTick s.psgTick)) ∨
    (bstrobe = true ∧ s.wcur + 1 = s.ringCap ∧
      t = (s.beginPulse.pushSample (s.cfg.sumName bval pval)).flush (.psgTick s.psgTick)) := by
  unfold execApulse
  cases bstrobe
  · simp [eq_comm]
  · by_cases h : s.wcur + 1 = s.ringCap <;> simp [h, eq_comm]

/-- No operation faults (R180). -/
theorem exec_ne_fault (i : Instr) (f : Fault) : exec i s ≠ .fault f := nomatch f

/-- Every operation answers a next state: nothing stops the block, a refused request neither (R180, R182). -/
theorem exec_completes (i : Instr) (s : State) : ∃ t, exec i s = .next t := by
  cases i with
  | nop => exact ⟨_, rfl⟩
  | tinsert input => simp only [exec_tinsert, execTinsert]; split <;> [skip; split] <;> exact ⟨_, rfl⟩
  | teject => exact ⟨_, rfl⟩
  | tselect k => simp only [exec_tselect, execTselect]; split <;> [skip; split] <;> exact ⟨_, rfl⟩
  | tcur => exact ⟨_, rfl⟩
  | tcatn => exact ⟨_, rfl⟩
  | tcate k => simp only [exec_tcate, execTcate]; split <;> exact ⟨_, rfl⟩
  | casrd => simp only [exec_casrd, execCasrd]; split <;> exact ⟨_, rfl⟩
  | tpoll tick prn => simp only [exec_tpoll, execTpoll]; split <;> [skip; split] <;> exact ⟨_, rfl⟩
  | motorw data tick => exact ⟨_, rfl⟩
  | aconfig rate count vol => simp only [exec_aconfig, execAconfig]; split <;> [skip; split] <;> exact ⟨_, rfl⟩
  | apulse bstrobe bval pval => simp only [exec_apulse, execApulse]; split <;> [split; skip] <;> exact ⟨_, rfl⟩
  | reserved x => exact ⟨_, rfl⟩

/-! ### The step -/

theorem step_nil (h : s.requests = []) : step s = .next s := by
  obtain ⟨⟩ := s; subst h; rfl

theorem step_cons {q : Request} {qs : List Request} (h : s.requests = q :: qs) :
    step s = exec q.instr { s with requests := qs } := by
  obtain ⟨⟩ := s; subst h; rfl

theorem step_completes (s : State) : ∃ t, step s = .next t := by
  cases h : s.requests with
  | nil => exact ⟨s, step_nil h⟩
  | cons q qs => rw [step_cons h]; exact exec_completes _ _

/-- A run of the host's goes on from the state after its first step. -/
theorem run_succ (M : Host.Core) {a b : M.State} (h : M.step a = .next b) (n : Nat) : M.run (n + 1) a = M.run n b := by
  rw [Host.Core.run, h]

end Sys2Proof.Machine
end

