-- ==== Sys2Proof/Laws/Invariant.lean ====
section
/-! SUPPORT. What the invariant of Safety.lean gives and how an operation keeps it: the fields it looks at, the symbols
a normalised bitstream consists of, the bounds of the wrapped cursor. -/

namespace Sys2Proof.Machine

theorem State.tapeWritten_of_symbols {s : State} (h : s.tapeOfSymbols) : s.tapeWritten := fun i hi =>
  (h i hi).elim (fun h => ⟨_, h⟩) fun h => ⟨_, h⟩

/-- Patterns and the offsets of a scan depend on the tape and its length alone. -/
theorem State.patternAt_congr {s t : State} (htape : t.tape = s.tape) (hlen : t.length = s.length) (a : Nat) :
    t.patternAt a ↔ s.patternAt a := by unfold State.patternAt; rw [htape, hlen]

theorem State.offsetsFrom_congr {s t : State} (htape : t.tape = s.tape) (hlen : t.length = s.length) (p : Nat)
    (l : List Nat) : t.offsetsFrom p l ↔ s.offsetsFrom p l := by
  induction l generalizing p with
  | nil => simp only [State.offsetsFrom, State.patternAt_congr htape hlen]
  | cons a l ih => simp only [State.offsetsFrom, State.firstPatternFrom, State.patternAt_congr htape hlen, ih]

theorem symbolOfBit_symbol (b : Bool) : symbolOfBit b = symZero ∨ symbolOfBit b = symOne := by
  cases b
  · exact .inl rfl
  · exact .inr rfl

/-- A normalised bitstream consists of symbols (R60). -/
theorem normalise_symbols (cfg : Config) (bytes : List Byte) : ∀ x ∈ normalise cfg bytes, x = symZero ∨ x = symOne := by
  intro x hx
  unfold normalise at hx
  split at hx
  · simp only [filterAscii, isSymbol, List.mem_filter, Bool.or_eq_true, beq_iff_eq] at hx
    exact hx.2
  · simp only [expandBinary, List.mem_flatMap] at hx
    obtain ⟨b, -, hx⟩ := hx
    simp only [symbolsOf, List.mem_cons, List.not_mem_nil, or_false] at hx
    rcases hx with rfl | rfl | rfl | rfl | rfl | rfl | rfl | rfl <;> exact symbolOfBit_symbol _

/-- What is read from a tape just stored (R83). -/
theorem State.loadTape_read (s : State) (out : List Byte) (a : Nat) :
    (s.loadTape out).tape.read a = if a < out.length then out[a]? else s.tape.read a := by
  simp [Memory.read_writeRun]

theorem State.loadTape_symbols (s : State) {out : List Byte} (h : ∀ x ∈ out, x = symZero ∨ x = symOne) :
    (s.loadTape out).tapeOfSymbols := by
  intro i hi
  simp only [State.loadTape_length] at hi
  rw [State.loadTape_read, if_pos hi, List.getElem?_eq_getElem hi]
  simp only [Option.some.injEq]
  exact h _ (List.getElem_mem hi)

theorem wrapCursor_le (ge : Bool) {c l : Nat} (h : c ≤ l) : wrapCursor ge (c + 1) l ≤ l := by
  unfold wrapCursor
  split <;> split <;> omega

/-- The invariant looks only at these fields; the cursor, the motor and the flag `configured` may move. -/
theorem State.Inv.congr {s t : State} (h : s.Inv) (hcfg : t.cfg = s.cfg) (htape : t.tape = s.tape)
    (hlen : t.length = s.length) (hcur : t.cursor ≤ t.length) (hcat : t.cat = s.cat)
    (hspeed : t.speed = .boost ↔ t.engaged = true) (hring : t.ring = s.ring) (hcap : t.ringCap = s.ringCap)
    (hw : t.wcur = s.wcur) (hrate : t.sampleRate = s.sampleRate) (hvol : t.volume = s.volume)
    (hconf : t.configured = s.configured ∨ t.configured = true) : t.Inv where
  cfgOk := hcfg ▸ h.cfgOk
  tapeCanonical := htape ▸ h.tapeCanonical
  ringCanonical := hring ▸ h.ringCanonical
  tapeInBuffer := by rw [htape, hcfg]; exact h.tapeInBuffer
  lengthBound := by rw [hlen, hcfg]; exact h.lengthBound
  symbols := by unfold State.tapeOfSymbols; rw [hlen, htape]; exact h.symbols
  cursorBound := hcur
  catOffsets := by rw [hcat, hlen]; exact h.catOffsets
  catAscending := hcat ▸ h.catAscending
  catNames := hcat ▸ h.catNames
  speedEngaged := hspeed
  ringCapPos := hcap ▸ h.ringCapPos
  ringCapMax := hcap ▸ h.ringCapMax
  wcurBound := by rw [hcap, hw]; exact h.wcurBound
  ringInUse := by rw [hring, hcap]; exact h.ringInUse
  ringFilled := by rw [hring, hw]; exact h.ringFilled
  unconfigured hc := by
    rw [hring, hw]
    rcases hconf with hconf | hconf
    · exact h.unconfigured (hconf ▸ hc)
    · rw [hconf] at hc; cases hc
  ratePos := hrate ▸ h.ratePos
  volumeRange := hvol ▸ h.volumeRange

/-- The push of a pulse keeps the invariant, wherever below the capacity the write cursor then goes. -/
theorem State.Inv.pushed {s t : State} (h : s.Inv) (v : SampleName) {w : Nat} (hw : w ≤ s.wcur + 1) (hwc : w < s.ringCap)
    (ht : t = { s with
      ring := s.ring.write s.wcur v
      wcur := w
      configured := true
      psgPhase := t.psgPhase
      result := t.result
      event := t.event
      draws := t.draws }) : t.Inv := by
  rw [ht]
  exact { h with
    ringCanonical := Memory.wf_write h.ringCanonical _ _
    wcurBound := hwc
    ringInUse := fun c hc => (Memory.mem_write hc).elim (fun heq => heq ▸ h.wcurBound) (h.ringInUse c)
    ringFilled := fun i hi => by
      rw [Memory.read_write]
      split
      · exact ⟨_, rfl⟩
      · have : i < w := hi
        exact h.ringFilled i (by omega)
    unconfigured := fun hc => by cases hc }

end Sys2Proof.Machine
end

