-- ==== Sys2Proof/Laws/PerInstr.lean ====
section
/-! SUPPORT. Facts about an instruction as syntax, one lemma per constructor: its code is of the row of the operation
table that carries its mnemonic (`TableRow`), and its code byte decodes to its code (`CodeByte`). -/

namespace Sys2Proof.Laws

/-- The instruction's code is covered by a row of the table, and every row that covers it has its mnemonic. -/
def TableRow.Statement (i : Instr) : Prop :=
  (∃ r ∈ opTable, r.covers i.code = true) ∧ ∀ r ∈ opTable, r.covers i.code = true → r.mnemonic = i.mnemonic

/-- The instruction's code byte decodes to its code, and its request to the instruction. -/
def CodeByte.Statement (i : Instr) : Prop := decodeCode i.codeBytes = .ok i.code ∧ (encode i).instr = i

/-- `TableRow` is a fact about the code and the mnemonic alone. -/
theorem TableRow.of_code {i : Instr} {c : BitVec 4} {m : String} (hc : i.code = c) (hm : i.mnemonic = m)
    (h : (∃ r ∈ opTable, r.covers c = true) ∧ ∀ r ∈ opTable, r.covers c = true → r.mnemonic = m) :
    TableRow.Statement i := by
  subst hc hm; exact h

/-- Every code is recovered from its byte. -/
theorem decodeCode_setWidth (c : BitVec 4) : decodeCode [c.setWidth 8] = .ok c := by revert c; decide

theorem TableRow.nop : TableRow.Statement .nop :=
  TableRow.of_code (c := 0x0#4) (m := "NOP") rfl rfl (by decide)
theorem TableRow.tinsert (input : Option (List Byte)) : TableRow.Statement (.tinsert input) :=
  TableRow.of_code (c := 0x1#4) (m := "TINSERT") rfl rfl (by decide)
theorem TableRow.teject : TableRow.Statement .teject :=
  TableRow.of_code (c := 0x2#4) (m := "TEJECT") rfl rfl (by decide)
theorem TableRow.tselect (i : Nat) : TableRow.Statement (.tselect i) :=
  TableRow.of_code (c := 0x3#4) (m := "TSELECT") rfl rfl (by decide)
theorem TableRow.tcur : TableRow.Statement .tcur :=
  TableRow.of_code (c := 0x4#4) (m := "TCUR") rfl rfl (by decide)
theorem TableRow.tcatn : TableRow.Statement .tcatn :=
  TableRow.of_code (c := 0x5#4) (m := "TCATN") rfl rfl (by decide)
theorem TableRow.tcate (i : Nat) : TableRow.Statement (.tcate i) :=
  TableRow.of_code (c := 0x6#4) (m := "TCATE") rfl rfl (by decide)
theorem TableRow.casrd : TableRow.Statement .casrd :=
  TableRow.of_code (c := 0x7#4) (m := "CASRD") rfl rfl (by decide)
theorem TableRow.tpoll (tick : Nat) (prn : Bit) : TableRow.Statement (.tpoll tick prn) :=
  TableRow.of_code (c := 0x8#4) (m := "TPOLL") rfl rfl (by decide)
theorem TableRow.motorw (data : Byte) (tick : Nat) : TableRow.Statement (.motorw data tick) :=
  TableRow.of_code (c := 0x9#4) (m := "MOTORW") rfl rfl (by decide)
theorem TableRow.aconfig (rate count : Option Nat) (vol : Option Rat) : TableRow.Statement (.aconfig rate count vol) :=
  TableRow.of_code (c := 0xA#4) (m := "ACONFIG") rfl rfl (by decide)
theorem TableRow.apulse (bstrobe : Bool) (bval pval : SampleName) : TableRow.Statement (.apulse bstrobe bval pval) :=
  TableRow.of_code (c := 0xB#4) (m := "APULSE") rfl rfl (by decide)
theorem TableRow.reserved (x : BitVec 2) : TableRow.Statement (.reserved x) := by
  revert x; unfold TableRow.Statement; decide

theorem CodeByte.nop : CodeByte.Statement .nop := ⟨decodeCode_setWidth _, rfl⟩
theorem CodeByte.tinsert (input : Option (List Byte)) : CodeByte.Statement (.tinsert input) := ⟨decodeCode_setWidth _, rfl⟩
theorem CodeByte.teject : CodeByte.Statement .teject := ⟨decodeCode_setWidth _, rfl⟩
theorem CodeByte.tselect (i : Nat) : CodeByte.Statement (.tselect i) := ⟨decodeCode_setWidth _, rfl⟩
theorem CodeByte.tcur : CodeByte.Statement .tcur := ⟨decodeCode_setWidth _, rfl⟩
theorem CodeByte.tcatn : CodeByte.Statement .tcatn := ⟨decodeCode_setWidth _, rfl⟩
theorem CodeByte.tcate (i : Nat) : CodeByte.Statement (.tcate i) := ⟨decodeCode_setWidth _, rfl⟩
theorem CodeByte.casrd : CodeByte.Statement .casrd := ⟨decodeCode_setWidth _, rfl⟩
theorem CodeByte.tpoll (tick : Nat) (prn : Bit) : CodeByte.Statement (.tpoll tick prn) := ⟨decodeCode_setWidth _, rfl⟩
theorem CodeByte.motorw (data : Byte) (tick : Nat) : CodeByte.Statement (.motorw data tick) := ⟨decodeCode_setWidth _, rfl⟩
theorem CodeByte.aconfig (rate count : Option Nat) (vol : Option Rat) : CodeByte.Statement (.aconfig rate count vol) := ⟨decodeCode_setWidth _, rfl⟩
theorem CodeByte.apulse (bstrobe : Bool) (bval pval : SampleName) : CodeByte.Statement (.apulse bstrobe bval pval) := ⟨decodeCode_setWidth _, rfl⟩
theorem CodeByte.reserved (x : BitVec 2) : CodeByte.Statement (.reserved x) :=
  ⟨decodeCode_setWidth _, by revert x; decide⟩

end Sys2Proof.Laws
end

