-- ==== Sys2Proof/Laws/Sample.lean ====
section
/-! SUPPORT. Names of samples: the name of a sum reads as the sum, and naming shuts out no sample type and no addition
(the real numbers included): the samples that a run brings in have names, whatever the type is (log entry 5). -/

namespace Sys2Proof

/-- The pushed sample of R168: the name of a sum reads as `add` of the two samples. -/
@[simp] theorem Config.sampleOf_sumName (c : Config) (x y : SampleName) :
    c.sampleOf (c.sumName x y) = c.add (c.sampleOf x) (c.sampleOf y) :=
  (Config.openAlgebra c.sampleAlgebra).algebra.read_name_add x y

/-- The sum depends on the two SAMPLES alone (R168), not on the names they go by. -/
theorem Config.sumName_congr (c : Config) {x x' y y' : SampleName} (hx : c.sampleOf x = c.sampleOf x')
    (hy : c.sampleOf y = c.sampleOf y') : c.sumName x y = c.sumName x' y' := by
  simp only [Config.sumName, hx, hy]

/-- The samples that `n` rounds of adding make from `S`. -/
def sumsWithin {T : Type} (add : T → T → T) (S : Set T) : Nat → Set T
  | 0 => S
  | n + 1 => sumsWithin add S n ∪ Set.image2 add (sumsWithin add S n) (sumsWithin add S n)

theorem sumsWithin_countable {T : Type} (add : T → T → T) {S : Set T} (hS : S.Countable) (n : Nat) :
    (sumsWithin add S n).Countable := by
  induction n with
  | zero => exact hS
  | succ n ih => exact ih.union (ih.image2 ih add)

theorem sumsWithin_mono {T : Type} (add : T → T → T) (S : Set T) : Monotone (sumsWithin add S) :=
  monotone_nat_of_le_succ fun _ => Set.subset_union_left

theorem sumsWithin_closed {T : Type} (add : T → T → T) (S : Set T) {x y : T} (hx : x ∈ ⋃ n, sumsWithin add S n)
    (hy : y ∈ ⋃ n, sumsWithin add S n) : add x y ∈ ⋃ n, sumsWithin add S n := by
  obtain ⟨m, hm⟩ := Set.mem_iUnion.1 hx
  obtain ⟨n, hn⟩ := Set.mem_iUnion.1 hy
  exact Set.mem_iUnion.2 ⟨max m n + 1, .inr ⟨x, sumsWithin_mono add S (le_max_left m n) hm,
    y, sumsWithin_mono add S (le_max_right m n) hn, rfl⟩⟩

/-- No type of samples and no addition is shut out: every inhabited type `T` with every `add` is the carrier of a
`SampleAlgebra` in which any given countable collection of samples (those a run brings in) has names. -/
theorem sampleAlgebra_exists {T : Type} [Nonempty T] (add : T → T → T) {S : Set T} (hS : S.Countable) :
    ∃ (read : SampleName → T) (name : T → SampleName)
      (h : ∀ m n, read (name (add (read m) (read n))) = add (read m) (read n)),
      ∀ x ∈ S, (SampleAlgebra.mk T add read name h).read (name x) = x := by
  classical
  let C : Set T := ⋃ n, sumsWithin add (insert (Classical.arbitrary T) S) n
  have sub : insert (Classical.arbitrary T) S ⊆ C := Set.subset_iUnion (sumsWithin add _) 0
  have hC : C.Countable := Set.countable_iUnion (sumsWithin_countable add (hS.insert _))
  obtain ⟨f, hf⟩ := hC.exists_eq_range ⟨_, sub (Set.mem_insert _ _)⟩
  have named : ∀ x ∈ C, f (Function.invFun f x) = x := fun x hx => Function.invFun_eq (by rwa [hf] at hx)
  have mem : ∀ k, f k ∈ C := fun k => hf ▸ Set.mem_range_self k
  exact ⟨fun m => f m.code, fun x => ⟨Function.invFun f x⟩, fun m n => named _ (sumsWithin_closed add _ (mem _) (mem _)),
    fun x hx => named x (sub (Set.mem_insert_of_mem _ hx))⟩

end Sys2Proof
end

