-- ==== Sys2Proof/Tests/Slice0.lean ====
section
/-! SUPPORT. Tests: ill-formed operations that WellFormed refuses, the words of the operation table, vectors of
95_test_vectors.md (the vector is named at each), and for each obligation with hypotheses a state that meets them. -/

namespace Sys2Proof.Tests

open Sys2Proof Sys2Proof.Machine Host

/-! ### The illustrative parameters and states of 95_test_vectors.md -/

/-- The illustrative values of 95_test_vectors.md; the port addresses are the test's own. -/
def testCfg : Config :=
  { magic := [0x4D, 0x41, 0x47, 0x49, 0x43, 0x54, 0x41, 0x47]
    tAdv1 := 60, tAdv0 := 30, tLvl1 := 30, tLvl0 := 15
    motorCtrlBit := 1
    speedBoost := 2
    portCas0 := ⟨0xFF00, 0x6000⟩, portCas1 := ⟨0xFF00, 0x7000⟩, portMotor := ⟨0x5000, 0x50FF⟩
    sampleAlgebra := 0
    portsKeyboard := [⟨0xFFFF, 0x8000⟩], portsVideo := [⟨0xF000, 0x2000⟩], portsSound := [⟨0xFF00, 0x4000⟩]
    tapeCap := 268435456
    scanBreakPolicy := .resetCount
    insertFailClearsCatalog := false
    wrapGePort := false
    wrapGeMotor := false }

/-- Reset with the illustrative parameters. -/
def blank : State := { State.reset with cfg := testCfg }

/-- A tape of symbols in the codec, without a catalog. -/
def withTape (bits : List Byte) : State := blank.loadTape bits

def ones (n : Nat) : List Byte := List.replicate n symOne
def zeros (n : Nat) : List Byte := List.replicate n symZero

/-- A field of the next state. -/
def after {α : Type} (o : Outcome State Fault Refusal) (f : State → α) : Option α :=
  match o with
  | .next t => some (f t)
  | .fault _ => none
  | .refused _ => none

/-- The refusals marked in the next state (R182). -/
def marks (o : Outcome State Fault Refusal) : Option (List RefusalReason) := after o (·.refusals)

/-- A name of `n` given bytes and spaces. -/
def padded (bs : List Byte) : List Byte := bs ++ List.replicate (17 - bs.length) 0x20#8

/-- The frame of V20: type 0x01, name `HELLO`, the unread positions `'1'`. -/
def frame : List Byte :=
  ones 40 ++ zeros 40 ++ ones 2 ++ symbolsOf 0x01 ++ ones 1
    ++ (padded [0x48, 0x45, 0x4C, 0x4C, 0x4F]).flatMap fun b => symbolsOf b ++ ones 1

/-- Patterns at 0 and 800 (V45). -/
def twoPatterns : List Byte := ones 40 ++ zeros 760 ++ ones 40 ++ zeros 40

/-- The tape of V45 with its catalog (names are spaces here), one sample in a ring of two, a request waiting. -/
def loaded (cfg : Config) : State :=
  { blank.loadTape twoPatterns with
    cfg := cfg
    cat := [⟨padded [], 0⟩, ⟨padded [], 800⟩]
    ring := [(0, ⟨7⟩)]
    ringCap := 2
    wcur := 1
    configured := true
    requests := [encode (.tselect 1), encode .nop] }

/-- Both sites wrap with `>=`. -/
def geCfg : Config := { testCfg with wrapGePort := true, wrapGeMotor := true }

/-! ### WellFormed refuses each ill-formed operation -/

theorem test_wellFormed_rate : (Instr.aconfig (some 0) none none).wellFormed = false := by decide
theorem test_wellFormed_vol_high : (Instr.aconfig none none (some (mkRat 3 2))).wellFormed = false := by decide
theorem test_wellFormed_vol_low : (Instr.aconfig none none (some (mkRat (-1) 2))).wellFormed = false := by decide
theorem test_wellFormed_edges : (Instr.aconfig (some 1) (some 0) (some 0)).wellFormed = true ∧
    (Instr.aconfig none none (some 1)).wellFormed = true := by decide

/-! ### Decoding: the words of 30_encoding.md R70 and R71, bit by bit -/

theorem test_decode_nop : decodeTableWord 8 0b0000 = some .nop := by decide
theorem test_decode_tinsert : decodeTableWord 8 0b0001 = some (.tinsert none) := by decide
theorem test_decode_teject : decodeTableWord 8 0b0010 = some .teject := by decide
theorem test_decode_tselect : decodeTableWord 8 0b0011 = some (.tselect 0) := by decide
theorem test_decode_tcur : decodeTableWord 8 0b0100 = some .tcur := by decide
theorem test_decode_tcatn : decodeTableWord 8 0b0101 = some .tcatn := by decide
theorem test_decode_tcate : decodeTableWord 8 0b0110 = some (.tcate 0) := by decide
theorem test_decode_casrd : decodeTableWord 8 0b0111 = some .casrd := by decide
theorem test_decode_tpoll : decodeTableWord 8 0b1000 = some (.tpoll 0 0) := by decide
theorem test_decode_motorw : decodeTableWord 8 0b1001 = some (.motorw 0 0) := by decide
theorem test_decode_aconfig : decodeTableWord 8 0b1010 = some (.aconfig none none none) := by decide
theorem test_decode_apulse : decodeTableWord 8 0b1011 = some (.apulse false ⟨0⟩ ⟨0⟩) := by decide
theorem test_decode_reserved : decodeTableWord 8 0b1100 = some (.reserved 0) ∧ decodeTableWord 8 0b1101 = some (.reserved 1) ∧
    decodeTableWord 8 0b1110 = some (.reserved 2) ∧ decodeTableWord 8 0b1111 = some (.reserved 3) := by decide

/-- Each operand comes from the line its row names. -/
theorem test_decode_operands : decode 0x8#4 { OperandLines.idle with tick := 992, prn := 1 } = .tpoll 992 1 ∧
    decode 0x9#4 { OperandLines.idle with data := 0x02, tick := 100 } = .motorw 0x02 100 ∧
    decode 0xA#4 { OperandLines.idle with rate := some 22050, count := some 256 } = .aconfig (some 22050) (some 256) none ∧
    decode 0xB#4 { OperandLines.idle with bstrobe := true, bval := ⟨1⟩, pval := ⟨2⟩ } = .apulse true ⟨1⟩ ⟨2⟩ := by decide

/-- What is not one byte with a zero upper half carries no code. -/
theorem test_decode_rejects : decodeCode [] = .error .noCode ∧ decodeCode [0x10] = .error .codeTooWide ∧
    decodeCode [0x01, 0x00] = .error .extraBytes := by decide

/-! ### Tape ingest and header scan -/

/-- V10. -/
theorem test_tinsert_raw : after (exec (.tinsert (some [0xA5])) blank) (fun t => (t.result, t.tape.readRun 0 8, t.length, t.cursor, t.cat)) =
    some (.success true, [1, 0, 1, 0, 0, 1, 0, 1].map (fun b => some (if b = 1 then symOne else symZero)), 8, 0, []) := by decide

/-- V12: the bytes of `1 0`, newline, `1x1`. -/
theorem test_tinsert_ascii : after (exec (.tinsert (some [0x31, 0x20, 0x30, 0x0A, 0x31, 0x78, 0x31])) blank)
    (fun t => (t.tape, t.length)) = some ([(0, symOne), (1, symZero), (2, symOne), (3, symOne)], 4) := by decide

/-- V2, V18, V19: the container header. -/
theorem test_container_header :
    normalise testCfg (testCfg.magic ++ List.replicate 8 0x00 ++ [0xA5]) = [symOne, symZero, symOne, symZero, symZero, symOne, symZero, symOne] ∧
    normalise testCfg (testCfg.magic ++ List.replicate 8 0x00) = [] ∧
    (normalise testCfg (testCfg.magic ++ List.replicate 7 0x00)).length = 120 := by decide

/-- V9. -/
theorem test_teject : after (exec .teject { withTape (symbolsOf 0xA5) with cursor := 5, bitLatch := 1 })
    (fun t => (t.length, t.cursor, t.cat, t.bitLatch)) = some (0, 0, [], 1) := by decide

/-- The offsets a scan finds, under a policy. -/
def offsets (policy : ScanBreakPolicy) (bits : List Byte) : List Nat :=
  ({ withTape bits with cfg := { testCfg with scanBreakPolicy := policy } } : State).scanAll.1.map CatEntry.offset

set_option maxRecDepth 4000 in
/-- V14. -/
theorem test_scan_break :
    offsets .resetCount (ones 40 ++ zeros 5 ++ ones 40 ++ zeros 40) = [45] ∧
    offsets .resetNocount (ones 40 ++ zeros 5 ++ ones 40 ++ zeros 40) = [] ∧
    offsets .ignore (ones 40 ++ zeros 5 ++ ones 40 ++ zeros 40) = [40] := by decide

set_option maxRecDepth 4000 in
/-- V40, V42, V43. -/
theorem test_scan_edges : offsets .resetCount (zeros 10 ++ ones 39 ++ zeros 40) = [] ∧
    offsets .resetCount (zeros 10 ++ ones 40 ++ zeros 39) = [] ∧
    offsets .resetCount (zeros 10 ++ ones 100 ++ zeros 40) = [70] := by decide

/-- V25. -/
theorem test_field8 : (withTape (symbolsOf 0x80)).field8 0 0 = (0x80, 0) ∧ (withTape (symbolsOf 0x48)).field8 0 0 = (0x48, 0) := by decide

set_option maxRecDepth 4000 in
/-- V20. -/
theorem test_frame : (withTape frame).scanPass 0 0 = (some 0, 0) ∧ (withTape frame).headerType 0 0 = (0x01, 0) ∧
    (withTape frame).decodeName 0 0 = (padded [0x48, 0x45, 0x4C, 0x4C, 0x4F], 0) := by decide

/-- V22. -/
theorem test_sanitize : ([0x41, 0x20, 0x21, 0x7A, 0x7B, 0x00, 0xFF, 0x7E, 0x1F, 0x80] : List Byte).map sanitize =
    [0x41, 0x20, 0x21, 0x7A, 0x20, 0x20, 0x20, 0x20, 0x20, 0x20] := by decide

/-! ### Catalog and cursor -/

/-- Entries at the given offsets. -/
def withOffsets (os : List Nat) (cursor : Nat) : State :=
  { blank with cat := os.map (fun o => ⟨padded [0x41], o⟩), cursor := cursor }

/-- V26. -/
theorem test_tcur : after (exec .tcur (withOffsets [0, 960, 2000] 2000)) (·.result) = some (.index 2) ∧
    after (exec .tcur (withOffsets [0, 960, 2000] 2001)) (·.result) = some (.index 0) := by decide

/-- V27. -/
theorem test_tselect : after (exec (.tselect 1) (withOffsets [0, 960] 7)) (·.cursor) = some 960 ∧
    after (exec (.tselect 0) (withOffsets [500] 7)) (·.cursor) = some 0 ∧
    after (exec (.tselect 2) (withOffsets [0, 960] 7)) (fun t => (t.cursor, t.refusals)) = some (7, [.catalogIndexOutOfRange]) := by decide

/-- V28. -/
theorem test_tcatn : after (exec .tcatn (withOffsets [500] 0)) (·.result) = some (.count 1) := by decide

/-- V28. -/
theorem test_tcate : after (exec (.tcate 0) (withOffsets [500] 0)) (·.result) = some (.entry (padded [0x41]) 500) ∧
    marks (exec (.tcate 1) (withOffsets [500] 0)) = some [.catalogIndexOutOfRange] := by decide

/-- V30, rows 1 to 3. -/
theorem test_casrd : after (exec .casrd (withTape [symOne, symZero, symOne])) (fun t => (t.result, t.cursor)) = some (.data 0x80, 1) ∧
    after (exec .casrd { withTape [symOne, symZero, symOne] with cursor := 1 }) (fun t => (t.result, t.cursor)) = some (.data 0x00, 2) ∧
    after (exec .casrd { withTape [symOne, symZero, symOne] with cursor := 2 }) (fun t => (t.result, t.cursor)) = some (.data 0x80, 3) := by decide

/-- V30, row 4, and V31, row 3. -/
theorem test_casrd_wrap : after (exec .casrd { withTape [symOne, symZero, symOne] with cursor := 3 }) (·.cursor) = some 0 ∧
    after (exec .casrd { withTape [symOne, symZero, symOne] with cfg := geCfg, cursor := 2 }) (fun t => (t.result, t.cursor)) =
      some (.data 0x80, 0) := by decide

/-! ### Motor and bit reader -/

/-- The start of V36. -/
def running : State := { withTape [symOne, symZero] with engaged := true, speed := .boost }

/-- V36, rows 1 and 2. -/
theorem test_tpoll : after (exec (.tpoll 320 0) running) (fun t => (t.result, t.cursor)) = some (.status 0x3B, 0) ∧
    after (exec (.tpoll 992 0) running) (fun t => (t.result, t.bitLatch, t.tickAtLastAdvance, t.cursor)) = some (.status 0xBB, 1, 992, 1) := by decide

/-- V36, row 6; V37, row 1; V38. -/
theorem test_tpoll_latch :
    after (exec (.tpoll 2944 0) { running with bitLatch := 1, tickAtLastAdvance := 992, cursor := 1 })
      (fun t => (t.result, t.bitLatch, t.cursor)) = some (.status 0xBB, 0, 2) ∧
    after (exec (.tpoll 0 1) (withTape [symOne])) (·.result) = some (.status 0x7F) ∧
    marks (exec (.tpoll 5 0) { running with tickAtLastAdvance := 100 }) = some [.tickWentBackwards] := by decide

/-- V39, rows 1 and 4. -/
theorem test_motorw : after (exec (.motorw 0x02 100) blank) (fun t => (t.engaged, t.speed, t.tickAtLastAdvance, t.pulseLatch)) =
      some (true, .boost, 100, true) ∧
    after (exec (.motorw 0x02 400) { running with tickAtLastAdvance := 100 })
      (fun t => (t.engaged, t.speed, t.tickAtLastAdvance, t.pulseLatch)) = some (false, .normal, 100, true) := by decide

/-- V39, rows 2 and 5. -/
theorem test_motorw_held : after (exec (.motorw 0x02 200) { running with pulseLatch := true }) (fun t => (t.engaged, t.pulseLatch)) =
      some (true, true) ∧
    after (exec (.motorw 0xFD 500) { blank with pulseLatch := true }) (fun t => (t.engaged, t.pulseLatch)) = some (false, false) := by decide

/-! ### Mixer, reserved codes -/

/-- V50 and V53. -/
theorem test_aconfig : after (exec (.aconfig none (some 4) none) blank) (fun t => (t.sampleRate, t.ringCap, t.volume, t.wcur, t.configured)) =
      some (44100, 4, mkRat 1 2, 0, true) ∧
    after (exec (.aconfig (some 22050) (some 256) (some 1)) blank) (fun t => (t.sampleRate, t.ringCap, t.volume)) =
      some (22050, 256, 1) := by decide

/-- V53. -/
theorem test_aconfig_limits : after (exec (.aconfig none (some 5000) none) blank) (·.ringCap) = some 1024 ∧
    after (exec (.aconfig none (some 0) none) blank) (·.ringCap) = some 128 ∧
    after (exec (.aconfig none none (some (mkRat 3 2))) blank) (fun t => (t.configured, t.refusals)) = some (false, [.volumeOutOfRange]) ∧
    marks (exec (.aconfig none none none) { blank with configured := true }) = some [.reconfigure] := by decide

/-- V51, pulses 1 and 2 (`ringCap` = 2). -/
theorem test_apulse : after (exec (.apulse false ⟨0⟩ ⟨0⟩) { blank with ringCap := 2 }) (fun t => (t.result, t.psgPhase, t.wcur)) =
      some (.psgTick false, 1, 0) ∧
    after (exec (.apulse true ⟨1⟩ ⟨2⟩) { blank with ringCap := 2, psgPhase := 1 }) (fun t => (t.result, t.psgPhase, t.wcur, t.ring)) =
      some (.psgTick true, 0, 1, [(0, testCfg.sumName ⟨1⟩ ⟨2⟩)]) := ⟨by decide, rfl⟩

/-- V51, pulse 4. -/
theorem test_apulse_flush :
    after (exec (.apulse true ⟨3⟩ ⟨4⟩) { blank with ringCap := 2, psgPhase := 1, wcur := 1, ring := [(0, ⟨3⟩)] })
      (fun t => (t.result, t.psgPhase, t.wcur, t.event)) =
      some (.psgTick true, 0, 0, some { samples := [⟨3⟩, testCfg.sumName ⟨3⟩ ⟨4⟩], count := 2 }) := rfl

/-- V55. -/
theorem test_nop : after (exec .nop { running with cursor := 1 }) (fun t => (t.result, t.cursor, t.engaged)) = some (.none, 1, true) := by decide

/-- V55. -/
theorem test_reserved : marks (exec (.reserved 0) blank) = some [.reservedOp] ∧ marks (exec (.reserved 3) blank) = some [.reservedOp] := by decide

/-! ### The hypotheses of each obligation can be met -/

theorem twoPatterns_symbols : ∀ x ∈ twoPatterns, x = symZero ∨ x = symOne := by
  simp only [twoPatterns, ones, zeros, List.mem_append, List.mem_replicate]
  rintro x (((⟨-, rfl⟩ | ⟨-, rfl⟩) | ⟨-, rfl⟩) | ⟨-, rfl⟩) <;> simp

theorem twoPatterns_length : twoPatterns.length = 880 := by simp [twoPatterns, ones, zeros, -List.reduceReplicate]

theorem loaded_length (cfg : Config) : (loaded cfg).length = 880 := twoPatterns_length

theorem loaded_read (cfg : Config) {a : Nat} (h : a < 880) : (loaded cfg).tape.read a = twoPatterns[a]? := by
  rw [show (loaded cfg).tape = (blank.loadTape twoPatterns).tape from rfl, State.loadTape_read, twoPatterns_length, if_pos h]

/-- The entries and the ring of `loaded` are in order. -/
theorem loaded_lists :
    ((⟨padded [], 0⟩ : CatEntry) :: [⟨padded [], 800⟩]).Pairwise (fun e f => e.offset + 800 ≤ f.offset) ∧
    (∀ e ∈ ((⟨padded [], 0⟩ : CatEntry) :: [⟨padded [], 800⟩]), e.offset + 79 < 880 ∧ e.name.length = 17 ∧ ∀ b ∈ e.name, b = 0x20#8) ∧
    Memory.wf [(0, (⟨7⟩ : SampleName))] ∧ ∀ c ∈ [(0, (⟨7⟩ : SampleName))], c.1 < 2 := by decide

theorem loaded_tape_wf (cfg : Config) : (loaded cfg).tape.wf := Memory.wf_writeRun List.Pairwise.nil 0 twoPatterns

/-- `loaded` meets the invariant: `StepKeepsInvariant`, `CatalogFitsItsStore`, `SelectedCursorIsZeroOrAtAPattern`,
`CurrentEntryIsTheLastUntilPassed`, `FlushDeliversOnlyWrittenSamples`, `UnrefusedOperationsComplete`. -/
theorem loaded_inv {cfg : Config} (hcfg : cfg.wf = true) (hcap : cfg.tapeCap = 268435456) : (loaded cfg).Inv where
  cfgOk := hcfg
  tapeCanonical := loaded_tape_wf cfg
  ringCanonical := loaded_lists.2.2.1
  tapeInBuffer c hc := by
    show c.1 < cfg.tapeCap
    rcases Memory.mem_writeRun hc with h | h
    · cases h
    · rw [twoPatterns_length] at h; omega
  lengthBound := by rw [loaded_length]; show 880 ≤ cfg.tapeCap; omega
  symbols := blank.loadTape_symbols twoPatterns_symbols
  cursorBound := Nat.zero_le _
  catOffsets e he := by rw [loaded_length]; exact (loaded_lists.2.1 e he).1
  catAscending := loaded_lists.1
  catNames e he := ⟨(loaded_lists.2.1 e he).2.1, fun b hb => .inr ((loaded_lists.2.1 e he).2.2 b hb)⟩
  speedEngaged := by show Speed.normal = .boost ↔ false = true; decide
  ringCapPos := by show 1 ≤ 2; decide
  ringCapMax := by show 2 ≤ 1024; decide
  wcurBound := by show 1 < 2; decide
  ringInUse := loaded_lists.2.2.2
  ringFilled i hi := ⟨⟨7⟩, by rw [show i = 0 from by have : i < 1 := hi; omega]; rfl⟩
  unconfigured h := by cases h
  ratePos := by show 0 < 44100; decide
  volumeRange := by show 0 ≤ mkRat 1 2 ∧ mkRat 1 2 ≤ 1; decide

theorem test_inv : (loaded testCfg).Inv ∧ (loaded geCfg).Inv :=
  ⟨loaded_inv (by decide) rfl, loaded_inv (by decide) rfl⟩

/-- The pattern stands at 0 and at 800, the last place where it fits. -/
theorem loaded_pattern (cfg : Config) : (loaded cfg).patternAt 0 ∧ (loaded cfg).patternAt 800 := by
  have h1 : ∀ j < 40, twoPatterns[0 + j]? = some symOne ∧ twoPatterns[800 + j]? = some symOne := by
    intro j hj
    simp only [twoPatterns, ones, zeros, List.getElem?_append, List.getElem?_replicate, List.length_append, List.length_replicate]
    split_ifs <;> first | omega | exact ⟨rfl, rfl⟩
  have h0 : ∀ j < 40, twoPatterns[0 + 40 + j]? = some symZero ∧ twoPatterns[800 + 40 + j]? = some symZero := by
    intro j hj
    simp only [twoPatterns, ones, zeros, List.getElem?_append, List.getElem?_replicate, List.length_append, List.length_replicate]
    split_ifs <;> first | omega | exact ⟨rfl, rfl⟩
  have ne : symZero ≠ symOne := by decide
  refine ⟨⟨by rw [loaded_length]; omega, fun j hj => ?_, fun j hj => ⟨symZero, ?_, ne⟩⟩,
    ⟨by rw [loaded_length]; omega, fun j hj => ?_, fun j hj => ⟨symZero, ?_, ne⟩⟩⟩
  · rw [loaded_read cfg (by omega)]; exact (h1 j hj).1
  · rw [loaded_read cfg (by omega)]; exact (h0 j hj).1
  · rw [loaded_read cfg (by omega)]; exact (h1 j hj).2
  · rw [loaded_read cfg (by omega)]; exact (h0 j hj).2

/-- `StepKeepsInvariant`, `StepKeepsCatalogMatchingTape`. -/
theorem test_step_from_inv : (loaded testCfg).Inv ∧ (loaded testCfg).catalogMatchesTape ∧ ∃ t, step (loaded testCfg) = .next t := by
  refine ⟨test_inv.1, fun _ e he => ?_, _, rfl⟩
  simp only [loaded, List.mem_cons, List.not_mem_nil, or_false] at he
  rcases he with rfl | rfl
  · exact (loaded_pattern testCfg).1
  · exact (loaded_pattern testCfg).2

/-- `StepRunsTheNextRequest`. -/
theorem test_requests : (loaded testCfg).requests = encode (.tselect 1) :: [encode .nop] ∧ blank.requests = [] ∧ 15 < 16 :=
  ⟨rfl, rfl, by decide⟩

/-- `NopAndReservedCodes`: the ends of the range. -/
theorem test_reserved_range : 0xC#4 ≤ 0xC#4 ∧ 0xC#4 ≤ 0xF#4 := by decide

/-- `InsertValidityAndCapacity`, `InsertStoresTheBitstream`: a tape that just fits, and one that does not. -/
theorem test_capacity_edges : (normalise testCfg [0xA5]).length ≤ ({ testCfg with tapeCap := 8 } : Config).tapeCap ∧
    ({ testCfg with tapeCap := 7 } : Config).tapeCap < (normalise testCfg [0xA5]).length := by decide

/-- `RawBinaryExpandsMostSignificantFirst`: the ends of the byte. -/
theorem test_raw_binary : isAscii [0xA5] = false ∧ skipLen testCfg [0xA5] ≤ 0 ∧ ([0xA5] : List Byte)[0]? = some 0xA5 ∧
    (normalise testCfg [0xA5])[0]? = some symOne ∧ (normalise testCfg [0xA5])[7]? = some symOne := by decide

/-- `ContainerHeaderIsSkipped`: 16 bytes that begin with the tag, and 15. -/
theorem test_container_edges : testCfg.wf = true ∧
    (16 ≤ (testCfg.magic ++ List.replicate 8 0#8).length ∧ testCfg.magic <+: testCfg.magic ++ List.replicate 8 0#8) ∧
    isAscii (testCfg.magic ++ List.replicate 7 0#8) = false ∧ ¬ 16 ≤ (testCfg.magic ++ List.replicate 7 0#8).length :=
  ⟨by decide, ⟨by decide, List.prefix_append _ _⟩, by decide, by decide⟩

/-- `EjectEmptiesTheCodec`, `BitReadAfterEjectLeavesCodecEmpty`, `CatalogCountIsReturned`. -/
theorem test_eject_completes : ∃ t, exec .teject (loaded testCfg) = .next t ∧ t.tickAtLastAdvance ≤ 0 := ⟨_, rfl, by decide⟩

/-- `PassFindsTheFirstPattern`: the pass from 0 and the one from 1. -/
theorem test_first_pattern : (loaded testCfg).tape.wf ∧ (loaded testCfg).tapeWritten ∧
    (loaded testCfg).cfg.scanBreakPolicy = .resetCount ∧ (loaded testCfg).firstPatternFrom 0 0 :=
  ⟨loaded_tape_wf _, State.tapeWritten_of_symbols test_inv.1.symbols, rfl, Nat.le_refl 0, (loaded_pattern _).1, by omega⟩

set_option maxRecDepth 4000 in
/-- `DeclaredHeadersStandAtPatterns`: a header at the very end of the tape, where the pass starts. -/
theorem test_declared : (withTape (zeros 10 ++ ones 40 ++ zeros 40)).scanPass 0 10 = (some 10, 0) := by decide

/-- `CatalogListsPatternsInOrder`, `InsertStoresTheBitstream`, `CatalogNamesAreDecodedFromTheTape`, and `CatalogCountIsReturned` for a scan without a header. -/
theorem test_insert_completes : blank.tape.wf ∧ blank.cfg.scanBreakPolicy = .resetCount ∧
    (normalise blank.cfg [0xA5]).length ≤ blank.cfg.tapeCap ∧ (blank.loadTape (normalise blank.cfg [0xA5])).scanAll.1 = [] ∧
    ∃ t, exec (.tinsert (some [0xA5])) blank = .next t :=
  ⟨List.Pairwise.nil, rfl, by decide, by decide, _, rfl⟩

set_option maxRecDepth 4000 in
/-- `CatalogListsPatternsInOrder`: a tape with a header (V4a). -/
theorem test_insert_header : after (exec (.tinsert (some (ones 40 ++ zeros 40))) blank) (fun t => t.cat.map CatEntry.offset) = some [0] := by decide

/-- `BrokenBoundaryRunFollowsThePolicy`: the longest broken run, and as many `'1'` after it as `reset_count` needs. -/
theorem test_broken_layout :
    let s := withTape (ones 40 ++ zeros 39 ++ ones 40 ++ zeros 40)
    s.tape.wf ∧ s.length = 0 + 40 + 39 + 40 + 40 ∧ s.onesAt 0 40 ∧ s.othersAt (0 + 40) 39 ∧ s.onesAt (0 + 40 + 39) 40 ∧
      s.othersAt (0 + 40 + 39 + 40) 40 := by
  have h : ∀ i < 159, (withTape (ones 40 ++ zeros 39 ++ ones 40 ++ zeros 40)).tape.read i =
      some (if i < 40 then symOne else if i < 79 then symZero else if i < 119 then symOne else symZero) := by
    intro i hi
    rw [withTape, State.loadTape_read, if_pos (by simpa [ones, zeros, -List.reduceReplicate] using hi)]
    simp only [ones, zeros, List.getElem?_append, List.getElem?_replicate, List.length_append, List.length_replicate]
    split_ifs <;> first | omega | rfl
  have ne : symZero ≠ symOne := by decide
  refine ⟨Memory.wf_writeRun List.Pairwise.nil 0 _, by simp [withTape, ones, zeros, -List.reduceReplicate], fun i hi => ?_, fun i hi => ⟨symZero, ?_, ne⟩,
    fun i hi => ?_, fun i hi => ⟨symZero, ?_, ne⟩⟩
  all_goals
    rw [h _ (by omega)]
    split_ifs <;> first | omega | rfl

set_option maxRecDepth 8000 in
/-- `BrokenBoundaryRunFollowsThePolicy`: 40 and 41 symbols `'1'` after the broken run (R103, counted by hand). -/
theorem test_broken_policies :
    offsets .resetCount (ones 40 ++ zeros 39 ++ ones 40 ++ zeros 40) = [79] ∧
    offsets .resetNocount (ones 40 ++ zeros 39 ++ ones 40 ++ zeros 40) = [] ∧
    offsets .resetNocount (ones 40 ++ zeros 39 ++ ones 41 ++ zeros 40) = [80] ∧
    offsets .ignore (ones 40 ++ zeros 39 ++ ones 1 ++ zeros 40) = [1] := by decide

set_option maxRecDepth 8000 in
/-- `CatalogNamesAreDecodedFromTheTape`: the entry of V20, whose frame lies within the tape. -/
theorem test_insert_name : after (exec (.tinsert (some frame)) blank) (fun t => (t.cat, t.length, t.draws)) =
    some ([⟨padded [0x48, 0x45, 0x4C, 0x4C, 0x4F], 0⟩], 244, 0) := by decide

set_option maxRecDepth 8000 in
/-- `CatalogNamesAreDecodedFromTheTape`: the tape of V20 ends with the second character of its name (R113). -/
theorem test_insert_cut_name : after (exec (.tinsert (some (frame.take 108))) blank)
    (fun t => (t.cat.map fun e => e.name.take 2, t.length)) = some ([[0x48, 0x45]], 108) := by decide

/-- `FieldDecodeInvertsExpansion`: the last eight symbols of a tape. -/
theorem test_field_edge : 0 + 8 ≤ (withTape (symbolsOf 0xC3)).length ∧ ∀ j < 8, (withTape (symbolsOf 0xC3)).tape.read (0 + j) =
    some (if (0xC3#8).getLsbD (7 - j) then 0x31#8 else 0x30#8) := by decide

set_option maxRecDepth 4000 in
/-- `NameCharactersAreSpacedFields`: a frame whose last read symbol is the last of the tape. -/
theorem test_name_edge : (withTape (frame.take 243)).tapeWritten ∧ 0 + 242 < (withTape (frame.take 243)).length := by
  refine ⟨State.tapeWritten_of_symbols (State.loadTape_symbols _ ?_), by decide⟩
  intro x hx
  exact (by decide : ∀ x ∈ frame, x = symZero ∨ x = symOne) x (List.mem_of_mem_take hx)

/-- `NamesAreSeventeenPrintableBytes`: both ends of the range and the bytes beside them. -/
theorem test_printable_edges : (0x21#8 ≤ 0x21#8 ∧ 0x21#8 ≤ 0x7A#8) ∧ (0x21#8 ≤ 0x7A#8 ∧ 0x7A#8 ≤ 0x7A#8) ∧
    ¬ (0x21#8 ≤ 0x20#8 ∧ 0x20#8 ≤ 0x7A#8) ∧ ¬ (0x21#8 ≤ 0x7B#8 ∧ 0x7B#8 ≤ 0x7A#8) := by decide

/-- `SymbolBitsAndDraws`: the last valid symbol and the index after it. -/
theorem test_symbol_edges : 7 < (withTape (symbolsOf 0xC3)).length ∧ (withTape (symbolsOf 0xC3)).tape.read 7 = some symOne ∧
    (withTape (symbolsOf 0xC3)).length ≤ 8 := by decide

/-- `CatalogEntryIsReturned`, `SelectSetsTheCursor`, `SelectedCursorIsZeroOrAtAPattern`, `CurrentEntryAfterSelectIsTheLast`:
the last entry and the index after it. -/
theorem test_entry_edges : (loaded testCfg).cat[1]? = some ⟨padded [], 800⟩ ∧ (loaded testCfg).cat.length ≤ 2 ∧ 1 ≠ 0 ∧ 1 < (loaded testCfg).catCount ∧
    ∃ t, exec (.tselect 1) (loaded testCfg) = .next t ∧ t.cursor + 79 < t.length := by
  refine ⟨rfl, Nat.le_refl 2, by decide, by decide, _, rfl, ?_⟩
  show 800 + 79 < (loaded testCfg).length
  rw [loaded_length]; omega

/-- `CurrentEntryIsTheLastUntilPassed`: the cursor at the last header, just past it, and an empty catalog. -/
theorem test_current_edges :
    (∃ s : State, s.Inv ∧ s.cat.getLast? = some ⟨padded [], 800⟩ ∧ s.cursor = 800) ∧
    (∃ s : State, s.Inv ∧ s.cat.getLast? = some ⟨padded [], 800⟩ ∧ s.cursor = 801) ∧ ∃ s : State, s.Inv ∧ s.cat = [] := by
  have hi := test_inv.1
  refine ⟨⟨{ loaded testCfg with cursor := 800 }, ?_, by decide, rfl⟩, ⟨{ loaded testCfg with cursor := 801 }, ?_, by decide, rfl⟩,
    { loaded testCfg with cat := [] }, ?_, rfl⟩
  · exact hi.congr rfl rfl rfl (by show 800 ≤ (loaded testCfg).length; rw [loaded_length]; omega) rfl hi.speedEngaged rfl rfl rfl rfl rfl (.inl rfl)
  · exact hi.congr rfl rfl rfl (by show 801 ≤ (loaded testCfg).length; rw [loaded_length]; omega) rfl hi.speedEngaged rfl rfl rfl rfl rfl (.inl rfl)
  · exact { hi with catOffsets := by simp, catAscending := List.Pairwise.nil, catNames := by simp }

/-- `CursorStaysBelowLengthWhenBothSitesWrapAtIt`. -/
theorem test_ge_sites : (loaded geCfg).Inv ∧ (loaded geCfg).cfg.wrapGePort = true ∧ (loaded geCfg).cfg.wrapGeMotor = true ∧
    (loaded geCfg).cursor < (loaded geCfg).length ∧ ∃ t, step (loaded geCfg) = .next t :=
  ⟨test_inv.2, rfl, rfl, by rw [loaded_length]; exact Nat.zero_lt_succ 879, _, rfl⟩

/-- `PortReadPopsOneBit`, `PollThatAdvancesTakesOneBit`: a written symbol, one not written, the end of the tape. -/
theorem test_pop_cases :
    ((withTape [symOne]).cursor < 1 ∧ (withTape [symOne]).cursor < testCfg.tapeCap ∧ (withTape [symOne]).tape.read 0 = some symOne) ∧
    (({ blank with length := 1 } : State).cursor < 1 ∧ ({ blank with length := 1 } : State).tape.read 0 = none) ∧
    ({ withTape [symOne] with cursor := 1 } : State).length ≤ 1 := by decide

/-- `EmptyCodecReadLeavesTheState`. -/
theorem test_empty_codec : blank.length = 0 ∧ blank.cursor = 0 := by decide

/-- `TapeLoopsWithItsPeriod`, under either comparator. -/
theorem test_loop : ((withTape [symOne, symZero, symOne]).cursor = 0 ∧ (withTape [symOne, symZero, symOne]).length ≤ testCfg.tapeCap ∧
    (withTape [symOne, symZero, symOne]).tape.read 2 = some symOne ∧ testCfg.wrapGePort = false) ∧ geCfg.wrapGePort = true := by decide

/-- `PollWithoutAdvanceWritesNothing`, `PollThatAdvancesTakesOneBit`, `StatusByteFields`: the threshold and one above. -/
theorem test_poll_edges : running.tickAtLastAdvance ≤ 991 ∧ (991 - running.tickAtLastAdvance) / 32 = running.cfg.tAdv0 ∧
    running.cfg.tAdv0 < (992 - running.tickAtLastAdvance) / 32 ∧ (after (exec (.tpoll 991 0) running) (·.cursor)) = some 0 := by decide

/-- `PollThatAdvancesTakesOneBit`: all its hypotheses together, for the first symbol and past the last one. -/
theorem test_poll_advances : (running.tickAtLastAdvance ≤ 992 ∧ 31 = (992 - running.tickAtLastAdvance) / 32 ∧
      (if running.bitLatch = 1 then running.cfg.tAdv1 else running.cfg.tAdv0) < 31 ∧ running.cfg.wrapGeMotor = false ∧
      running.cursor < running.length ∧ running.cursor < running.cfg.tapeCap ∧ running.tape.read running.cursor = some symOne) ∧
    (blank.tickAtLastAdvance ≤ 992 ∧ 31 = (992 - blank.tickAtLastAdvance) / 32 ∧
      (if blank.bitLatch = 1 then blank.cfg.tAdv1 else blank.cfg.tAdv0) < 31 ∧ blank.length ≤ blank.cursor) := by decide

/-- `AsciiInputKeepsExactlyItsSymbols`, on V12 and V13. -/
theorem test_ascii_inputs : (0x31#8 = 0x30#8 ∨ 0x31#8 = 0x31#8) ∧ normalise testCfg [0x31, 0x20, 0x30] = [symOne, symZero] ∧
    normalise testCfg [0x30, 0xA5] = [symZero] := by decide

/-- `MotorWriteTogglesOnAPulse`, `HeldControlBitIsOnePulse`: each case. -/
theorem test_motor_cases : (0x02#8).getLsbD testCfg.motorCtrlBit.val = true ∧ (0xFD#8).getLsbD testCfg.motorCtrlBit.val = false ∧
    (blank.pulseLatch = false ∧ blank.engaged = false) ∧ (running.pulseLatch = false ∧ running.engaged = true) ∧
    after (exec (.motorw 0x02 100) blank) (·.pulseLatch) = some true := by decide

/-- `MotorWriteTogglesOnAPulse`: the number of either speed, `SPEED_BOOST` being 2 here. -/
theorem test_speed_number : blank.speed = .normal ∧ blank.speedMultiplier = 1 ∧ running.speed = .boost ∧ running.speedMultiplier = 2 ∧
    running.cfg.wf = true := by decide

/-- `ConfigureStoresOptions`, `ConfigurationStaysClosed`: open and closed, both ends of the volume, counts at the limit. -/
theorem test_configure_cases : blank.configured = false ∧ (loaded testCfg).configured = true ∧ (mkRat (-1) 2 < 0 ∧ 1 < mkRat 3 2) ∧
    after (exec (.aconfig (some 1) (some 1024) (some 0)) blank) (fun t => (t.sampleRate, t.ringCap, t.volume)) = some (1, 1024, 0) ∧
    after (exec (.aconfig none (some 1025) (some 1)) blank) (fun t => (t.ringCap, t.volume)) = some (1024, 1) := by decide

/-- `PulsePushesOneSum`, `PulseThatFillsTheRingFlushes`, `ConfigurationStaysClosed`: room left, none left, a host that
makes a request from inside the event. -/
theorem test_pulse_cases : blank.wcur + 1 ≠ blank.ringCap ∧ ((loaded testCfg).ring.wf ∧ (loaded testCfg).wcur + 1 = (loaded testCfg).ringCap ∧
    (loaded testCfg).callback = []) ∧ ({ loaded testCfg with callback := [[encode .nop]] } : State).callback.headD [] ≠ [] := by decide

/-- `PulseThatFillsTheRingFlushes`: a slot that nothing has written delivers a draw. -/
theorem test_flush_draws : after (exec (.apulse true ⟨1⟩ ⟨2⟩) { blank with ringCap := 2, wcur := 1 }) (fun t => (t.event, t.draws)) =
    some (some { samples := [Config.freeSample 0, testCfg.sumName ⟨1⟩ ⟨2⟩], count := 2 }, 1) := rfl

/-- `PulseThatFillsTheRingFlushes`, `RefusalsAreExactlyTheTable`: the host makes two requests from inside the event, a
`TEJECT` and a reserved code; both are refused, the tape stays, and the pulse completes (R186). -/
theorem test_reentry : after (exec (.apulse true ⟨1⟩ ⟨2⟩)
      { blank with length := 3, ringCap := 1, callback := [[encode .teject, encode (.reserved 0)], [encode .nop]] })
    (fun t => (t.result, t.length, t.wcur, t.refusals, t.callback)) =
    some (.psgTick false, 3, 0, [.reentry, .reentry], [[encode .nop]]) := rfl

/-- `FlushDeliversOnlyWrittenSamples`. -/
theorem test_flush : (loaded testCfg).Inv ∧ ∃ t e, exec (.apulse true ⟨1⟩ ⟨2⟩) (loaded testCfg) = .next t ∧ t.event = some e ∧ e.count = 2 :=
  ⟨test_inv.1, _, _, rfl, rfl, rfl⟩

/-- `RingDeliversSumsInPushOrder`. -/
theorem test_push_order : ∃ s : State, s.Inv ∧ s.wcur = 0 ∧ [((⟨1⟩ : SampleName), (⟨2⟩ : SampleName)), (⟨3⟩, ⟨4⟩)].length = s.ringCap :=
  ⟨{ loaded testCfg with wcur := 0 }, { test_inv.1 with wcurBound := by decide, ringFilled := fun i hi => absurd hi (Nat.not_lt_zero i), unconfigured := nofun },
    rfl, rfl⟩

/-- `WritersOfEachRegister`, `ConfigurationStaysClosed`: an operation that completes and writes. -/
theorem test_writer : after (exec (.tselect 1) (loaded testCfg)) (fun t => (t.cursor, t.configured)) = some (800, true) := by decide

/-- `StoredOptionsAreNotRead`: two states that differ in all six, and an operation that completes, one that is refused. -/
theorem test_stored_options :
    (let s' : State := { blank with speed := .boost, sampleRate := 22050, volume := 1, refusals := [.reentry], result := .index 3,
                                    event := some ⟨[], 0⟩ }
     s' = { blank with speed := s'.speed, sampleRate := s'.sampleRate, volume := s'.volume, refusals := s'.refusals,
                       result := s'.result, event := s'.event }) ∧
    (∃ t, exec .casrd blank = .next t) ∧ marks (exec (.tcate 0) blank) = some [.catalogIndexOutOfRange] := ⟨rfl, ⟨_, rfl⟩, by decide⟩

/-- `RunsGoOnAndKeepTheMark`, `RefusalsAreExactlyTheTable`: a reserved code is refused and the `NOP` behind it is next
(P5, steps 8 and 9). -/
theorem test_refused_step :
    Refuses blank (encode (.reserved 0)).instr .reservedOp ∧
    after (step { blank with requests := [encode (.reserved 0), encode .nop] }) (fun t => (t.requests, t.refusals, t.result)) =
      some ([encode .nop], [.reservedOp], .none) := ⟨.reservedOp 0, rfl⟩

/-- `UnrefusedOperationsComplete`: to `NOP` no row of the table of refusals applies, and to `TPOLL` in its range none does. -/
theorem test_unrefused : (∀ r, ¬ Refuses blank .nop r) ∧ ∀ r, ¬ Refuses blank (.tpoll 0 0) r := by
  constructor
  · intro r h; cases h
  · intro r h
    cases h with
    | tickWentBackwards _ _ h => exact absurd h (by decide)
    | tpollOutOfBuffer _ _ _ h => exact absurd h (by decide)

/-- Pins of an IO access at an address. -/
def ioPins (a : BitVec 16) (read write : Bool) : BusPins := ⟨a, 0x02, false, true, read, write, false⟩

/-- `BusTransactionsSelectTheirOperation`: reads, by the address at each step of the decode order of R43. -/
theorem test_read_target : readTarget testCfg 0x8000 = .keyboard ∧ readTarget testCfg 0x2000 = .videoMode ∧
    readTarget testCfg 0x1FFF = .vram ∧ readTarget testCfg 0x4000 = .sound ∧ readTarget testCfg 0x60AB = .cassette ∧
    readTarget testCfg 0x5FFF = .later := by decide

/-- `BusTransactionsSelectTheirOperation`: a cassette-bit read, a VRAM read, a memory access. -/
theorem test_bus_read : busInstr testCfg (ioPins 0x6000 true false) 5 false = some .casrd ∧
    busInstr testCfg (ioPins 0x1FFF true false) 5 false = none ∧
    busInstr testCfg ⟨0x6000, 0x02, true, false, true, false, false⟩ 5 false = none := by decide

/-- `BusTransactionsSelectTheirOperation`: the byte of a cassette-bit read goes onto the data pins. -/
theorem test_bus_answer : after (exec .casrd (withTape [symOne])) (fun t => pinsAnswered (ioPins 0x6000 true false) t.result) =
    some ⟨0x6000, 0x80, false, true, true, false, false⟩ := by decide

/-- `BusTransactionsSelectTheirOperation`: both ends of the motor range and the address past it. -/
theorem test_bus_write : busInstr testCfg (ioPins 0x5000 false true) 5 false = some (.motorw 0x02 5) ∧
    busInstr testCfg (ioPins 0x50FF false true) 5 false = some (.motorw 0x02 5) ∧
    busInstr testCfg (ioPins 0x5100 false true) 5 false = none := by decide

/-- `BusTransactionsSelectTheirOperation`: both flags set with one pattern matching, and with both. -/
theorem test_bus_both_flags : busInstr testCfg (ioPins 0x6000 true true) 5 false = some .casrd ∧
    busInstr testCfg (ioPins 0x5000 true true) 5 true = some (.motorw 0x02 5) ∧
    busInstr { testCfg with portMotor := ⟨0x5000, 0x60FF⟩ } (ioPins 0x6000 true true) 5 true = some .casrd ∧
    busInstr { testCfg with portMotor := ⟨0x5000, 0x60FF⟩ } (ioPins 0x6000 true true) 5 false = some (.motorw 0x02 5) := by decide

/-- `DispatchAsksPulsesThenTransaction`: a read of the sound component's ports, in which it polls twice. -/
theorem test_dispatch_polls : readMade testCfg (ioPins 0x4000 true false) false .sound = true ∧
    dispatchInstrs testCfg ⟨[⟨false, ⟨1⟩, ⟨2⟩⟩], ioPins 0x4000 true false, 5, [⟨6, 0⟩, ⟨7, 1⟩], false⟩ =
      [.apulse false ⟨1⟩ ⟨2⟩, .tpoll 6 0, .tpoll 7 1] ∧ readMade testCfg (ioPins 0x6000 true false) false .sound = false := by decide

/-- `RunAccessIsTheLoopOfSingleAccesses`. -/
theorem test_canonical : Memory.wf [(0, symOne), (5, symZero)] := by decide

end Sys2Proof.Tests
end

section
/-! Scope: a step runs the operation of the next request (R7, R69), also where a table word presents that request. -/

namespace Sys2Proof

/-- A one-byte word that fits the code is the byte that carries that code. -/
theorem wordBytes_eight {w : Nat} (h : w < 16) : wordBytes 8 w = [(BitVec.ofNat 4 w).setWidth 8] := by
  have hbyte : BitVec.ofNat 8 w = (BitVec.ofNat 4 w).setWidth 8 := by
    apply BitVec.eq_of_toNat_eq
    simp only [BitVec.toNat_setWidth, BitVec.toNat_ofNat]
    omega
  rw [← hbyte]
  rfl

theorem decodeCode_wordBytes_eight {w : Nat} (h : w < 16) : decodeCode (wordBytes 8 w) = .ok (BitVec.ofNat 4 w) := by
  rw [wordBytes_eight h, Laws.decodeCode_setWidth]

namespace Machine

/-- A table word that carries a code puts one request at the front, its operand lines idle. -/
theorem State.withFetchWord_of_code (s : State) {nbits w : Nat} {op : BitVec 4}
    (h : decodeCode (wordBytes nbits w) = .ok op) : s.withFetchWord nbits w = s.present { code := op, lines := .idle } := by
  simp only [State.withFetchWord, State.presentWord, h]

/-- A presented request is the next to run, and the step takes it away again. -/
theorem step_present (s : State) (q : Request) : step (s.present q) = exec q.instr s :=
  step_cons rfl

/-- Settles O5: the waiting request and the empty list are the two cases of a step; a table word presents the request
of its code. -/
theorem stepRunsTheNextRequest : Obligations.StepRunsTheNextRequest := by
  refine ⟨fun s q qs h => step_cons h, fun s h => step_nil h, fun s w hw => ?_⟩
  rw [s.withFetchWord_of_code (decodeCode_wordBytes_eight hw), step_present]
  rfl

end Machine
end Sys2Proof
end

section
/-! Scope: every operation keeps the invariant of Safety.lean, one lemma per state operation (10_state.md), and so does a
step. -/

namespace Sys2Proof.Machine

variable {s t : State}

/-! ### Updates the invariant does not look at -/

theorem State.Inv.answer (h : s.Inv) (r : Result) : (s.answer r).Inv :=
  h.congr rfl rfl rfl h.cursorBound rfl h.speedEngaged rfl rfl rfl rfl rfl (.inl rfl)

theorem State.Inv.refuse (h : s.Inv) (r : RefusalReason) : (s.refuse r).Inv :=
  h.congr rfl rfl rfl h.cursorBound rfl h.speedEngaged rfl rfl rfl rfl rfl (.inl rfl)

theorem State.Inv.withRequests (h : s.Inv) (qs : List Request) : ({ s with requests := qs } : State).Inv :=
  h.congr rfl rfl rfl h.cursorBound rfl h.speedEngaged rfl rfl rfl rfl rfl (.inl rfl)

/-! ### The Tape Codec -/

theorem State.Inv.seek (h : s.Inv) {a : Nat} (ha : a ≤ s.length) : (s.seek a).Inv :=
  h.congr rfl rfl rfl ha rfl h.speedEngaged rfl rfl rfl rfl rfl (.inl rfl)

theorem State.Inv.popState (h : s.Inv) (site : Site) : (s.popState site).Inv :=
  h.congr rfl rfl rfl (wrapCursor_le _ h.cursorBound) rfl h.speedEngaged rfl rfl rfl rfl rfl (.inl rfl)

/-- Clearing the catalog needs no scan (R81, D6). -/
theorem State.Inv.clearCatalog (h : s.Inv) : ({ s with cat := [] } : State).Inv :=
  { h with
    catOffsets := by simp
    catAscending := .nil
    catNames := by simp }

theorem State.Inv.failedInsert (h : s.Inv) : s.failedInsert.Inv := by
  unfold State.failedInsert
  split
  · exact h.clearCatalog
  · exact h

theorem State.Inv.ejectTape (h : s.Inv) : s.ejectTape.Inv :=
  { h.clearCatalog with
    lengthBound := Nat.zero_le _
    symbols := fun _ hi => absurd hi (Nat.not_lt_zero _)
    cursorBound := Nat.le_refl 0
    catOffsets := by simp }

/-- A bitstream of symbols that fits its buffer (R82, R83). -/
theorem State.Inv.loadTape (h : s.Inv) {out : List Byte} (hlen : out.length ≤ s.cfg.tapeCap)
    (hsym : ∀ x ∈ out, x = symZero ∨ x = symOne) : (s.loadTape out).Inv :=
  { h.clearCatalog with
    tapeCanonical := Memory.wf_writeRun h.tapeCanonical 0 out
    tapeInBuffer := fun c hc => (Memory.mem_writeRun hc).elim (h.tapeInBuffer c) fun ⟨_, hlt⟩ => by
      rw [Nat.zero_add] at hlt
      exact Nat.lt_of_lt_of_le hlt hlen
    lengthBound := hlen
    symbols := s.loadTape_symbols hsym
    cursorBound := Nat.zero_le _
    catOffsets := by simp }

/-- The entries a scan appends meet the catalog's ranges (R13, R26, R108). -/
theorem State.Inv.fillCatalog (h : s.Inv) : s.fillCatalog.Inv := by
  obtain ⟨hentry, hasc⟩ := s.scanFrom_spec s.length 0 s.draws
  exact { h with
    catOffsets := fun e he => (hentry e he).2.1
    catAscending := hasc
    catNames := fun e he => (hentry e he).2.2 }

/-! ### The Motor/Bit Reader -/

theorem State.Inv.takeBit (h : s.Inv) (tick : Nat) : (s.takeBit tick).Inv :=
  (h.popState .motor).congr rfl rfl rfl (h.popState .motor).cursorBound rfl h.speedEngaged rfl rfl rfl rfl rfl (.inl rfl)

theorem State.Inv.afterAdvance (h : s.Inv) (tick : Nat) : (s.afterAdvance tick).Inv := by
  unfold State.afterAdvance
  split
  · exact h.takeBit tick
  · exact h

theorem State.Inv.latchPulse (h : s.Inv) (ctl : Bool) : (s.latchPulse ctl).Inv :=
  h.congr rfl rfl rfl h.cursorBound rfl h.speedEngaged rfl rfl rfl rfl rfl (.inl rfl)

theorem State.Inv.engage (h : s.Inv) (tick : Nat) : (s.engage tick).Inv :=
  h.congr rfl rfl rfl h.cursorBound rfl (by simp) rfl rfl rfl rfl rfl (.inl rfl)

theorem State.Inv.disengage (h : s.Inv) : s.disengage.Inv :=
  h.congr rfl rfl rfl h.cursorBound rfl (by simp) rfl rfl rfl rfl rfl (.inl rfl)

theorem State.Inv.motorWrite (h : s.Inv) (ctl : Bool) (tick : Nat) : (s.motorWrite ctl tick).Inv := by
  rcases s.motorWrite_cases ctl tick with heq | ⟨-, heq⟩ | ⟨-, heq⟩ <;> rw [heq]
  · exact h.latchPulse ctl
  · exact (h.engage tick).latchPulse ctl
  · exact h.disengage.latchPulse ctl

/-! ### The AudioMixer -/

/-- The ring capacity an `ACONFIG` stores lies in 1 .. 1024 (R30, R161). -/
theorem countOption_bounds (count : Option Nat) : 1 ≤ countOption count ∧ countOption count ≤ 1024 := by
  unfold countOption Config.ringDefault Config.ringMax
  split
  · omega
  · split_ifs <;> omega

theorem rateOption_pos (rate : Option Nat) : 0 < rateOption rate := by
  unfold rateOption Config.rateDefault
  split
  · omega
  · split_ifs <;> omega

/-- A volume that is not refused lies in 0.0 .. 1.0; an absent one is the default (R161). -/
theorem volOption_range {vol : Option Rat} (h : volumeRefused vol = false) : 0 ≤ volOption vol ∧ volOption vol ≤ 1 := by
  cases vol with
  | none => exact ⟨by decide, by decide⟩
  | some v =>
    simp only [volumeRefused, Bool.or_eq_false_iff, decide_eq_false_iff_not, not_lt] at h
    exact h

/-- An accepted `ACONFIG`: the ring is still unwritten, so its new capacity bounds it (R35, R161). -/
theorem State.Inv.configureMixer (h : s.Inv) (hopen : s.configured = false) (rate count : Option Nat) {vol : Option Rat}
    (hvol : volumeRefused vol = false) : (s.configureMixer rate count vol).Inv := by
  obtain ⟨hring, -⟩ := h.unconfigured hopen
  obtain ⟨hpos, hmax⟩ := countOption_bounds count
  exact { h with
    ringCapPos := hpos
    ringCapMax := hmax
    wcurBound := hpos
    ringInUse := by simp [hring]
    ringFilled := fun _ hi => absurd hi (Nat.not_lt_zero _)
    unconfigured := fun hc => by simp at hc
    ratePos := rateOption_pos rate
    volumeRange := volOption_range hvol }

theorem State.Inv.beginPulse (h : s.Inv) : s.beginPulse.Inv :=
  h.congr rfl rfl rfl h.cursorBound rfl h.speedEngaged rfl rfl rfl rfl rfl (.inr rfl)

/-- A push that leaves room in the ring (R166). -/
theorem State.Inv.push_answer (h : s.Inv) (v : SampleName) (r : Result) (hroom : s.wcur + 1 ≠ s.ringCap) :
    ((s.beginPulse.pushSample v).answer r).Inv :=
  h.pushed v (Nat.le_refl _) (by have := h.wcurBound; omega) rfl

/-- A push that fills the ring is flushed at once: `wcur` is 0 again (R167). -/
theorem State.Inv.push_flush (h : s.Inv) (v : SampleName) (r : Result) :
    ((s.beginPulse.pushSample v).flush r).Inv := by
  have hpushed : (s.beginPulse.pushSample v).returnSamplesReady.Inv := h.pushed v (Nat.zero_le _) h.ringCapPos rfl
  rw [State.flush_eq]
  exact hpushed.congr rfl rfl rfl h.cursorBound rfl h.speedEngaged rfl rfl rfl rfl rfl (.inl rfl)

/-! ### Every operation and every step -/

theorem State.Inv.offset_le_length (h : s.Inv) {i : Nat} {e : CatEntry} (he : s.cat[i]? = some e) :
    e.offset ≤ s.length := by
  have := h.catOffsets e (List.mem_of_getElem? he)
  omega

theorem State.Inv.execTinsert {input : Option (List Byte)} (h : s.Inv) (ht : execTinsert input s = .next t) : t.Inv := by
  rcases execTinsert_next.1 ht with ⟨-, rfl⟩ | ⟨bytes, -, ⟨hfits, rfl⟩ | ⟨-, rfl⟩⟩
  · exact h.failedInsert.answer _
  · exact (h.loadTape hfits (normalise_symbols s.cfg bytes)).fillCatalog.answer _
  · exact h.refuse _

theorem State.Inv.execTselect {i : Nat} (h : s.Inv) (ht : execTselect i s = .next t) : t.Inv := by
  rcases execTselect_next.1 ht with ⟨-, rfl⟩ | ⟨-, e, he, rfl⟩ | ⟨-, -, rfl⟩
  · exact (h.seek (Nat.zero_le _)).answer _
  · exact (h.seek (h.offset_le_length he)).answer _
  · exact h.refuse _

theorem State.Inv.execApulse {strobe : Bool} {b p : SampleName} (h : s.Inv) (ht : execApulse strobe b p s = .next t) :
    t.Inv := by
  rcases execApulse_next.1 ht with ⟨-, rfl⟩ | ⟨-, hroom, rfl⟩ | ⟨-, -, rfl⟩
  · exact h.beginPulse.answer _
  · exact h.push_answer _ _ hroom
  · exact h.push_flush _ _

/-- Every operation keeps the invariant. -/
theorem exec_keeps_inv (i : Instr) (h : s.Inv) (ht : exec i s = .next t) : t.Inv := by
  cases i with
  | nop => exact execNop_next.1 ht ▸ h.answer _
  | tinsert input => exact h.execTinsert ht
  | teject => exact execTeject_next.1 ht ▸ h.ejectTape.answer _
  | tselect k => exact h.execTselect ht
  | tcur => exact execTcur_next.1 ht ▸ h.answer _
  | tcatn => exact execTcatn_next.1 ht ▸ h.answer _
  | tcate k =>
    rcases execTcate_next.1 ht with ⟨e, -, rfl⟩ | ⟨-, rfl⟩
    · exact h.answer _
    · exact h.refuse _
  | casrd =>
    rcases execCasrd_next.1 ht with ⟨-, rfl⟩ | ⟨-, rfl⟩
    · exact (h.popState .port).answer _
    · exact h.refuse _
  | tpoll tick prn =>
    rcases execTpoll_next.1 ht with ⟨-, -, rfl⟩ | ⟨-, rfl⟩ | ⟨-, -, -, rfl⟩
    · exact (h.afterAdvance tick).answer _
    · exact h.refuse _
    · exact h.refuse _
  | motorw data tick => exact execMotorw_next.1 ht ▸ (h.motorWrite _ tick).answer _
  | aconfig rate count vol =>
    rcases execAconfig_next.1 ht with ⟨hopen, hvol, rfl⟩ | ⟨-, rfl⟩ | ⟨-, -, rfl⟩
    · exact (h.configureMixer hopen rate count hvol).answer _
    · exact h.refuse _
    · exact h.refuse _
  | apulse strobe b p => exact h.execApulse ht
  | reserved x => exact (execReserved_next x).1 ht ▸ h.refuse _

/-- What a step can do: nothing, or one operation on the state without its request (R7). -/
theorem step_next : step s = .next t ↔
    (s.requests = [] ∧ t = s) ∨ ∃ q qs, s.requests = q :: qs ∧ exec q.instr { s with requests := qs } = .next t := by
  cases hreq : s.requests with
  | nil => simp [step_nil hreq, eq_comm]
  | cons q qs => simp [step_cons hreq]

/-- Settles O3: a step runs one operation on the state without its request, and both keep the invariant. -/
theorem stepKeepsInvariant : Obligations.StepKeepsInvariant := by
  intro s t h ht
  rcases step_next.1 ht with ⟨-, rfl⟩ | ⟨q, qs, -, ht⟩
  · exact h
  · exact exec_keeps_inv q.instr (h.withRequests qs) ht

end Sys2Proof.Machine
end

section
/-! Scope: which registers an operation may write (10_state.md section 1, column "written by"). -/

namespace Sys2Proof.Machine

/-- Settles O51: case by case over the operations and the next states each can answer. -/
theorem writersOfEachRegister : Obligations.WritersOfEachRegister := by
  intro i s t h
  cases i with
  | nop =>
    obtain rfl := execNop_next.1 h
    simp
  | tinsert input =>
    rcases execTinsert_next.1 h with ⟨-, rfl⟩ | ⟨bytes, -, ⟨-, rfl⟩ | ⟨-, rfl⟩⟩
    · unfold State.failedInsert
      split <;> simp [Instr.mnemonic]
    · simp [State.fillCatalog_eq, Instr.mnemonic]
    · simp
  | teject =>
    obtain rfl := execTeject_next.1 h
    simp [Instr.mnemonic]
  | tselect k =>
    rcases execTselect_next.1 h with ⟨-, rfl⟩ | ⟨-, e, -, rfl⟩ | ⟨-, -, rfl⟩ <;> simp [Instr.mnemonic]
  | tcur =>
    obtain rfl := execTcur_next.1 h
    simp
  | tcatn =>
    obtain rfl := execTcatn_next.1 h
    simp
  | tcate k =>
    rcases execTcate_next.1 h with ⟨e, -, rfl⟩ | ⟨-, rfl⟩ <;> simp
  | casrd =>
    rcases execCasrd_next.1 h with ⟨-, rfl⟩ | ⟨-, rfl⟩ <;> simp [Instr.mnemonic]
  | tpoll tick prn =>
    rcases execTpoll_next.1 h with ⟨-, -, rfl⟩ | ⟨-, rfl⟩ | ⟨-, -, -, rfl⟩
    · unfold State.afterAdvance
      split <;> simp [Instr.mnemonic]
    · simp
    · simp
  | motorw data tick =>
    obtain rfl := execMotorw_next.1 h
    rcases s.motorWrite_cases (controlBit s.cfg data) tick with heq | ⟨-, heq⟩ | ⟨-, heq⟩ <;>
      simp [heq, Instr.mnemonic]
  | aconfig rate count vol =>
    rcases execAconfig_next.1 h with ⟨-, -, rfl⟩ | ⟨-, rfl⟩ | ⟨-, -, rfl⟩ <;> simp [Instr.mnemonic]
  | apulse strobe b p =>
    rcases execApulse_next.1 h with ⟨-, rfl⟩ | ⟨-, -, rfl⟩ | ⟨-, -, rfl⟩
    · simp [Instr.mnemonic]
    · simp [Instr.mnemonic]
    · simp [State.flush_eq, Instr.mnemonic]
  | reserved x =>
    obtain rfl := (execReserved_next x).1 h
    simp

end Sys2Proof.Machine
end

section
/-! Scope: the configuration, once closed, stays closed (R35, R162). -/

namespace Sys2Proof.Machine

variable {s t : State}

/-- A closed configuration refuses every `ACONFIG`, whatever its options (R162). -/
theorem exec_aconfig_closed (hs : s.configured = true) (rate count : Option Nat) (vol : Option Rat) :
    exec (.aconfig rate count vol) s = .next (s.refuse .reconfigure) :=
  execAconfig_next.2 (.inr (.inl ⟨hs, rfl⟩))

/-- Every pulse closes the configuration (R164). -/
theorem exec_apulse_closes {strobe : Bool} {b p : SampleName} (ht : exec (.apulse strobe b p) s = .next t) :
    t.configured = true := by
  rcases execApulse_next.1 ht with ⟨-, rfl⟩ | ⟨-, -, rfl⟩ | ⟨-, -, rfl⟩ <;> rfl

/-- An `ACONFIG` without a volume, or with one in 0.0 .. 1.0, closes the configuration or finds it closed (R161, R162). -/
theorem exec_aconfig_closes {rate count : Option Nat} {vol : Option Rat} (hvol : ∀ v, vol = some v → 0 ≤ v ∧ v ≤ 1)
    (ht : exec (.aconfig rate count vol) s = .next t) : t.configured = true := by
  rcases execAconfig_next.1 ht with ⟨-, -, rfl⟩ | ⟨hs, rfl⟩ | ⟨-, hrefused, -⟩
  · rfl
  · exact hs
  · obtain ⟨v, rfl, hout⟩ := volumeRefused_iff.1 hrefused
    obtain ⟨hlow, hhigh⟩ := hvol v rfl
    rcases hout with hout | hout
    · exact absurd hout (not_lt.2 hlow)
    · exact absurd hout (not_lt.2 hhigh)

/-- Only `ACONFIG` and `APULSE` write the flag, and neither opens a closed configuration. -/
theorem exec_keeps_closed {i : Instr} (hs : s.configured = true) (ht : exec i s = .next t) : t.configured = true := by
  by_cases hkept : t.configured = s.configured
  · exact hkept.trans hs
  · obtain ⟨-, -, -, -, -, -, -, -, -, -, -, -, -, -, -, -, -, -, -, hwriter⟩ := writersOfEachRegister i s t ht
    have hi := hwriter hkept
    cases i with
    | aconfig rate count vol =>
      obtain rfl := Host.Outcome.next.inj ((exec_aconfig_closed hs rate count vol).symm.trans ht)
      exact hs
    | apulse strobe b p => exact exec_apulse_closes ht
    | _ => simp [Instr.mnemonic] at hi

/-- Settles O45: what closes the configuration, that it stays closed, and what a closed one answers. -/
theorem configurationStaysClosed : Obligations.ConfigurationStaysClosed :=
  ⟨fun _ _ _ _ _ hvol ht => exec_aconfig_closes hvol ht, fun _ _ _ _ _ ht => exec_apulse_closes ht,
    fun _ _ _ hs ht => exec_keeps_closed hs ht, fun _ rate count vol hs => exec_aconfig_closed hs rate count vol⟩

end Sys2Proof.Machine
end

section
/-! Scope: where both sites wrap with `>=`, the cursor stays below the length or at 0 (R12, R126). -/

namespace Sys2Proof.Machine

variable {s t : State}

/-- The cursor is below `length` or at 0: R12's bound where both sites wrap with `>=`. -/
def State.cursorBelowLength (s : State) : Prop := s.cursor < s.length ∨ s.cursor = 0

theorem State.cursorBelowLength_congr (h : s.cursorBelowLength) (hcur : t.cursor = s.cursor) (hlen : t.length = s.length) :
    t.cursorBelowLength := by
  unfold State.cursorBelowLength
  rw [hcur, hlen]
  exact h

/-- The `>=` test leaves no cursor at the length (R126). -/
theorem wrapCursor_ge (c l : Nat) : wrapCursor true c l < l ∨ wrapCursor true c l = 0 := by
  simp only [wrapCursor, if_true]
  split <;> omega

theorem State.popState_cursorBelowLength {site : Site} (hge : wrapGe s.cfg site = true) :
    (s.popState site).cursorBelowLength := by
  have := wrapCursor_ge (s.cursor + 1) s.length
  rwa [← hge] at this

/-- An operation that is not among the writers of the cursor leaves it and the length alone. -/
theorem exec_keeps_cursor_length {i : Instr} (hi : i.mnemonic ∉ ["TINSERT", "TEJECT", "TSELECT", "CASRD", "TPOLL"])
    (ht : exec i s = .next t) : t.cursor = s.cursor ∧ t.length = s.length := by
  obtain ⟨-, -, -, -, -, hlen, hcur, -⟩ := writersOfEachRegister i s t ht
  refine ⟨by_contra fun hne => hi (hcur hne), by_contra fun hne => hi ?_⟩
  exact (show ["TINSERT", "TEJECT"] ⊆ ["TINSERT", "TEJECT", "TSELECT", "CASRD", "TPOLL"] by decide) (hlen hne)

/-- Every operation keeps the bound. -/
theorem exec_keeps_cursorBelowLength {i : Instr} (hinv : s.Inv) (hport : s.cfg.wrapGePort = true)
    (hmotor : s.cfg.wrapGeMotor = true) (h : s.cursorBelowLength) (ht : exec i s = .next t) : t.cursorBelowLength := by
  cases i with
  | tinsert input =>
    rcases execTinsert_next.1 ht with ⟨-, rfl⟩ | ⟨bytes, -, ⟨-, rfl⟩ | ⟨-, rfl⟩⟩
    · unfold State.failedInsert
      split <;> exact h
    · exact .inr rfl
    · exact h
  | teject =>
    obtain rfl := execTeject_next.1 ht
    exact .inr rfl
  | tselect k =>
    rcases execTselect_next.1 ht with ⟨-, rfl⟩ | ⟨-, e, he, rfl⟩ | ⟨-, -, rfl⟩
    · exact .inr rfl
    · have hoffset : e.offset + 79 < s.length := hinv.catOffsets e (List.mem_of_getElem? he)
      exact .inl (show e.offset < s.length by omega)
    · exact h
  | casrd =>
    rcases execCasrd_next.1 ht with ⟨-, rfl⟩ | ⟨-, rfl⟩
    · exact State.popState_cursorBelowLength (site := .port) hport
    · exact h
  | tpoll tick prn =>
    rcases execTpoll_next.1 ht with ⟨-, -, rfl⟩ | ⟨-, rfl⟩ | ⟨-, -, -, rfl⟩
    · unfold State.afterAdvance
      split
      · exact State.popState_cursorBelowLength (site := .motor) hmotor
      · exact h
    · exact h
    · exact h
  | _ =>
    obtain ⟨hcur, hlen⟩ := exec_keeps_cursor_length (by simp [Instr.mnemonic]) ht
    exact State.cursorBelowLength_congr h hcur hlen

/-- Settles O36: a step runs one operation, and the request taken away bears on neither register. -/
theorem cursorStaysBelowLengthWhenBothSitesWrapAtIt : Obligations.CursorStaysBelowLengthWhenBothSitesWrapAtIt := by
  intro s t hinv hport hmotor h ht
  rcases step_next.1 ht with ⟨-, rfl⟩ | ⟨q, qs, -, ht⟩
  · exact h
  · exact exec_keeps_cursorBelowLength (hinv.withRequests qs) hport hmotor h ht

end Sys2Proof.Machine
end

section
/-! Scope: no operation reads `speed`, `sampleRate`, `volume`, the refusal mark or what the last operation answered (R31,
R219, R182). -/

namespace Sys2Proof.Machine

variable {s s' t t' : State}

/-! ### The scan reads the tape, its length and the configuration -/

theorem State.scanPass_congr (hcfg : t.cfg = s.cfg) (htape : t.tape = s.tape) (hlen : t.length = s.length) (d p : Nat) :
    t.scanPass d p = s.scanPass d p := by
  simp only [State.scanPass, State.tapeFrom, hcfg, htape, hlen]

theorem State.scanFrom_congr (hcfg : t.cfg = s.cfg) (htape : t.tape = s.tape) (hlen : t.length = s.length)
    (fuel p d : Nat) : t.scanFrom fuel p d = s.scanFrom fuel p d := by
  induction fuel generalizing p d with
  | zero => rfl
  | succ fuel ih =>
    simp only [State.scanFrom_succ, hlen, State.scanPass_congr hcfg htape hlen, State.decodeName_congr htape hlen, ih]

theorem State.scanAll_congr (hcfg : t.cfg = s.cfg) (htape : t.tape = s.tape) (hlen : t.length = s.length)
    (hdraws : t.draws = s.draws) : t.scanAll = s.scanAll := by
  simp only [State.scanAll, hlen, hdraws, State.scanFrom_congr hcfg htape hlen]

/-! ### Two states that differ only in what no operation reads -/

/-- The state with these fields taken from another one. -/
def State.withUnread (s o : State) : State :=
  { s with
    speed := o.speed
    sampleRate := o.sampleRate
    volume := o.volume
    refusals := o.refusals
    result := o.result
    event := o.event }

/-- Two runs of one operation agree but for what it leaves alone: the premise and conclusion of O55 for the next states
`t` and `t'` of `s` and `s'`. -/
structure AgreeAfter (s s' t t' : State) : Prop where
  marks : ∃ marks, t' = { t with
      speed := t'.speed
      sampleRate := t'.sampleRate
      volume := t'.volume
      refusals := s'.refusals ++ marks } ∧ t.refusals = s.refusals ++ marks
  speed : t'.speed = t.speed ∨ t'.speed = s'.speed ∧ t.speed = s.speed
  sampleRate : t'.sampleRate = t.sampleRate ∨ t'.sampleRate = s'.sampleRate ∧ t.sampleRate = s.sampleRate
  volume : t'.volume = t.volume ∨ t'.volume = s'.volume ∧ t.volume = s.volume

/-- An operation that marks nothing. -/
theorem AgreeAfter.marks_nil (h : t' = { t with
      speed := t'.speed
      sampleRate := t'.sampleRate
      volume := t'.volume
      refusals := s'.refusals }) (hmark : t.refusals = s.refusals) : ∃ marks, t' = { t with
      speed := t'.speed
      sampleRate := t'.sampleRate
      volume := t'.volume
      refusals := s'.refusals ++ marks } ∧ t.refusals = s.refusals ++ marks :=
  ⟨[], by simpa only [List.append_nil] using h, by simpa only [List.append_nil] using hmark⟩

/-- An operation that writes no option and marks nothing. -/
theorem AgreeAfter.of_kept (h : t' = { t with
      speed := s'.speed
      sampleRate := s'.sampleRate
      volume := s'.volume
      refusals := s'.refusals }) (hspeed : t.speed = s.speed) (hrate : t.sampleRate = s.sampleRate)
    (hvol : t.volume = s.volume) (hmark : t.refusals = s.refusals) : AgreeAfter s s' t t' := by
  subst h
  exact ⟨AgreeAfter.marks_nil rfl hmark, .inr ⟨rfl, hspeed⟩, .inr ⟨rfl, hrate⟩, .inr ⟨rfl, hvol⟩⟩

/-- A refused request marks the same reason in both. -/
theorem AgreeAfter.refuse (s o : State) (r : RefusalReason) :
    AgreeAfter s (s.withUnread o) (s.refuse r) ((s.withUnread o).refuse r) :=
  ⟨⟨[r], rfl, rfl⟩, .inr ⟨rfl, rfl⟩, .inr ⟨rfl, rfl⟩, .inr ⟨rfl, rfl⟩⟩

/-- A bitstream stored in both is scanned alike. -/
theorem AgreeAfter.insert (s o : State) (out : List Byte) (r : Result) :
    AgreeAfter s (s.withUnread o) ((s.loadTape out).fillCatalog.answer r)
      (((s.withUnread o).loadTape out).fillCatalog.answer r) := by
  have hscan : ((s.withUnread o).loadTape out).scanAll = (s.loadTape out).scanAll := State.scanAll_congr rfl rfl rfl rfl
  rw [State.fillCatalog_eq, State.fillCatalog_eq, hscan]
  exact .of_kept rfl rfl rfl rfl rfl

theorem AgreeAfter.failedInsert (s o : State) (r : Result) :
    AgreeAfter s (s.withUnread o) (s.failedInsert.answer r) ((s.withUnread o).failedInsert.answer r) := by
  have hcfg : (s.withUnread o).cfg = s.cfg := rfl
  unfold State.failedInsert
  rw [hcfg]
  split <;> exact .of_kept rfl rfl rfl rfl rfl

theorem AgreeAfter.poll (s o : State) (tick : Nat) (r : Result) :
    AgreeAfter s (s.withUnread o) ((s.afterAdvance tick).answer r) (((s.withUnread o).afterAdvance tick).answer r) := by
  have hadv : (s.withUnread o).advances tick = s.advances tick := rfl
  unfold State.afterAdvance
  rw [hadv]
  split <;> exact .of_kept rfl rfl rfl rfl rfl

/-- The status byte shows the latch after the advance and `engaged`. -/
theorem State.pollStatus_withUnread (s o : State) (tick : Nat) (prn : Bit) :
    (s.withUnread o).pollStatus tick prn = s.pollStatus tick prn := by
  have hadv : (s.withUnread o).advances tick = s.advances tick := rfl
  have hlatch : ((s.withUnread o).afterAdvance tick).bitLatch = (s.afterAdvance tick).bitLatch := by
    unfold State.afterAdvance
    rw [hadv]
    split <;> rfl
  unfold State.pollStatus
  rw [hlatch]
  rfl

/-- A motor-control write toggles both alike; where it writes `speed` it does not depend on the old one (R147). -/
theorem AgreeAfter.motorWrite (s o : State) (ctl : Bool) (tick : Nat) (r : Result) :
    AgreeAfter s (s.withUnread o) ((s.motorWrite ctl tick).answer r) (((s.withUnread o).motorWrite ctl tick).answer r) := by
  cases ctl with
  | false => exact .of_kept rfl rfl rfl rfl rfl
  | true =>
    cases hlatch : s.pulseLatch with
    | true =>
      rw [s.motorWrite_held tick hlatch, (s.withUnread o).motorWrite_held tick hlatch]
      exact .of_kept rfl rfl rfl rfl rfl
    | false =>
      cases hengaged : s.engaged with
      | false =>
        rw [s.motorWrite_start tick hlatch hengaged, (s.withUnread o).motorWrite_start tick hlatch hengaged]
        exact ⟨AgreeAfter.marks_nil rfl rfl, .inl rfl, .inr ⟨rfl, rfl⟩, .inr ⟨rfl, rfl⟩⟩
      | true =>
        rw [s.motorWrite_stop tick hlatch hengaged, (s.withUnread o).motorWrite_stop tick hlatch hengaged]
        exact ⟨AgreeAfter.marks_nil rfl rfl, .inl rfl, .inr ⟨rfl, rfl⟩, .inr ⟨rfl, rfl⟩⟩

/-- An accepted `ACONFIG` stores options of its own operands (R161). -/
theorem AgreeAfter.configureMixer (s o : State) (rate count : Option Nat) (vol : Option Rat) (r : Result) :
    AgreeAfter s (s.withUnread o) ((s.configureMixer rate count vol).answer r)
      (((s.withUnread o).configureMixer rate count vol).answer r) :=
  ⟨AgreeAfter.marks_nil rfl rfl, .inr ⟨rfl, rfl⟩, .inl rfl, .inl rfl⟩

/-- A flush delivers the same ring and marks the same nested requests (R167, R186). -/
theorem AgreeAfter.flush (s o : State) (v : SampleName) (r : Result) :
    AgreeAfter s (s.withUnread o) ((s.beginPulse.pushSample v).flush r)
      (((s.withUnread o).beginPulse.pushSample v).flush r) := by
  rw [State.flush_eq, State.flush_eq]
  exact ⟨⟨(s.callback.headD []).map fun _ => .reentry, rfl, rfl⟩, .inr ⟨rfl, rfl⟩, .inr ⟨rfl, rfl⟩, .inr ⟨rfl, rfl⟩⟩

/-- Every operation runs alike in both: the conditions of its cases look at no unread field. -/
theorem exec_agrees (i : Instr) (s o : State) (ht : exec i s = .next t) :
    ∃ t', exec i (s.withUnread o) = .next t' ∧ AgreeAfter s (s.withUnread o) t t' := by
  cases i with
  | nop =>
    obtain rfl := execNop_next.1 ht
    exact ⟨_, rfl, .of_kept rfl rfl rfl rfl rfl⟩
  | tinsert input =>
    rcases execTinsert_next.1 ht with ⟨hin, rfl⟩ | ⟨bytes, hin, ⟨hfits, rfl⟩ | ⟨hlong, rfl⟩⟩
    · exact ⟨_, execTinsert_next.2 (.inl ⟨hin, rfl⟩), .failedInsert s o _⟩
    · exact ⟨_, execTinsert_next.2 (.inr ⟨bytes, hin, .inl ⟨hfits, rfl⟩⟩), .insert s o _ _⟩
    · exact ⟨_, execTinsert_next.2 (.inr ⟨bytes, hin, .inr ⟨hlong, rfl⟩⟩), .refuse s o _⟩
  | teject =>
    obtain rfl := execTeject_next.1 ht
    exact ⟨_, rfl, .of_kept rfl rfl rfl rfl rfl⟩
  | tselect k =>
    rcases execTselect_next.1 ht with ⟨hk, rfl⟩ | ⟨hk, e, he, rfl⟩ | ⟨hk, hout, rfl⟩
    · exact ⟨_, execTselect_next.2 (.inl ⟨hk, rfl⟩), .of_kept rfl rfl rfl rfl rfl⟩
    · exact ⟨_, execTselect_next.2 (.inr (.inl ⟨hk, e, he, rfl⟩)), .of_kept rfl rfl rfl rfl rfl⟩
    · exact ⟨_, execTselect_next.2 (.inr (.inr ⟨hk, hout, rfl⟩)), .refuse s o _⟩
  | tcur =>
    obtain rfl := execTcur_next.1 ht
    exact ⟨_, rfl, .of_kept rfl rfl rfl rfl rfl⟩
  | tcatn =>
    obtain rfl := execTcatn_next.1 ht
    exact ⟨_, rfl, .of_kept rfl rfl rfl rfl rfl⟩
  | tcate k =>
    rcases execTcate_next.1 ht with ⟨e, he, rfl⟩ | ⟨hout, rfl⟩
    · exact ⟨_, execTcate_next.2 (.inl ⟨e, he, rfl⟩), .of_kept rfl rfl rfl rfl rfl⟩
    · exact ⟨_, execTcate_next.2 (.inr ⟨hout, rfl⟩), .refuse s o _⟩
  | casrd =>
    rcases execCasrd_next.1 ht with ⟨hin, rfl⟩ | ⟨hout, rfl⟩
    · exact ⟨_, execCasrd_next.2 (.inl ⟨hin, rfl⟩), .of_kept rfl rfl rfl rfl rfl⟩
    · exact ⟨_, execCasrd_next.2 (.inr ⟨hout, rfl⟩), .refuse s o _⟩
  | tpoll tick prn =>
    rcases execTpoll_next.1 ht with ⟨htick, hin, rfl⟩ | ⟨htick, rfl⟩ | ⟨htick, hout, hadv, rfl⟩
    · refine ⟨_, execTpoll_next.2 (.inl ⟨htick, hin, rfl⟩), ?_⟩
      rw [State.pollStatus_withUnread]
      exact .poll s o tick _
    · exact ⟨_, execTpoll_next.2 (.inr (.inl ⟨htick, rfl⟩)), .refuse s o _⟩
    · exact ⟨_, execTpoll_next.2 (.inr (.inr ⟨htick, hout, hadv, rfl⟩)), .refuse s o _⟩
  | motorw data tick =>
    obtain rfl := execMotorw_next.1 ht
    exact ⟨_, rfl, .motorWrite s o _ tick _⟩
  | aconfig rate count vol =>
    rcases execAconfig_next.1 ht with ⟨hopen, hvol, rfl⟩ | ⟨hclosed, rfl⟩ | ⟨hopen, hvol, rfl⟩
    · exact ⟨_, execAconfig_next.2 (.inl ⟨hopen, hvol, rfl⟩), .configureMixer s o rate count vol _⟩
    · exact ⟨_, execAconfig_next.2 (.inr (.inl ⟨hclosed, rfl⟩)), .refuse s o _⟩
    · exact ⟨_, execAconfig_next.2 (.inr (.inr ⟨hopen, hvol, rfl⟩)), .refuse s o _⟩
  | apulse strobe b p =>
    rcases execApulse_next.1 ht with ⟨hs, rfl⟩ | ⟨hs, hroom, rfl⟩ | ⟨hs, hfull, rfl⟩
    · exact ⟨_, execApulse_next.2 (.inl ⟨hs, rfl⟩), .of_kept rfl rfl rfl rfl rfl⟩
    · exact ⟨_, execApulse_next.2 (.inr (.inl ⟨hs, hroom, rfl⟩)), .of_kept rfl rfl rfl rfl rfl⟩
    · exact ⟨_, execApulse_next.2 (.inr (.inr ⟨hs, hfull, rfl⟩)), .flush s o _ _⟩
  | reserved x =>
    obtain rfl := (execReserved_next x).1 ht
    exact ⟨_, rfl, .refuse s o _⟩

/-- Settles O55: the second state is the first with the unread fields of its own. -/
theorem storedOptionsAreNotRead : Obligations.StoredOptionsAreNotRead := by
  intro i s s' hs' t ht
  obtain ⟨t', ht', ⟨marks, hfields, hmarks⟩, hspeed, hrate, hvol⟩ := exec_agrees i s s' ht
  rw [show s.withUnread s' = s' from hs'.symm] at ht' hfields hspeed hrate hvol
  exact ⟨t', marks, ht', hfields, hmarks, hspeed, hrate, hvol⟩

end Sys2Proof.Machine
end

section
/-! Scope: the catalog describes the stored tape after every step (R54, R104), under the policies that reset (R103). -/

namespace Sys2Proof.Machine

variable {s t : State}

/-- R54 speaks of the policy, the tape, its length and the catalog alone. -/
theorem State.catalogMatchesTape_congr (h : s.catalogMatchesTape) (hcfg : t.cfg = s.cfg) (htape : t.tape = s.tape)
    (hlen : t.length = s.length) (hcat : t.cat = s.cat) : t.catalogMatchesTape := by
  intro hpolicy e he
  rw [hcfg] at hpolicy
  rw [hcat] at he
  exact (State.patternAt_congr htape hlen e.offset).2 (h hpolicy e he)

/-- An empty catalog claims nothing of the tape. -/
theorem State.catalogMatchesTape_of_cat_nil (h : t.cat = []) : t.catalogMatchesTape := by
  intro _ e he
  rw [h] at he
  exact absurd he List.not_mem_nil

theorem State.failedInsert_catalogMatchesTape (h : s.catalogMatchesTape) : s.failedInsert.catalogMatchesTape := by
  unfold State.failedInsert
  split
  · exact State.catalogMatchesTape_of_cat_nil rfl
  · exact h

/-- The scan lists only offsets at which the pattern stands on the tape it scans (R104). -/
theorem State.Inv.fillCatalog_catalogMatchesTape (h : s.Inv) : s.fillCatalog.catalogMatchesTape :=
  fun hpolicy =>
    State.scanFrom_patterns h.tapeCanonical (State.tapeWritten_of_symbols h.symbols) hpolicy s.length 0 s.draws

/-- A `TINSERT` that stores its bitstream replaces the catalog by the scan of that bitstream (R83); every other one
leaves the tape alone. -/
theorem execTinsert_keeps_catalogMatchesTape {input : Option (List Byte)} (hinv : s.Inv) (h : s.catalogMatchesTape)
    (ht : execTinsert input s = .next t) : t.catalogMatchesTape := by
  rcases execTinsert_next.1 ht with ⟨-, rfl⟩ | ⟨bytes, -, ⟨hfits, rfl⟩ | ⟨-, rfl⟩⟩
  · exact State.failedInsert_catalogMatchesTape h
  · have hloaded : (s.loadTape (normalise s.cfg bytes)).Inv := hinv.loadTape hfits (normalise_symbols s.cfg bytes)
    exact hloaded.fillCatalog_catalogMatchesTape
  · exact h

/-- An operation that is not among the writers of the catalog and the length leaves all that R54 speaks of alone. -/
theorem exec_keeps_tape_and_catalog {i : Instr} (hi : i.mnemonic ∉ ["TINSERT", "TEJECT"]) (ht : exec i s = .next t) :
    t.cfg = s.cfg ∧ t.tape = s.tape ∧ t.length = s.length ∧ t.cat = s.cat := by
  obtain ⟨hcfg, -, -, -, htape, hlen, -, hcat, -⟩ := writersOfEachRegister i s t ht
  refine ⟨hcfg, by_contra fun hne => hi ?_, by_contra fun hne => hi (hlen hne), by_contra fun hne => hi (hcat hne)⟩
  rw [htape hne]
  exact List.mem_cons_self

/-- Every operation keeps R54. -/
theorem exec_keeps_catalogMatchesTape {i : Instr} (hinv : s.Inv) (h : s.catalogMatchesTape) (ht : exec i s = .next t) :
    t.catalogMatchesTape := by
  cases i with
  | tinsert input => exact execTinsert_keeps_catalogMatchesTape hinv h ht
  | teject =>
    obtain rfl := execTeject_next.1 ht
    exact State.catalogMatchesTape_of_cat_nil rfl
  | _ =>
    obtain ⟨hcfg, htape, hlen, hcat⟩ := exec_keeps_tape_and_catalog (by simp [Instr.mnemonic]) ht
    exact State.catalogMatchesTape_congr h hcfg htape hlen hcat

/-- Settles O4: a step runs one operation, and the request taken away bears on neither the tape nor the catalog. -/
theorem stepKeepsCatalogMatchingTape : Obligations.StepKeepsCatalogMatchingTape := by
  intro s t hinv h ht
  rcases step_next.1 ht with ⟨-, rfl⟩ | ⟨q, qs, -, ht⟩
  · exact h
  · exact exec_keeps_catalogMatchesTape (hinv.withRequests qs) h ht

end Sys2Proof.Machine
end

section
/-! Scope: what a symbol and a field of the tape decode to (R45, R47, R109, R110). -/

namespace Sys2Proof.Machine

/-- Settles O25: the two cases of `Sym`, a written byte below `length` and an index past the tape. -/
theorem symbolBitsAndDraws : Obligations.SymbolBitsAndDraws :=
  fun _ d _ => ⟨fun _ hi hb => State.sym_of_read hi hb d, fun hi => State.sym_of_length_le hi d⟩

/-- Symbol `j` of a byte's expansion is bit `7 - j` (R84). -/
theorem getElem?_symbolsOf (x : Byte) {j : Nat} (hj : j < 8) :
    (symbolsOf x)[j]? = some (symbolOfBit (x.getLsbD (7 - j))) := by
  have hrange : symbolsOf x = (List.range 8).map fun j => symbolOfBit (x.getLsbD (7 - j)) := rfl
  simp [hrange, hj]

/-- A valid expansion on the tape decodes to its byte, without a draw (R47, R109). -/
theorem State.field8_of_symbolsOf {s : State} {a : Nat} {x : Byte} (hlen : a + 8 ≤ s.length)
    (hread : ∀ j < 8, s.tape.read (a + j) = (symbolsOf x)[j]?) (d : Nat) : s.field8 d a = (x, d) := by
  calc s.field8 d a = (packSymbols 0 (symbolsOf x), d) := State.fieldFrom_of_read (symbolsOf x) hlen hread 0 d
    _ = (x, d) := by rw [packSymbols_symbolsOf]

theorem State.headerType_eq (s : State) (d start : Nat) : s.headerType d start = s.field8 d (start + 82) := rfl

/-- Settles O22: the eight symbols are the expansion, and the type is the field at offset 82. -/
theorem fieldDecodeInvertsExpansion : Obligations.FieldDecodeInvertsExpansion := by
  refine ⟨fun s d a x hlen hread => ?_, State.headerType_eq⟩
  have hfield : s.field8 d a = (x, d) :=
    State.field8_of_symbolsOf hlen (fun j hj => (hread j hj).trans (getElem?_symbolsOf x hj).symm) d
  refine ⟨hfield, fun start hstart => ?_⟩
  rw [State.headerType_eq, ← hstart, hfield]

end Sys2Proof.Machine
end

section
/-! Scope: the encoding of requests (R69, R70, R71, R74): codes, table rows and words, pseudo-operations. -/

namespace Sys2Proof

/-! ### Codes and the operations they name -/

/-- The request and the code byte of every operation are read back (R69, R70). -/
theorem codeByte_statement (i : Instr) : Laws.CodeByte.Statement i := by
  cases i with
  | nop => exact Laws.CodeByte.nop
  | tinsert input => exact Laws.CodeByte.tinsert input
  | teject => exact Laws.CodeByte.teject
  | tselect k => exact Laws.CodeByte.tselect k
  | tcur => exact Laws.CodeByte.tcur
  | tcatn => exact Laws.CodeByte.tcatn
  | tcate k => exact Laws.CodeByte.tcate k
  | casrd => exact Laws.CodeByte.casrd
  | tpoll tick prn => exact Laws.CodeByte.tpoll tick prn
  | motorw data tick => exact Laws.CodeByte.motorw data tick
  | aconfig rate count vol => exact Laws.CodeByte.aconfig rate count vol
  | apulse strobe b p => exact Laws.CodeByte.apulse strobe b p
  | reserved x => exact Laws.CodeByte.reserved x

/-- Every operation's code is of a row of the table, and of no row with another mnemonic (R70, R71). -/
theorem tableRow_statement (i : Instr) : Laws.TableRow.Statement i := by
  cases i with
  | nop => exact Laws.TableRow.nop
  | tinsert input => exact Laws.TableRow.tinsert input
  | teject => exact Laws.TableRow.teject
  | tselect k => exact Laws.TableRow.tselect k
  | tcur => exact Laws.TableRow.tcur
  | tcatn => exact Laws.TableRow.tcatn
  | tcate k => exact Laws.TableRow.tcate k
  | casrd => exact Laws.TableRow.casrd
  | tpoll tick prn => exact Laws.TableRow.tpoll tick prn
  | motorw data tick => exact Laws.TableRow.motorw data tick
  | aconfig rate count vol => exact Laws.TableRow.aconfig rate count vol
  | apulse strobe b p => exact Laws.TableRow.apulse strobe b p
  | reserved x => exact Laws.TableRow.reserved x

theorem decode_code_lines (i : Instr) : decode i.code i.lines = i := (codeByte_statement i).2

theorem decodeBytes_of_decodeCode {bs : List Byte} {op : BitVec 4} (h : decodeCode bs = .ok op) (l : OperandLines) :
    decodeBytes bs l = .ok (decode op l) := by
  simp only [decodeBytes, h]

/-- Settles O6: the code byte carries the code, and the code with the operand lines is the operation. -/
theorem decodeOfEncodeGivesTheOperation : Obligations.DecodeOfEncodeGivesTheOperation := by
  intro i
  obtain ⟨hbyte, hreq⟩ := codeByte_statement i
  refine ⟨hreq, ?_⟩
  rw [decodeBytes_of_decodeCode hbyte, decode_code_lines]

/-- The codes from 0xC on are the reserved row (R71). -/
theorem decode_reserved {op : BitVec 4} (h : 0xC#4 ≤ op) (l : OperandLines) :
    decode op l = .reserved (op.extractLsb' 0 2) := by
  unfold decode
  split
  case h_13 => rfl
  all_goals exact absurd h (by decide)

/-- Decoding loses no bit of the code: below 0xC each code has an operation of its own, and a reserved one keeps its low
half. -/
theorem code_decode (op : BitVec 4) (l : OperandLines) : (decode op l).code = op := by
  unfold decode
  split
  case h_13 => revert op; decide
  all_goals rfl

/-! ### The operation table -/

/-- No two rows of the table have one mnemonic. -/
theorem opTable_row_of_mnemonic : ∀ r ∈ opTable, ∀ r' ∈ opTable, r'.mnemonic = r.mnemonic → r' = r := by decide

/-- Settles O7: the rows that cover an operation's code carry its mnemonic, and a mnemonic has one row. -/
theorem everyCodeIsOfOneRow : Obligations.EveryCodeIsOfOneRow := by
  intro op l
  obtain ⟨⟨row, hmem, hcov⟩, hmnemonic⟩ := tableRow_statement (decode op l)
  rw [code_decode] at hcov hmnemonic
  refine ⟨code_decode op l, row, hmem, hcov, hmnemonic row hmem hcov, fun row' hmem' hcov' => ?_⟩
  exact opTable_row_of_mnemonic row hmem row' hmem' ((hmnemonic row' hmem' hcov').trans (hmnemonic row hmem hcov).symm)

/-- The table word that is an operation's code decodes to it, where its operands are null, absent or zero. -/
theorem decodeTableWord_code {i : Instr} (h : i.lines = .idle) : decodeTableWord 8 i.code.toNat = some i := by
  have hcode : decodeCode (wordBytes 8 i.code.toNat) = .ok i.code := by
    rw [decodeCode_wordBytes_eight i.code.isLt, BitVec.ofNat_toNat, BitVec.setWidth_eq]
  rw [decodeTableWord, decodeBytes_of_decodeCode hcode, ← h, decode_code_lines]

/-- A byte with a bit set above the code carries no operation (R69). -/
theorem decodeTableWord_codeTooWide : decodeTableWord 8 0b10000 = none := by decide

/-- Settles O8: each word below 0x10 is the code of its row's operation with idle operands; 0x10 is too wide. -/
theorem tableWordsDecodeToTheirRows : Obligations.TableWordsDecodeToTheirRows :=
  ⟨decodeTableWord_code (i := .nop) rfl, decodeTableWord_code (i := .tinsert none) rfl,
    decodeTableWord_code (i := .teject) rfl, decodeTableWord_code (i := .tselect 0) rfl,
    decodeTableWord_code (i := .tcur) rfl, decodeTableWord_code (i := .tcatn) rfl,
    decodeTableWord_code (i := .tcate 0) rfl, decodeTableWord_code (i := .casrd) rfl,
    decodeTableWord_code (i := .tpoll 0 0) rfl, decodeTableWord_code (i := .motorw 0 0) rfl,
    decodeTableWord_code (i := .aconfig none none none) rfl, decodeTableWord_code (i := .apulse false ⟨0⟩ ⟨0⟩) rfl,
    decodeTableWord_code (i := .reserved 0) rfl, decodeTableWord_code (i := .reserved 3) rfl,
    decodeTableWord_codeTooWide⟩

namespace Machine

/-! ### The spec's own rows (R71) and the pseudo-operations (R74) -/

theorem exec_reserved_eq_refuse (x : BitVec 2) (s : State) : exec (.reserved x) s = .next (s.refuse .reservedOp) :=
  (execReserved_next x).2 rfl

/-- Settles O9: code 0 is `NOP`, which answers nothing; the codes from 0xC on are the reserved row, which is refused. -/
theorem nopAndReservedCodes : Obligations.NopAndReservedCodes := by
  refine ⟨fun l s => ⟨rfl, execNop_next.2 rfl⟩, fun op l s hop => ?_, exec_reserved_eq_refuse⟩
  rw [decode_reserved hop]
  exact exec_reserved_eq_refuse _ s

theorem expandPseudo_catalog (n : Nat) : expandPseudo n .catalog = .tcatn :: (List.range n).map .tcate := rfl

/-- Settles O58: `CATALOG` is the count and then the entries in index order; the other two are as written. -/
theorem pseudoOperationsExpand : Obligations.PseudoOperationsExpand := by
  refine ⟨fun n => ?_, fun n pulses => rfl, fun n => rfl⟩
  rw [expandPseudo_catalog]
  refine ⟨by simp, rfl, fun i hi => ?_⟩
  rw [List.getElem?_cons_succ, List.getElem?_map, List.getElem?_range hi, Option.map_some]

end Machine
end Sys2Proof
end

section
/-! Scope: the fields of the status byte a poll returns (R66, R144). -/

namespace Sys2Proof.Machine

variable {s : State}

theorem statusByte_getLsbD_six (level : Bit) (engaged : Bool) (prn : Bit) :
    (statusByte level engaged prn).getLsbD 6 = !engaged := by
  revert level engaged prn; decide

theorem statusByte_getLsbD_two (level : Bit) (engaged : Bool) (prn : Bit) :
    (statusByte level engaged prn).getLsbD 2 = (prn == 1) := by
  revert level engaged prn; decide

/-- The bits of 0x3B are set in every status byte. -/
theorem statusByte_getLsbD_ones (level : Bit) (engaged : Bool) (prn : Bit) :
    ∀ k ∈ [5, 4, 3, 1, 0], (statusByte level engaged prn).getLsbD k = true := by
  revert level engaged prn; decide

/-- Three free bits over 0x3B make eight bytes. -/
theorem statusByte_mem (level : Bit) (engaged : Bool) (prn : Bit) :
    statusByte level engaged prn ∈ [0x3B#8, 0x3F#8, 0x7B#8, 0x7F#8, 0xBB#8, 0xBF#8, 0xFB#8, 0xFF#8] := by
  revert level engaged prn; decide

/-- A cursor that is below the buffer's end whenever it is below the tape's is never refused (R44). -/
theorem State.popRefused_of_cursor (h : s.cursor < s.length → s.cursor < s.cfg.tapeCap) : s.popRefused = false := by
  rw [Bool.eq_false_iff, ne_eq, State.popRefused_iff]
  exact fun ⟨hlen, hcap⟩ => absurd (h hlen) (Nat.not_lt.2 hcap)

/-- A poll that is not refused (R149, R44) answers its status byte. -/
theorem exec_tpoll_of_popRefused_eq_false {tick : Nat} (prn : Bit) (htick : s.tickAtLastAdvance ≤ tick)
    (hpop : s.popRefused = false) :
    exec (.tpoll tick prn) s = .next ((s.afterAdvance tick).answer (.status (s.pollStatus tick prn))) :=
  execTpoll_next.2 (.inl ⟨htick, by rw [hpop, Bool.false_and], rfl⟩)

/-- Settles O40: the poll answers `statusByte` of some level, and the fields hold at either level. -/
theorem statusByteFields : Obligations.StatusByteFields := by
  intro s tick prn htick hcursor
  obtain ⟨level, hstatus⟩ : ∃ level, s.pollStatus tick prn = statusByte level s.engaged prn := ⟨_, rfl⟩
  have hones := statusByte_getLsbD_ones level s.engaged prn
  refine ⟨_, _, exec_tpoll_of_popRefused_eq_false prn htick (State.popRefused_of_cursor hcursor), rfl, ?_⟩
  rw [hstatus]
  exact ⟨statusByte_getLsbD_six .., statusByte_getLsbD_two .., hones 5 (by decide), hones 4 (by decide),
    hones 3 (by decide), hones 1 (by decide), hones 0 (by decide), statusByte_mem ..⟩

end Sys2Proof.Machine
end

section
/-! Scope: which operation a bus transaction asks for, and the data pins after it (R43, R73, R187, R190). -/

namespace Sys2Proof.Machine

variable {cfg : Config} {pins : BusPins} {tick : Nat} {readWins : Bool}

/-! ### The address decode (R43) -/

@[simp] theorem addrMatches_iff (p : AddrPattern) (a : BitVec 16) : addrMatches p a = true ↔ a &&& p.mask = p.value := by
  rw [addrMatches, beq_iff_eq]

theorem any_addrMatches_iff (ps : List AddrPattern) (a : BitVec 16) :
    (ps.any fun p => addrMatches p a) = true ↔ ∃ q ∈ ps, a &&& q.mask = q.value := by
  simp

@[simp] theorem addrInRange_iff (r : AddrRange) (a : BitVec 16) : addrInRange r a = true ↔ r.lo ≤ a ∧ a ≤ r.hi := by
  simp [addrInRange]

theorem takesReadEarly_iff (cfg : Config) (a : BitVec 16) : takesReadEarly cfg a ↔
    (cfg.portsKeyboard.any fun p => addrMatches p a) = true ∨ (cfg.portsVideo.any fun p => addrMatches p a) = true ∨
      inVramRange a = true := by
  simp [takesReadEarly, inVramRange, or_and_right, exists_or, or_assoc]

/-- A read taken early never reaches the sound ports or the cassette-bit ports. -/
theorem readTarget_ne_of_early {a : BitVec 16} (h : takesReadEarly cfg a) :
    readTarget cfg a ≠ .sound ∧ readTarget cfg a ≠ .cassette := by
  unfold readTarget
  rcases (takesReadEarly_iff cfg a).1 h with hk | hv | hr
  · rw [if_pos hk]; simp
  · rw [if_pos hv]; split_ifs <;> simp
  · rw [if_pos hr]; split_ifs <;> simp

/-- The rest of the decode, in the order sound, cassette, later. -/
theorem readTarget_of_not_early {a : BitVec 16} (h : ¬ takesReadEarly cfg a) : readTarget cfg a =
    if cfg.portsSound.any fun p => addrMatches p a then .sound
    else if addrMatches cfg.portCas0 a || addrMatches cfg.portCas1 a then .cassette
    else .later := by
  rw [takesReadEarly_iff, not_or, not_or] at h
  obtain ⟨hk, hv, hr⟩ := h
  rw [readTarget, if_neg hk, if_neg hv, if_neg hr]

theorem readTarget_eq_sound_iff (cfg : Config) (a : BitVec 16) :
    readTarget cfg a = .sound ↔ ¬ takesReadEarly cfg a ∧ isSoundPort cfg a := by
  by_cases h : takesReadEarly cfg a
  · simp [h, (readTarget_ne_of_early h).1]
  · rw [readTarget_of_not_early h, isSoundPort, ← any_addrMatches_iff]
    split_ifs <;> simp_all

theorem readTarget_eq_cassette_iff (cfg : Config) (a : BitVec 16) : readTarget cfg a = .cassette ↔
    ¬ takesReadEarly cfg a ∧ ¬ isSoundPort cfg a ∧
      (a &&& cfg.portCas0.mask = cfg.portCas0.value ∨ a &&& cfg.portCas1.mask = cfg.portCas1.value) := by
  by_cases h : takesReadEarly cfg a
  · simp [h, (readTarget_ne_of_early h).2]
  · rw [readTarget_of_not_early h, isSoundPort, ← any_addrMatches_iff]
    split_ifs <;> simp_all

/-! ### What the pins ask for (R73) -/

theorem selectsRead_iff (target : ReadTarget) : selectsRead cfg pins target = true ↔
    pins.ioRequest = true ∧ pins.read = true ∧ readTarget cfg pins.address = target := by
  simp [selectsRead, and_assoc]

theorem selectsRead_sound_iff : selectsRead cfg pins .sound = true ↔ asksSoundRead cfg pins := by
  rw [selectsRead_iff, readTarget_eq_sound_iff, asksSoundRead]

theorem selectsRead_cassette_iff : selectsRead cfg pins .cassette = true ↔ asksCassetteRead cfg pins := by
  rw [selectsRead_iff, readTarget_eq_cassette_iff, asksCassetteRead]

theorem selectsMotorw_iff : selectsMotorw cfg pins = true ↔ asksMotorWrite cfg pins := by
  simp [selectsMotorw, asksMotorWrite, and_assoc]

/-! ### The one transaction that is made (R187) -/

theorem readMade_iff (target : ReadTarget) : readMade cfg pins readWins target = true ↔
    selectsRead cfg pins target = true ∧ (asksMotorWrite cfg pins → readWins = true) := by
  rw [readMade, Bool.and_eq_true, ← selectsMotorw_iff]
  cases selectsMotorw cfg pins <;> simp

theorem busInstr_eq_casrd_iff : busInstr cfg pins tick readWins = some .casrd ↔
    readMade cfg pins readWins .cassette = true := by
  unfold busInstr
  split_ifs <;> simp_all

/-- The write is made where no read that is the block's is. -/
theorem busInstr_eq_motorw_iff : busInstr cfg pins tick readWins = some (.motorw pins.data tick) ↔
    selectsMotorw cfg pins = true ∧ readMade cfg pins readWins .cassette = false ∧
      readMade cfg pins readWins .sound = false := by
  unfold busInstr
  split_ifs <;> simp_all

theorem busInstr_eq_some {i : Instr} (h : busInstr cfg pins tick readWins = some i) :
    i = .casrd ∨ i = .motorw pins.data tick := by
  unfold busInstr at h
  split_ifs at h
  · exact .inl (Option.some.inj h).symm
  · exact .inr (Option.some.inj h).symm

/-- Beside a write, a read is not made exactly when it is not asked for or the write wins. -/
theorem readMade_eq_false_iff (hw : asksMotorWrite cfg pins) (target : ReadTarget) :
    readMade cfg pins readWins target = false ↔ (selectsRead cfg pins target = true → readWins = false) := by
  rw [← Bool.not_eq_true, readMade_iff, not_and]
  simp [hw]

/-! ### The data pins after the operation -/

theorem portByte_eq (b : Bit) : portByte b = 0x80#8 ∨ portByte b = 0x00#8 := by
  revert b; decide

/-- Settles O56: the decode of the address says what the pins ask for, and `readWins` which of a read and a write is
made; the pins take the byte that `CASRD` answers, and a `MOTORW` answers none. -/
theorem busTransactionsSelectTheirOperation : Obligations.BusTransactionsSelectTheirOperation := by
  intro cfg pins tick readWins
  refine ⟨?casrd, ?motorw, fun i => busInstr_eq_some, ?sound, fun b => rfl, ?answer, ?kept⟩
  case casrd => rw [busInstr_eq_casrd_iff, readMade_iff, selectsRead_cassette_iff]
  case motorw =>
    rw [busInstr_eq_motorw_iff, selectsMotorw_iff, or_imp]
    refine and_congr_right fun hw => ?_
    rw [readMade_eq_false_iff hw, readMade_eq_false_iff hw, selectsRead_cassette_iff, selectsRead_sound_iff]
  case sound => rw [readMade_iff, selectsRead_sound_iff]
  case answer =>
    intro s t hcursor ht
    rcases execCasrd_next.1 ht with ⟨-, rfl⟩ | ⟨href, -⟩
    · exact ⟨_, rfl, portByte_eq _, rfl⟩
    · rw [State.popRefused_of_cursor hcursor] at href
      cases href
  case kept =>
    intro s t data tick' ht
    obtain rfl := execMotorw_next.1 ht
    rfl

end Sys2Proof.Machine
end

section
/-! Scope: a run stored in one pass is the loop of single stores (R83, R44). -/

namespace Sys2Proof.Machine

variable {α : Type} {m : Memory α}

theorem Memory.writeRun_nil (hm : m.wf) (a : Nat) : m.writeRun a [] = m := by
  refine Memory.ext_of_wf (Memory.wf_writeRun hm a []) hm fun b => ?_
  rw [Memory.read_writeRun, if_neg (by simp)]

/-- The first value of a run can be stored on its own, before the rest of the run. -/
theorem Memory.writeRun_cons (hm : m.wf) (a : Nat) (v : α) (vs : List α) :
    m.writeRun a (v :: vs) = (m.write a v).writeRun (a + 1) vs := by
  refine Memory.ext_of_wf (Memory.wf_writeRun hm a _) (Memory.wf_writeRun (Memory.wf_write hm a v) (a + 1) vs) fun b => ?_
  simp only [Memory.read_writeRun, Memory.read_write, List.length_cons]
  rcases Nat.lt_trichotomy b a with hlow | rfl | hhigh
  · rw [if_neg (by omega), if_neg (by omega), if_neg (by omega)]
  · rw [if_pos (by omega), if_neg (by omega), if_pos rfl, Nat.sub_self, List.getElem?_cons_zero]
  · have hindex : b - a = b - (a + 1) + 1 := by omega
    rw [if_neg (show a ≠ b by omega), hindex, List.getElem?_cons_succ]
    exact if_congr (by omega) rfl rfl

theorem Memory.writeRun_eq_foldl (hm : m.wf) (a : Nat) (vs : List α) :
    m.writeRun a vs = (vs.zipIdx a).foldl (fun m x => m.write x.2 x.1) m := by
  induction vs generalizing m a with
  | nil => exact Memory.writeRun_nil hm a
  | cons v vs ih => rw [Memory.writeRun_cons hm, ih (Memory.wf_write hm a v), List.zipIdx_cons, List.foldl_cons]

/-- Settles O59: memories in canonical form that read alike are equal, so a run is stored one value at a time. -/
theorem runAccessIsTheLoopOfSingleAccesses : Obligations.RunAccessIsTheLoopOfSingleAccesses :=
  fun _ a n vs hm => ⟨Memory.writeRun_eq_foldl hm a vs, Memory.wf_writeRun hm a vs, Memory.readRun_eq_map hm a n⟩

end Sys2Proof.Machine
end

section
/-! Scope: the normalised bitstream of a tape input, ASCII (R62, R63, R85) and raw binary (R84, R86). -/

namespace Sys2Proof.Machine

variable {cfg : Config} {bytes : List Byte}

theorem isSymbol_iff (b : Byte) : isSymbol b = true ↔ b = symZero ∨ b = symOne := by
  simp [isSymbol]

theorem normalise_of_isAscii (h : isAscii bytes = true) : normalise cfg bytes = bytes.filter isSymbol := by
  rw [normalise, if_pos h, filterAscii]

theorem normalise_of_not_isAscii (h : isAscii bytes = false) :
    normalise cfg bytes = (bytes.drop (skipLen cfg bytes)).flatMap symbolsOf := by
  rw [normalise, h, if_neg Bool.false_ne_true, expandBinary]

/-! ### The ASCII form -/

/-- Settles O14: a filter keeps the order, keeps only symbols, and keeps each of them. -/
theorem asciiInputKeepsExactlyItsSymbols : Obligations.AsciiInputKeepsExactlyItsSymbols := by
  intro cfg b bs hb
  have hsym : isSymbol b = true := (isSymbol_iff b).2 hb
  rw [normalise_of_isAscii (show isAscii (b :: bs) = true from hsym)]
  refine ⟨List.filter_sublist, fun x hx => (isSymbol_iff x).1 (List.of_mem_filter hx),
    fun x hx => List.count_filter ((isSymbol_iff x).2 hx), ?_⟩
  rw [List.filter_cons_of_pos hsym, List.head?_cons]

/-! ### The expansion of raw binary input -/

@[simp] theorem length_symbolsOf (b : Byte) : (symbolsOf b).length = 8 := rfl

theorem length_flatMap_symbolsOf (bs : List Byte) : (bs.flatMap symbolsOf).length = 8 * bs.length := by
  induction bs with
  | nil => rfl
  | cons b bs ih =>
    rw [List.flatMap_cons, List.length_append, length_symbolsOf, ih, List.length_cons, Nat.mul_succ, Nat.add_comm]

/-- Eight symbols a byte: symbol `8i + r` is symbol `r` of byte `i`. -/
theorem getElem?_flatMap_symbolsOf {bs : List Byte} {i r : Nat} {x : Byte} (hx : bs[i]? = some x) (hr : r < 8) :
    (bs.flatMap symbolsOf)[8 * i + r]? = (symbolsOf x)[r]? := by
  induction bs generalizing i with
  | nil => cases hx
  | cons b bs ih =>
    cases i with
    | zero =>
      obtain rfl : b = x := by simpa using hx
      rw [List.flatMap_cons, Nat.mul_zero, Nat.zero_add, List.getElem?_append_left (by simpa using hr)]
    | succ i =>
      rw [List.flatMap_cons, List.getElem?_append_right (by simp; omega), length_symbolsOf, ← ih (by simpa using hx)]
      congr 1
      omega

/-- Settles O12: the input without its header is expanded byte by byte, and symbol `7 - k` of a byte is its bit `k`. -/
theorem rawBinaryExpandsMostSignificantFirst : Obligations.RawBinaryExpandsMostSignificantFirst := by
  intro cfg bytes hraw
  rw [normalise_of_not_isAscii hraw]
  refine ⟨by rw [length_flatMap_symbolsOf, List.length_drop], fun j k x hj hx hk => ?_⟩
  have hbyte : (bytes.drop (skipLen cfg bytes))[j - skipLen cfg bytes]? = some x := by
    rw [List.getElem?_drop, Nat.add_sub_cancel' hj, hx]
  rw [getElem?_flatMap_symbolsOf hbyte (by omega), getElem?_symbolsOf x (by omega), show 7 - (7 - k) = k by omega]
  rfl

/-! ### The container header -/

/-- A container header is the tag at the front of at least 16 bytes (R86). -/
theorem skipLen_eq (cfg : Config) (bytes : List Byte) :
    skipLen cfg bytes = if 16 ≤ bytes.length ∧ cfg.magic <+: bytes then 16 else 0 := by
  refine if_congr (and_congr_right fun _ => ?_) rfl rfl
  rw [List.prefix_iff_eq_take, eq_comm]

/-- The tag has a first byte, and it is no symbol (R5). -/
theorem magic_eq_cons_of_wf (h : cfg.wf = true) : ∃ b rest, cfg.magic = b :: rest ∧ isSymbol b = false := by
  simp only [Config.wf, OpenParams.wf, OpenParams.magicOk, Bool.and_eq_true] at h
  obtain ⟨⟨⟨⟨hmagic, -⟩, -⟩, -⟩, -⟩ := h
  cases hm : cfg.magic with
  | nil => simp [hm] at hmagic
  | cons b rest =>
    simp only [hm, Bool.and_eq_true, Bool.not_eq_true'] at hmagic
    obtain ⟨⟨-, hzero⟩, hone⟩ := hmagic
    exact ⟨b, rest, rfl, by rw [isSymbol, hzero, hone, Bool.or_self]⟩

theorem isAscii_of_begins_with_magic (hcfg : cfg.wf = true) (h : cfg.magic <+: bytes) : isAscii bytes = false := by
  obtain ⟨b, rest, hmagic, hb⟩ := magic_eq_cons_of_wf hcfg
  obtain ⟨tail, rfl⟩ := h
  rw [hmagic]
  exact hb

/-- Settles O13: the tag's first byte is no symbol, so an input that begins with the tag is raw binary; the two sides
are the two values of `skipLen`. -/
theorem containerHeaderIsSkipped : Obligations.ContainerHeaderIsSkipped := by
  intro cfg bytes hcfg
  refine ⟨fun hheader => ?_, fun hraw hheader => ?_⟩
  · have hraw : isAscii bytes = false := isAscii_of_begins_with_magic hcfg hheader.2
    have hnorm : normalise cfg bytes = (bytes.drop 16).flatMap symbolsOf := by
      rw [normalise_of_not_isAscii hraw, skipLen_eq, if_pos hheader]
    exact ⟨hraw, hnorm, by rw [hnorm, length_flatMap_symbolsOf, List.length_drop]⟩
  · rw [normalise_of_not_isAscii hraw, skipLen_eq, if_neg hheader, List.drop_zero, length_flatMap_symbolsOf]

end Sys2Proof.Machine
end

section
/-! Scope: what `TINSERT` (R81 to R83) and `TEJECT` (R90, R91) answer and leave. -/

namespace Sys2Proof.Machine

variable {s : State}

/-! ### `TINSERT` -/

theorem State.failedInsert_eq (s : State) :
    s.failedInsert = { s with cat := if s.cfg.insertFailClearsCatalog then [] else s.cat } := by
  unfold State.failedInsert
  cases s.cfg.insertFailClearsCatalog <;> rfl

theorem exec_tinsert_of_invalid {input : Option (List Byte)} (h : validInput input = none) :
    exec (.tinsert input) s = .next (s.failedInsert.answer (.success false)) :=
  execTinsert_next.2 (.inl ⟨h, rfl⟩)

theorem exec_tinsert_of_fits {b : Byte} {bs : List Byte} (h : (normalise s.cfg (b :: bs)).length ≤ s.cfg.tapeCap) :
    exec (.tinsert (some (b :: bs))) s =
      .next ((s.loadTape (normalise s.cfg (b :: bs))).fillCatalog.answer (.success true)) := by
  rw [exec_tinsert, execTinsert_next]
  exact .inr ⟨_, validInput_cons b bs, .inl ⟨h, rfl⟩⟩

theorem exec_tinsert_of_tooLong {b : Byte} {bs : List Byte} (h : s.cfg.tapeCap < (normalise s.cfg (b :: bs)).length) :
    exec (.tinsert (some (b :: bs))) s = .next (s.refuse .tapeTooLong) := by
  rw [exec_tinsert, execTinsert_next]
  exact .inr ⟨_, validInput_cons b bs, .inr ⟨h, rfl⟩⟩

/-- Settles O10: no first byte, a bitstream that fits, one that does not. -/
theorem insertValidityAndCapacity : Obligations.InsertValidityAndCapacity := by
  refine fun s => ⟨fun input hinput => ?_, fun b bs hfits => ⟨_, exec_tinsert_of_fits hfits, rfl⟩,
    fun b bs hlong => exec_tinsert_of_tooLong hlong⟩
  have hinvalid : validInput input = none := by rcases hinput with rfl | rfl <;> rfl
  rw [exec_tinsert_of_invalid hinvalid, State.failedInsert_eq]
  rfl

/-- Settles O11: the run is stored from index 0, and the scan of the stored tape writes only the catalog and the
counter of draws. -/
theorem insertStoresTheBitstream : Obligations.InsertStoresTheBitstream := by
  intro s b bs hfits
  refine ⟨_, exec_tinsert_of_fits hfits, fun j hj => ?_, fun a ha => ?_, rfl, rfl⟩
  · exact (s.loadTape_read _ j).trans (if_pos hj)
  · exact (s.loadTape_read _ a).trans (if_neg (Nat.not_lt.2 ha))

/-! ### `TEJECT` and what follows it -/

theorem exec_tcate_of_cat_nil (h : s.cat = []) (i : Nat) :
    exec (.tcate i) s = .next (s.refuse .catalogIndexOutOfRange) := by
  rw [exec_tcate, execTcate_next]
  exact .inr ⟨by simp [State.catCount, h], rfl⟩

/-- Settles O15: an ejected codec has no entry at any index. -/
theorem ejectEmptiesTheCodec : Obligations.EjectEmptiesTheCodec := by
  refine fun s => ⟨rfl, fun t i ht => ?_⟩
  obtain rfl := execTeject_next.1 ht
  exact exec_tcate_of_cat_nil rfl i

/-- The codec holds no tape: what `TEJECT` leaves (R90). -/
structure State.Ejected (s : State) : Prop where
  length : s.length = 0
  cursor : s.cursor = 0
  cat : s.cat = []

theorem State.ejectTape_ejected (s : State) : s.ejectTape.Ejected := ⟨rfl, rfl, rfl⟩

theorem State.Ejected.answer (h : s.Ejected) (r : Result) : (s.answer r).Ejected := ⟨h.length, h.cursor, h.cat⟩

theorem State.Ejected.popRefused (h : s.Ejected) : s.popRefused = false :=
  State.popRefused_of_le (by rw [h.length]; exact Nat.zero_le _)

/-- Either comparator wraps a cursor that steps past an empty tape (R126, R128). -/
theorem wrapCursor_zero (ge : Bool) : wrapCursor ge 1 0 = 0 := by cases ge <;> rfl

theorem State.Ejected.popState (h : s.Ejected) (site : Site) : (s.popState site).Ejected where
  length := h.length
  cursor := by rw [State.popState_cursor, h.cursor, h.length, wrapCursor_zero]
  cat := h.cat

theorem State.Ejected.afterAdvance (h : s.Ejected) (tick : Nat) : (s.afterAdvance tick).Ejected := by
  unfold State.afterAdvance
  split
  · obtain ⟨hlength, hcursor, hcat⟩ := h.popState .motor
    exact ⟨hlength, hcursor, hcat⟩
  · exact h

/-- Settles O16: a bit read of either site leaves an ejected codec ejected. -/
theorem bitReadAfterEjectLeavesCodecEmpty : Obligations.BitReadAfterEjectLeavesCodecEmpty := by
  intro s t ht
  obtain rfl := execTeject_next.1 ht
  have hejected : (s.ejectTape.answer .none).Ejected := s.ejectTape_ejected.answer _
  refine ⟨?port, fun tick prn htick => ?poll⟩
  case port =>
    obtain ⟨hlength, hcursor, hcat⟩ := hejected.popState .port
    exact ⟨_, _, execCasrd_next.2 (.inl ⟨hejected.popRefused, rfl⟩), hlength, hcursor, hcat, rfl, portByte_eq _⟩
  case poll =>
    obtain ⟨hlength, hcursor, hcat⟩ := hejected.afterAdvance tick
    exact ⟨_, exec_tpoll_of_popRefused_eq_false prn htick hejected.popRefused, hlength, hcursor, hcat⟩

end Sys2Proof.Machine
end

section
/-! Scope: where a pass of the header scan ends (R102 to R104). -/

namespace Sys2Proof.Machine

variable {s : State} {policy : ScanBreakPolicy}

/-! ### The first pattern, and patterns under each policy -/

/-- Under the default policy a pass is sound and misses nothing, so it ends at the first pattern (R102, R104). -/
theorem State.scanPass_eq_some_iff (hwf : s.tape.wf) (hw : s.tapeWritten) (hp : s.cfg.scanBreakPolicy = .resetCount)
    (d p a : Nat) : (s.scanPass d p).1 = some a ↔ s.firstPatternFrom p a := by
  have hreset : s.cfg.scanBreakPolicy ≠ .ignore := by simp [hp]
  have hfound {a : Nat} (h : (s.scanPass d p).1 = some a) : p ≤ a ∧ s.patternAt a := by
    have hpass : s.scanPass d p = (some a, (s.scanPass d p).2) := Prod.ext h rfl
    exact ⟨(State.scanPass_bounds hpass).1, State.scanPass_sound hwf hw hreset hpass⟩
  constructor
  · intro h
    obtain ⟨hpa, hpat⟩ := hfound h
    refine ⟨hpa, hpat, fun a' hpa' hlt hpat' => ?_⟩
    obtain ⟨b, hb, hpass⟩ := State.scanPass_complete hwf hw hp (d := d) hpa' hpat'
    obtain rfl : a = b := Option.some.inj (h.symm.trans hpass)
    omega
  · rintro ⟨hpa, hpat, hfirst⟩
    obtain ⟨b, hb, hpass⟩ := State.scanPass_complete hwf hw hp (d := d) hpa hpat
    obtain ⟨hpb, hpatb⟩ := hfound hpass
    obtain rfl : b = a := by
      by_contra hne
      exact hfirst b hpb (by omega) hpatb
    exact hpass

/-- Settles O17: a pass of the default policy stops at a pattern, and passes none before it. -/
theorem passFindsTheFirstPattern : Obligations.PassFindsTheFirstPattern :=
  fun _ d p hwf hw hp a => State.scanPass_eq_some_iff hwf hw hp d p a

/-- Settles O18: the counters bound the header's place under every policy, and where a `'1'` resets them they count what
stands directly before. -/
theorem declaredHeadersStandAtPatterns : Obligations.DeclaredHeadersStandAtPatterns := by
  intro s d p a d' hpass
  obtain ⟨hpa, hlen⟩ := State.scanPass_bounds hpass
  exact ⟨hpa, hlen, fun hwf hw hp => State.scanPass_sound hwf hw hp hpass⟩

/-! ### A boundary run that a `'1'` breaks (R103) -/

/-- Forty or more ones and then a short boundary run set the two counters to the lengths of the two runs. -/
theorem passFrom_leader_then_short {leader boundary : List (Option Byte)} (hleader : ∀ c ∈ leader, c = some symOne)
    (hboundary : ∀ c ∈ boundary, ∃ b, c = some b ∧ b ≠ symOne) (hn : 40 ≤ leader.length) (hk : boundary.length < 40)
    (rest : List (Option Byte)) (p d : Nat) :
    passFrom policy (leader ++ (boundary ++ rest)) p 0 0 d =
      passFrom policy rest (p + leader.length + boundary.length) leader.length boundary.length d := by
  rw [passFrom_ones hleader, Nat.zero_add, passFrom_others_short hboundary rest _ d hn (by omega), Nat.zero_add]

/-- Ones that break a boundary run under a policy that drops it: `BreakOnOne` counts the first, the others add to it. -/
theorem passFrom_breaking_ones {cs : List (Option Byte)} (hcs : ∀ c ∈ cs, c = some symOne) (hlen : 1 ≤ cs.length)
    {o h : Nat} (hh : 0 < h) (hdrop : (breakOnOne policy o h).2 = 0) (rest : List (Option Byte)) (k d : Nat) :
    passFrom policy (cs ++ rest) k o h d =
      passFrom policy rest (k + cs.length) ((breakOnOne policy o h).1 + (cs.length - 1)) 0 d := by
  cases cs with
  | nil => simp at hlen
  | cons c cs =>
    obtain ⟨rfl, hrest⟩ := List.forall_mem_cons.1 hcs
    rw [List.cons_append, passFrom_break policy _ k o d hh, hdrop, passFrom_ones hrest, List.length_cons,
      Nat.add_sub_cancel, Nat.add_right_comm, Nat.add_assoc]

/-- Forty or more others at the end of the tape complete a header exactly where a full leader has been counted. -/
theorem passFrom_last_others {cs : List (Option Byte)} (hcs : ∀ c ∈ cs, ∃ b, c = some b ∧ b ≠ symOne)
    (hlen : 40 ≤ cs.length) (k o d : Nat) :
    (passFrom policy cs k o 0 d).1 = if 40 ≤ o then some (k + 39 - 79) else none := by
  split
  · rename_i ho
    exact passFrom_others_enough hcs k d ho (by omega) (by omega)
  · rename_i ho
    exact passFrom_others_none hcs k d (by omega)

/-- A broken boundary run (R103) from `p` on: a leader of `n` ones, a boundary run of `k` others, `m` ones, `j` others to the end. -/
structure State.BrokenRun (s : State) (p n k m j : Nat) : Prop where
  canonical : s.tape.wf
  leaderFull : 40 ≤ n
  boundaryStarted : 1 ≤ k
  boundaryShort : k < 40
  broken : 1 ≤ m
  boundaryFull : 40 ≤ j
  length : s.length = p + n + k + m + j
  leader : s.onesAt p n
  boundary : s.othersAt (p + n) k
  breaking : s.onesAt (p + n + k) m
  final : s.othersAt (p + n + k + m) j

variable {p n k m j : Nat}

theorem State.BrokenRun.tapeFrom (h : s.BrokenRun p n k m j) : s.tapeFrom p =
    s.tape.readRun p n ++ (s.tape.readRun (p + n) k ++
      (s.tape.readRun (p + n + k) m ++ s.tape.readRun (p + n + k + m) j)) := by
  have hlen : s.length - p = n + (k + (m + j)) := by have := h.length; omega
  rw [State.tapeFrom, hlen, Memory.readRun_add h.canonical, Memory.readRun_add h.canonical,
    Memory.readRun_add h.canonical]

/-- A pass reaches the breaking ones with `n` ones and `k` others counted. -/
theorem State.BrokenRun.scanPass (h : s.BrokenRun p n k m j) (d : Nat) : s.scanPass d p =
    passFrom s.cfg.scanBreakPolicy (s.tape.readRun (p + n + k) m ++ s.tape.readRun (p + n + k + m) j)
      (p + n + k) n k d := by
  rw [State.scanPass, h.tapeFrom, passFrom_leader_then_short (h.leader.cells h.canonical)
    (h.boundary.cells h.canonical) (by simpa using h.leaderFull) (by simpa using h.boundaryShort)]
  simp only [Memory.length_readRun]

/-- Under a policy that drops the boundary run, what `BreakOnOne` makes of the first of the `m` ones decides. -/
theorem State.BrokenRun.scanPass_of_drop (h : s.BrokenRun p n k m j) (d : Nat)
    (hdrop : (breakOnOne s.cfg.scanBreakPolicy n k).2 = 0) (hone : (breakOnOne s.cfg.scanBreakPolicy n k).1 ≤ 1) :
    (s.scanPass d p).1 =
      if 40 ≤ (breakOnOne s.cfg.scanBreakPolicy n k).1 + (m - 1) then some (p + n + k + (m - 40)) else none := by
  rw [h.scanPass, passFrom_breaking_ones (h.breaking.cells h.canonical) (by simpa using h.broken) h.boundaryStarted hdrop,
    passFrom_last_others (h.final.cells h.canonical) (by simpa using h.boundaryFull)]
  simp only [Memory.length_readRun]
  split
  · exact congrArg some (by omega)
  · rfl

/-- Under `ignore` the final others complete the first boundary run. -/
theorem State.BrokenRun.scanPass_of_ignore (h : s.BrokenRun p n k m j) (d : Nat)
    (hp : s.cfg.scanBreakPolicy = .ignore) : (s.scanPass d p).1 = some (p + (n - 40) + m) := by
  have hn := h.leaderFull
  have hk := h.boundaryShort
  have hj : 40 ≤ k + (s.tape.readRun (p + n + k + m) j).length := by
    rw [Memory.length_readRun]
    exact Nat.le_add_left_of_le h.boundaryFull
  rw [h.scanPass, hp, passFrom_ignored_ones (h.breaking.cells h.canonical) _ _ _ _ h.boundaryStarted,
    passFrom_others_enough (h.final.cells h.canonical) _ _ (by omega) hk hj]
  simp only [Memory.length_readRun, Option.some.injEq]
  omega

/-- Settles O19: `reset_count` keeps the first breaking `'1'`, `reset_nocount` loses it, `ignore` keeps the boundary run. -/
theorem brokenBoundaryRunFollowsThePolicy : Obligations.BrokenBoundaryRunFollowsThePolicy := by
  refine ⟨fun o h => ⟨rfl, rfl, rfl⟩, ?_⟩
  intro s d p n k m j hwf hn hk hk' hm hj hlen hleader hboundary hbreaking hfinal
  have hrun : s.BrokenRun p n k m j := ⟨hwf, hn, hk, hk', hm, hj, hlen, hleader, hboundary, hbreaking, hfinal⟩
  refine ⟨fun hp => ?_, fun hp => ?_, hrun.scanPass_of_ignore d⟩
  · rw [hrun.scanPass_of_drop d (by rw [hp]; rfl) (by simp [hp, breakOnOne]), hp]
    exact if_congr (show 40 ≤ 1 + (m - 1) ↔ 40 ≤ m by omega) rfl rfl
  · rw [hrun.scanPass_of_drop d (by rw [hp]; rfl) (by simp [hp, breakOnOne]), hp]
    exact if_congr (show 40 ≤ 0 + (m - 1) ↔ 41 ≤ m by omega) rfl rfl

end Sys2Proof.Machine
end

section
/-! Scope: the name decode (R111, R112), the catalog a `TINSERT` makes (R100, R105 to R107, R113) and its bound (R108). -/

namespace Sys2Proof.Machine

variable {s t : State}

/-! ### Names -/

theorem State.decodeName_spec (s : State) (d start : Nat) :
    (s.decodeName d start).1.length = 17 ∧ ∀ b ∈ (s.decodeName d start).1, nameByte b :=
  s.nameFrom_spec 17 (start + 91) d

theorem sanitize_of_printable {v : Byte} (h : 0x21#8 ≤ v ∧ v ≤ 0x7A#8) : sanitize v = v := if_pos h

theorem sanitize_of_not_printable {v : Byte} (h : ¬ (0x21#8 ≤ v ∧ v ≤ 0x7A#8)) : sanitize v = 0x20#8 := if_neg h

/-- Settles O24: the two cases of `Sanitize`, and what the loop of `DecodeName` makes of any bytes, drawn or read. -/
theorem namesAreSeventeenPrintableBytes : Obligations.NamesAreSeventeenPrintableBytes :=
  ⟨fun _ => ⟨sanitize_of_printable, sanitize_of_not_printable⟩, State.decodeName_spec⟩

/-- Settles O23: a frame within the tape takes no draw, and character `c` lies within the frame. -/
theorem nameCharactersAreSpacedFields : Obligations.NameCharactersAreSpacedFields :=
  fun s d _ hw hlen => ⟨s.decodeName_draws hw d hlen, fun _ hc => s.decodeName_char hw d d hc (by omega)⟩

/-! ### The catalog of a stored bitstream -/

/-- The catalog and the answer bear on no scan. -/
theorem State.scanFrom_fillCatalog_answer (s : State) (r : Result) (fuel p d : Nat) :
    (s.fillCatalog.answer r).scanFrom fuel p d = s.scanFrom fuel p d :=
  State.scanFrom_congr (s := s) (t := s.fillCatalog.answer r) rfl rfl rfl fuel p d

/-- What a `TINSERT` that fits leaves for the catalog: a written tape in canonical form, and the scan of that tape with
the draws made before (R83, R100). -/
theorem exec_tinsert_catalog {b : Byte} {bs : List Byte} (hwf : s.tape.wf)
    (hfits : (normalise s.cfg (b :: bs)).length ≤ s.cfg.tapeCap) (ht : exec (.tinsert (some (b :: bs))) s = .next t) :
    t.cfg = s.cfg ∧ t.tape.wf ∧ t.tapeWritten ∧ t.cat = (t.scanFrom t.length 0 s.draws).1 := by
  obtain rfl := Host.Outcome.next.inj ((exec_tinsert_of_fits hfits).symm.trans ht)
  have hsymbols := s.loadTape_symbols (normalise_symbols s.cfg (b :: bs))
  refine ⟨rfl, Memory.wf_writeRun hwf 0 _, State.tapeWritten_of_symbols hsymbols, ?_⟩
  rw [State.scanFrom_fillCatalog_answer]
  rfl

/-- Where no pass finds a header, no pattern is left. -/
theorem State.offsetsFrom_nil_of_scanPass (hwf : s.tape.wf) (hw : s.tapeWritten)
    (hp : s.cfg.scanBreakPolicy = .resetCount) {d p : Nat} (h : (s.scanPass d p).1 = none) : s.offsetsFrom p [] := by
  intro a hpa hpat
  obtain ⟨b, -, hpass⟩ := State.scanPass_complete hwf hw hp (d := d) hpa hpat
  rw [h] at hpass
  cases hpass

/-- No pattern stands past the end of the tape. -/
theorem State.offsetsFrom_nil_of_length_le {p : Nat} (h : s.length ≤ p) : s.offsetsFrom p [] :=
  fun a hpa ⟨hlen, _⟩ => by omega

/-- A scan with fuel for the rest of the tape lists the patterns in order (R100, R105, R106). -/
theorem State.scanFrom_offsets (hwf : s.tape.wf) (hw : s.tapeWritten) (hp : s.cfg.scanBreakPolicy = .resetCount)
    {fuel p : Nat} (d : Nat) (hfuel : s.length ≤ p + fuel) :
    s.offsetsFrom p ((s.scanFrom fuel p d).1.map (·.offset)) := by
  induction fuel generalizing p d with
  | zero => exact State.offsetsFrom_nil_of_length_le hfuel
  | succ fuel ih =>
    rw [State.scanFrom_succ]
    split
    · rcases hpass : s.scanPass d p with ⟨_ | a, d1⟩
      · exact State.offsetsFrom_nil_of_scanPass hwf hw hp (d := d) (by rw [hpass])
      · have hfirst : s.firstPatternFrom p a := (State.scanPass_eq_some_iff hwf hw hp d p a).1 (by rw [hpass])
        have hpa : p ≤ a := hfirst.1
        exact ⟨hfirst, ih (p := a + 800) _ (by omega)⟩
    · exact State.offsetsFrom_nil_of_length_le (by omega)

/-- Settles O20: the catalog is the scan of the stored tape from index 0, whose fuel is the tape's length. -/
theorem catalogListsPatternsInOrder : Obligations.CatalogListsPatternsInOrder := by
  intro s t b bs hwf hp hfits ht
  obtain ⟨hcfg, htape, hw, hcat⟩ := exec_tinsert_catalog hwf hfits ht
  rw [hcat]
  exact State.scanFrom_offsets htape hw (hcfg ▸ hp) s.draws (by omega)

/-- Settles O21: each name is decoded at its entry's offset, and a field or frame within the tape takes no draw. -/
theorem catalogNamesAreDecodedFromTheTape : Obligations.CatalogNamesAreDecodedFromTheTape := by
  intro s t b bs hwf hfits ht e he
  obtain ⟨-, htape, hw, hcat⟩ := exec_tinsert_catalog hwf hfits ht
  have hname : e.name = (t.decodeName s.draws e.offset).1 :=
    State.scanFrom_names htape hw t.length 0 s.draws e (hcat ▸ he)
  rw [hname]
  exact ⟨(t.decodeName_spec _ _).1, rfl, fun d hlen => t.decodeName_of_written hw _ d hlen,
    fun c d hc hlen => t.decodeName_char hw _ d hc hlen⟩

/-! ### The bound on the catalog -/

/-- Entries 800 apart, from `p` on and below `l`, are as many as the steps of 800 that begin below `l`. -/
theorem length_le_of_offsets {es : List CatEntry} {p l : Nat} (hp : p ≤ l + 799) (hlow : ∀ e ∈ es, p ≤ e.offset)
    (hhigh : ∀ e ∈ es, e.offset < l) (hasc : es.Pairwise fun e f => e.offset + 800 ≤ f.offset) :
    p + 800 * es.length ≤ l + 799 := by
  induction es generalizing p with
  | nil => simpa using hp
  | cons e es ih =>
    obtain ⟨hlow_e, -⟩ := List.forall_mem_cons.1 hlow
    obtain ⟨hhigh_e, hhigh⟩ := List.forall_mem_cons.1 hhigh
    obtain ⟨hnext, hasc⟩ := List.pairwise_cons.1 hasc
    have := ih (p := e.offset + 800) (by omega) hnext hhigh hasc
    simp only [List.length_cons]
    omega

theorem Config.catMax_eq (c : Config) : c.catMax = (c.tapeCap + 799) / 800 := rfl

/-- Settles O26: by R13 the offsets lie below `TAPE_CAP` and 800 apart. -/
theorem catalogFitsItsStore : Obligations.CatalogFitsItsStore := by
  intro s h
  refine ⟨?_, Config.catMax_eq s.cfg⟩
  have hhigh : ∀ e ∈ s.cat, e.offset < s.cfg.tapeCap := fun e he => by
    have := h.catOffsets e he
    have := h.lengthBound
    omega
  have hcount : 0 + 800 * s.catCount ≤ s.cfg.tapeCap + 799 :=
    length_le_of_offsets (Nat.zero_le _) (fun _ _ => Nat.zero_le _) hhigh h.catAscending
  rw [Config.catMax_eq]
  omega

end Sys2Proof.Machine
end

section
/-! Scope: what the catalog queries (R120, R121) and the selection (R122, R123) answer and leave. -/

namespace Sys2Proof.Machine

variable {s t : State}

/-! ### The queries -/

theorem exec_tcatn_of_cat_nil (h : s.cat = []) : ∃ u, exec .tcatn s = .next u ∧ u.result = .count 0 :=
  ⟨_, execTcatn_next.2 rfl, by simp [h]⟩

/-- Settles O27: the answer is the catalog's length, and each of the three states has an empty catalog. -/
theorem catalogCountIsReturned : Obligations.CatalogCountIsReturned := by
  refine ⟨fun s => rfl, exec_tcatn_of_cat_nil rfl, fun s t ht => ?eject, fun s t b bs ht hfits hscan => ?insert⟩
  case eject =>
    obtain rfl := execTeject_next.1 ht
    exact exec_tcatn_of_cat_nil rfl
  case insert =>
    obtain rfl := Host.Outcome.next.inj ((exec_tinsert_of_fits hfits).symm.trans ht)
    exact exec_tcatn_of_cat_nil hscan

theorem exec_tcate_of_getElem? {i : Nat} {e : CatEntry} (h : s.cat[i]? = some e) :
    exec (.tcate i) s = .next (s.answer (.entry e.name e.offset)) :=
  execTcate_next.2 (.inl ⟨e, h, rfl⟩)

theorem exec_tcate_of_catCount_le {i : Nat} (h : s.catCount ≤ i) :
    exec (.tcate i) s = .next (s.refuse .catalogIndexOutOfRange) :=
  execTcate_next.2 (.inr ⟨h, rfl⟩)

/-- Settles O28: an index that names an entry, and one that names none. -/
theorem catalogEntryIsReturned : Obligations.CatalogEntryIsReturned :=
  fun _ _ => ⟨fun _ he => exec_tcate_of_getElem? he, fun h => exec_tcate_of_catCount_le h⟩

/-! ### The selection -/

theorem exec_tselect_zero (s : State) : exec (.tselect 0) s = .next ((s.seek 0).answer .none) :=
  execTselect_next.2 (.inl ⟨rfl, rfl⟩)

theorem exec_tselect_of_getElem? {i : Nat} {e : CatEntry} (hi : i ≠ 0) (h : s.cat[i]? = some e) :
    exec (.tselect i) s = .next ((s.seek e.offset).answer .none) :=
  execTselect_next.2 (.inr (.inl ⟨hi, e, h, rfl⟩))

theorem exec_tselect_of_catCount_le {i : Nat} (hi : i ≠ 0) (h : s.catCount ≤ i) :
    exec (.tselect i) s = .next (s.refuse .catalogIndexOutOfRange) :=
  execTselect_next.2 (.inr (.inr ⟨hi, h, rfl⟩))

/-- Settles O29: index 0, an index that names an entry, and one that names none. -/
theorem selectSetsTheCursor : Obligations.SelectSetsTheCursor :=
  fun s => ⟨exec_tselect_zero s, fun _ _ hi he => exec_tselect_of_getElem? hi he,
    fun _ hi h => exec_tselect_of_catCount_le hi h⟩

/-- A selection that is not refused goes to index 0 or to an entry's offset, and the tape stays (R122, R123). -/
theorem exec_tselect_cursor {i : Nat} (hi : i = 0 ∨ i < s.catCount) (ht : exec (.tselect i) s = .next t) :
    t.tape = s.tape ∧ t.length = s.length ∧ (t.cursor = 0 ∨ ∃ e ∈ s.cat, t.cursor = e.offset) := by
  rcases execTselect_next.1 ht with ⟨-, rfl⟩ | ⟨-, e, he, rfl⟩ | ⟨hne, hle, -⟩
  · exact ⟨rfl, rfl, .inl rfl⟩
  · exact ⟨rfl, rfl, .inr ⟨e, List.mem_of_getElem? he, rfl⟩⟩
  · omega

/-- Settles O30: R13 bounds the entry's offset, and R54 says what stands there. -/
theorem selectedCursorIsZeroOrAtAPattern : Obligations.SelectedCursorIsZeroOrAtAPattern := by
  intro s t i hinv hi ht
  obtain ⟨htape, hlen, hzero | ⟨e, he, hcur⟩⟩ := exec_tselect_cursor hi ht
  · exact ⟨.inl hzero, fun _ _ => .inl hzero⟩
  · rw [hcur, hlen]
    exact ⟨.inr (hinv.catOffsets e he),
      fun hmatch hpolicy => .inr ((State.patternAt_congr htape hlen _).2 (hmatch hpolicy e he))⟩

end Sys2Proof.Machine
end

section
/-! Scope: which entry `TCUR` names (R124, R125). -/

namespace Sys2Proof.Machine

variable {s : State} {cursor : Nat} {es : List CatEntry}

/-- The last entry decides where the cursor has not passed it; otherwise the loop's result is that of the entries before. -/
theorem entryIndexFrom_concat (cursor : Nat) (es : List CatEntry) (e : CatEntry) (i r : Nat) :
    entryIndexFrom cursor (es ++ [e]) i r =
      if cursor ≤ e.offset then i + es.length else entryIndexFrom cursor es i r := by
  induction es generalizing i r with
  | nil => rfl
  | cons f es ih => simp [entryIndexFrom, ih, Nat.add_assoc, Nat.add_comm 1]

/-- Where the cursor has passed every entry, the loop keeps the result it began with. -/
theorem entryIndexFrom_of_passed (h : ∀ e ∈ es, e.offset < cursor) (i r : Nat) :
    entryIndexFrom cursor es i r = r := by
  induction es generalizing i with
  | nil => rfl
  | cons e es ih =>
    obtain ⟨he, hes⟩ := List.forall_mem_cons.1 h
    rw [entryIndexFrom, if_neg (Nat.not_le.2 he), ih hes]

/-- The result names the highest entry that the cursor has not passed, if there is one (R124). -/
theorem entryIndexFrom_highest (h : ∃ e ∈ es, cursor ≤ e.offset) :
    ∃ e, es[entryIndexFrom cursor es 0 0]? = some e ∧ cursor ≤ e.offset ∧
      ∀ i e', es[i]? = some e' → cursor ≤ e'.offset → i ≤ entryIndexFrom cursor es 0 0 := by
  induction es using List.reverseRecOn with
  | nil => simp at h
  | append_singleton es last ih =>
    rw [entryIndexFrom_concat, Nat.zero_add]
    split
    case isTrue hlast =>
      refine ⟨last, List.getElem?_concat_length, hlast, fun i e' he' _ => ?_⟩
      obtain ⟨hi, -⟩ := List.getElem?_eq_some_iff.1 he'
      simpa [Nat.lt_succ_iff] using hi
    case isFalse hlast =>
      have hbefore : ∃ e ∈ es, cursor ≤ e.offset := by simpa [or_and_right, exists_or, hlast] using h
      obtain ⟨e, he, hoffset, hhighest⟩ := ih hbefore
      obtain ⟨hlt, -⟩ := List.getElem?_eq_some_iff.1 he
      refine ⟨e, (List.getElem?_append_left hlt).trans he, hoffset, fun i e' he' hoffset' => ?_⟩
      rcases Nat.lt_or_ge i es.length with hi | hi
      · exact hhighest i e' ((List.getElem?_append_left hi).symm.trans he') hoffset'
      · rw [List.getElem?_append_right hi] at he'
        obtain rfl := List.mem_singleton.1 (List.mem_of_getElem? he')
        exact absurd hoffset' hlast

/-- Settles O31: either the cursor has passed every entry, or the highest one it has not passed is named. -/
theorem currentEntryIsTheHighestAtOrPastTheCursor : Obligations.CurrentEntryIsTheHighestAtOrPastTheCursor := by
  intro s
  refine ⟨s.currentEntry, execTcur_next.2 rfl, ?_⟩
  by_cases h : ∃ e ∈ s.cat, s.cursor ≤ e.offset
  · exact .inl (entryIndexFrom_highest h)
  · have hpassed : ∀ e ∈ s.cat, e.offset < s.cursor := by simpa using h
    exact .inr ⟨entryIndexFrom_of_passed hpassed 0 0, hpassed⟩

theorem exec_tcur_of_passed (h : ∀ e ∈ s.cat, e.offset < s.cursor) : exec .tcur s = .next (s.answer (.index 0)) :=
  execTcur_next.2 (by rw [State.currentEntry, entryIndexFrom_of_passed h])

theorem exec_tcur_of_le_last {e : CatEntry} (hlast : s.cat.getLast? = some e) (h : s.cursor ≤ e.offset) :
    exec .tcur s = .next (s.answer (.index (s.catCount - 1))) := by
  obtain ⟨es, hcat⟩ := List.getLast?_eq_some_iff.1 hlast
  refine execTcur_next.2 ?_
  rw [State.currentEntry, State.catCount, hcat, entryIndexFrom_concat, if_pos h]
  simp

/-- Offsets ascend, so the last one is the greatest (R13). -/
theorem State.Inv.offset_le_last (hinv : s.Inv) {last : CatEntry} (hlast : s.cat.getLast? = some last) :
    ∀ e ∈ s.cat, e.offset ≤ last.offset := by
  obtain ⟨es, hcat⟩ := List.getLast?_eq_some_iff.1 hlast
  have hasc := hinv.catAscending
  rw [hcat, List.pairwise_append] at hasc
  obtain ⟨-, -, hbelow⟩ := hasc
  intro e he
  rw [hcat, List.mem_append, List.mem_singleton] at he
  rcases he with he | rfl
  · have := hbelow e he last (List.mem_singleton_self last)
    omega
  · exact Nat.le_refl _

/-- Settles O32: the last entry is named until the cursor has passed it, and then it has passed all of them. -/
theorem currentEntryIsTheLastUntilPassed : Obligations.CurrentEntryIsTheLastUntilPassed := by
  refine fun s hinv => ⟨fun e hlast h => exec_tcur_of_le_last hlast h, fun e hlast h => ?_, fun h => ?_⟩
  · exact exec_tcur_of_passed fun f hf => Nat.lt_of_le_of_lt (hinv.offset_le_last hlast f hf) h
  · exact exec_tcur_of_passed (by simp [h])

end Sys2Proof.Machine
end

section
/-! Scope: a bit read through the port (R67, R126, R129), of the empty codec (R128), and many in a row (R127). -/

namespace Sys2Proof.Machine

variable {s : State}

/-! ### The wrap test and the data byte -/

theorem wrapCursor_of_lt (ge : Bool) {c l : Nat} (h : c < l) : wrapCursor ge c l = c := by
  unfold wrapCursor
  split <;> exact if_neg (by omega)

theorem wrapCursor_gt_of_le {c l : Nat} (h : c ≤ l) : wrapCursor false c l = c := if_neg (Nat.not_lt.2 h)

theorem wrapCursor_gt_succ (l : Nat) : wrapCursor false (l + 1) l = 0 := if_pos (Nat.lt_succ_self l)

theorem wrapCursor_ge_self (l : Nat) : wrapCursor true l l = 0 := if_pos (Nat.le_refl l)

theorem portByte_eq_ite (b : Bit) : portByte b = if b = 1 then 0x80#8 else 0x00#8 := by
  revert b; decide

theorem portByte_bitOfSymbol (b : Byte) : portByte (bitOfSymbol b) = if b = 0x31#8 then 0x80#8 else 0x00#8 := by
  unfold bitOfSymbol symOne
  split <;> rfl

/-! ### One read -/

theorem State.sym_of_unwritten {i : Nat} (hi : i < s.length) (h : s.tape.read i = none) (d : Nat) :
    s.sym d i = (bitOfSymbol (Config.freeByte d), d + 1) := by simp [State.sym, hi, State.memRead, h]

/-- What a port read leaves: the bit popped and answered (R129). -/
def State.afterPortRead (s : State) : State := (s.popState .port).answer (.data (portByte s.popValue))

theorem exec_casrd_of_popRefused_eq_false (h : s.popRefused = false) : exec .casrd s = .next s.afterPortRead :=
  execCasrd_next.2 (.inl ⟨h, rfl⟩)

/-- A port read in terms of the symbol at the cursor and the draws its read has made. -/
theorem State.afterPortRead_of_sym {b : Bit} {d : Nat} (h : s.sym s.draws s.cursor = (b, d)) :
    s.afterPortRead = { s with
      cursor := wrapCursor s.cfg.wrapGePort (s.cursor + 1) s.length
      result := .data (portByte b)
      event := none
      draws := d } := by
  rw [State.afterPortRead, State.popState, State.popValue, h]
  rfl

/-- Settles O33: a written byte, one that nothing has written, and an index past the tape. -/
theorem portReadPopsOneBit : Obligations.PortReadPopsOneBit := by
  intro s c hc
  obtain rfl : c = wrapCursor s.cfg.wrapGePort (s.cursor + 1) s.length := hc
  refine ⟨fun b hlen hcap hb => ?written, fun hlen hcap hb => ?unwritten, fun hlen => ?past⟩
  case written =>
    rw [exec_casrd_of_popRefused_eq_false (State.popRefused_of_cursor fun _ => hcap),
      State.afterPortRead_of_sym (State.sym_of_read hlen hb _), portByte_bitOfSymbol]
  case unwritten =>
    rw [exec_casrd_of_popRefused_eq_false (State.popRefused_of_cursor fun _ => hcap),
      State.afterPortRead_of_sym (State.sym_of_unwritten hlen hb _), portByte_bitOfSymbol]
  case past =>
    rw [exec_casrd_of_popRefused_eq_false (State.popRefused_of_cursor fun h => absurd h (Nat.not_lt.2 hlen)),
      State.afterPortRead_of_sym (State.sym_of_length_le hlen _), portByte_eq_ite]

/-- Settles O34: the symbol lies past the tape, and either comparator wraps the cursor back to 0. -/
theorem emptyCodecReadLeavesTheState : Obligations.EmptyCodecReadLeavesTheState := by
  intro s site hlen hcur
  have hsym : s.sym s.draws s.cursor = (Config.freeBit s.draws, s.draws + 1) :=
    State.sym_of_length_le (by omega) _
  have hwrap : wrapCursor (wrapGe s.cfg site) (s.cursor + 1) s.length = s.cursor := by
    rw [hcur, hlen]
    exact wrapCursor_zero _
  refine ⟨by rw [State.popValue, hsym], ?_⟩
  rw [State.popState, hwrap, hsym]

/-! ### Reads in a row -/

theorem State.afterPortRead_cursor (s : State) :
    s.afterPortRead.cursor = wrapCursor s.cfg.wrapGePort (s.cursor + 1) s.length := rfl

theorem State.afterPortRead_result_of_read {b : Byte} (hlen : s.cursor < s.length) (hb : s.tape.read s.cursor = some b) :
    s.afterPortRead.result = .data (if b = 0x31#8 then 0x80#8 else 0x00#8) := by
  rw [State.afterPortRead_of_sym (State.sym_of_read hlen hb _), portByte_bitOfSymbol]

/-- Port reads of a tape that lies in its buffer are never refused (R44). -/
theorem readPort_eq_iterate (n : Nat) (h : s.length ≤ s.cfg.tapeCap) :
    readPort n s = some (State.afterPortRead^[n] s) := by
  induction n generalizing s with
  | zero => rfl
  | succ n ih =>
    rw [readPort, exec_casrd_of_popRefused_eq_false (State.popRefused_of_le h), Function.iterate_succ_apply]
    exact ih h

/-- Port reads leave the configuration and the tape alone. -/
theorem State.iterate_afterPortRead_frame (s : State) (n : Nat) :
    (State.afterPortRead^[n] s).cfg = s.cfg ∧ (State.afterPortRead^[n] s).tape = s.tape ∧
      (State.afterPortRead^[n] s).length = s.length := by
  induction n with
  | zero => exact ⟨rfl, rfl, rfl⟩
  | succ n ih =>
    rw [Function.iterate_succ_apply']
    exact ih

theorem State.iterate_afterPortRead_succ_cursor (s : State) (n : Nat) : (State.afterPortRead^[n + 1] s).cursor =
    wrapCursor s.cfg.wrapGePort ((State.afterPortRead^[n] s).cursor + 1) s.length := by
  obtain ⟨hcfg, -, hlen⟩ := s.iterate_afterPortRead_frame n
  rw [Function.iterate_succ_apply', State.afterPortRead_cursor, hcfg, hlen]

/-- As long as the wrap test lets the cursor stand, it counts the reads from index 0. -/
theorem State.iterate_afterPortRead_cursor (h0 : s.cursor = 0) {n : Nat}
    (hstands : ∀ m ≤ n, wrapCursor s.cfg.wrapGePort m s.length = m) : (State.afterPortRead^[n] s).cursor = n := by
  induction n with
  | zero => exact h0
  | succ n ih =>
    rw [State.iterate_afterPortRead_succ_cursor, ih fun m hm => hstands m (Nat.le_succ_of_le hm)]
    exact hstands (n + 1) (Nat.le_refl _)

theorem State.iterate_afterPortRead_cursor_of_lt (h0 : s.cursor = 0) {n : Nat} (hn : n < s.length) :
    (State.afterPortRead^[n] s).cursor = n :=
  State.iterate_afterPortRead_cursor h0 fun _ hm => wrapCursor_of_lt _ (Nat.lt_of_le_of_lt hm hn)

/-- Settles O35: below the length the cursor counts the reads; `>` lets it stand at the length and wraps it one read
later, `>=` wraps it there. -/
theorem tapeLoopsWithItsPeriod : Obligations.TapeLoopsWithItsPeriod := by
  intro s h0 hcap
  refine ⟨fun n hn => ?order, fun n b hn hb => ?bits, fun hgt => ?gt, fun hge hpos => ?ge⟩
  case order => exact ⟨_, readPort_eq_iterate n hcap, State.iterate_afterPortRead_cursor_of_lt h0 hn⟩
  case bits =>
    obtain ⟨-, htape, hlen⟩ := s.iterate_afterPortRead_frame n
    have hcur := State.iterate_afterPortRead_cursor_of_lt h0 hn
    refine ⟨_, readPort_eq_iterate (n + 1) hcap, ?_⟩
    rw [Function.iterate_succ_apply']
    exact State.afterPortRead_result_of_read (by rwa [hcur, hlen]) (by rwa [hcur, htape])
  case gt =>
    have hcur : (State.afterPortRead^[s.length] s).cursor = s.length :=
      State.iterate_afterPortRead_cursor h0 fun m hm => by rw [hgt, wrapCursor_gt_of_le hm]
    refine ⟨⟨_, readPort_eq_iterate _ hcap, hcur⟩, _, readPort_eq_iterate _ hcap, ?_⟩
    rw [State.iterate_afterPortRead_succ_cursor, hcur, hgt, wrapCursor_gt_succ]
  case ge =>
    obtain ⟨n, hn⟩ := Nat.exists_eq_succ_of_ne_zero hpos.ne'
    have hcur : (State.afterPortRead^[n] s).cursor = n := State.iterate_afterPortRead_cursor_of_lt h0 (by omega)
    refine ⟨_, readPort_eq_iterate _ hcap, ?_⟩
    rw [hn, Nat.succ_eq_add_one, State.iterate_afterPortRead_succ_cursor, hcur, hge, hn, wrapCursor_ge_self]

end Sys2Proof.Machine
end

section
/-! Scope: the bit reader's poll (R140 to R144, R148) and the motor-control write (R145 to R147, R32). -/

namespace Sys2Proof

/-! ### The configuration's constraints (R5, R148) -/

theorem Config.wf_iff {cfg : Config} : cfg.wf = true ↔ cfg.magicOk = true ∧
    (cfg.tAdv0 < cfg.tAdv1 ∧ cfg.tLvl1 < cfg.tAdv1 ∧ cfg.tLvl0 < cfg.tAdv0) ∧ 1 < cfg.speedBoost := by
  simp only [Config.wf, OpenParams.wf, Bool.and_eq_true, decide_eq_true_eq, and_assoc]

theorem Config.platform_wf : Config.platform.wf = true := Config.openChoice.ok

namespace Machine

variable {s : State}

/-- Settles O43: the machine after reset has the platform's configuration, whose OPEN parameters meet their constraints. -/
theorem thresholdsAreOrdered : Obligations.ThresholdsAreOrdered := by
  obtain ⟨-, hthresholds, -⟩ := Config.wf_iff.1 Config.platform_wf
  exact hthresholds

/-! ### The advance rule and the status byte of a poll -/

theorem State.elapsed_eq_div (s : State) (tick : Nat) : s.elapsed tick = (tick - s.tickAtLastAdvance) / 32 :=
  Nat.shiftRight_eq_div_pow _ 5

theorem State.advances_iff {tick : Nat} : s.advances tick = true ↔ advThreshold s.cfg s.bitLatch < s.elapsed tick :=
  decide_eq_true_iff

theorem State.advances_eq_false_iff {tick : Nat} :
    s.advances tick = false ↔ s.elapsed tick ≤ advThreshold s.cfg s.bitLatch := by
  rw [← Bool.not_eq_true, State.advances_iff, Nat.not_lt]

theorem State.afterAdvance_of_advances {tick : Nat} (h : s.advances tick = true) :
    s.afterAdvance tick = s.takeBit tick := if_pos h

theorem State.afterAdvance_of_not_advances {tick : Nat} (h : s.advances tick = false) : s.afterAdvance tick = s := by
  rw [State.afterAdvance, h]
  rfl

theorem levelBit_eq_one_iff (cfg : Config) (latch : Bit) (elapsed : Nat) :
    levelBit cfg latch elapsed = 1 ↔ lvlThreshold cfg latch < elapsed := by
  by_cases h : lvlThreshold cfg latch < elapsed <;> simp [levelBit, bitOfBool, h]

theorem statusByte_eq_ite (level : Bit) (engaged : Bool) (prn : Bit) : statusByte level engaged prn =
    (if level = 1 then 0x80#8 else 0#8) ||| (if engaged then 0#8 else 0x40#8) ||| (if prn = 1 then 0x04#8 else 0#8) |||
      0x3B#8 := by
  revert level engaged prn; decide

/-- The status byte with its level written out (R143). -/
theorem statusByte_levelBit (cfg : Config) (latch : Bit) (elapsed : Nat) (engaged : Bool) (prn : Bit) :
    statusByte (levelBit cfg latch elapsed) engaged prn =
      (if lvlThreshold cfg latch < elapsed then 0x80#8 else 0#8) ||| (if engaged then 0#8 else 0x40#8) |||
        (if prn = 1 then 0x04#8 else 0#8) ||| 0x3B#8 := by
  simp only [statusByte_eq_ite, levelBit_eq_one_iff]

/-- A poll that does not advance makes no bit read, so only its tick could refuse it (R149). -/
theorem exec_tpoll_of_not_advances {tick : Nat} (prn : Bit) (htick : s.tickAtLastAdvance ≤ tick)
    (h : s.advances tick = false) : exec (.tpoll tick prn) s =
      .next (s.answer (.status (statusByte (levelBit s.cfg s.bitLatch (s.elapsed tick)) s.engaged prn))) := by
  refine execTpoll_next.2 (.inl ⟨htick, by rw [h, Bool.and_false], ?_⟩)
  rw [State.pollStatus, State.afterAdvance_of_not_advances h]

theorem exec_tpoll_of_advances {tick : Nat} (prn : Bit) (htick : s.tickAtLastAdvance ≤ tick)
    (hpop : s.popRefused = false) (h : s.advances tick = true) : exec (.tpoll tick prn) s =
      .next ((s.takeBit tick).answer (.status (statusByte (levelBit s.cfg s.popValue (s.elapsed tick)) s.engaged prn))) := by
  rw [exec_tpoll_of_popRefused_eq_false prn htick hpop, State.pollStatus, State.afterAdvance_of_advances h,
    State.takeBit_bitLatch]

/-- Taking a bit, in terms of the symbol at the cursor and the draws its read has made. -/
theorem State.takeBit_of_sym {b : Bit} {d : Nat} (tick : Nat) (h : s.sym s.draws s.cursor = (b, d)) :
    s.takeBit tick = { s with
      bitLatch := b
      tickAtLastAdvance := tick
      cursor := wrapCursor s.cfg.wrapGeMotor (s.cursor + 1) s.length
      draws := d } := by
  rw [State.takeBit, State.popState, State.popValue, h]
  rfl

/-- Settles O38: the advance rule leaves the state alone, and the level is that of the latch it left. -/
theorem pollWithoutAdvanceWritesNothing : Obligations.PollWithoutAdvanceWritesNothing := by
  intro s tick prn elapsed level htick helapsed hle hlevel
  rw [← s.elapsed_eq_div] at helapsed
  subst helapsed hlevel
  rw [exec_tpoll_of_not_advances prn htick (State.advances_eq_false_iff.2 hle), statusByte_levelBit]
  rfl

/-- Settles O39: each of the three cases of the symbol under the cursor fixes the bit taken and the draws made, and in
none of them is the read refused (R44). -/
theorem pollThatAdvancesTakesOneBit : Obligations.PollThatAdvancesTakesOneBit := by
  intro s tick prn elapsed c bit d htick helapsed hlt hc hcases
  obtain ⟨hpop, hsym⟩ : s.popRefused = false ∧ s.sym s.draws s.cursor = (bit, d) := by
    rcases hcases with ⟨b, hlen, hcap, hb, rfl, rfl⟩ | ⟨hlen, hcap, hb, rfl, rfl⟩ | ⟨hlen, rfl, rfl⟩
    · exact ⟨State.popRefused_of_cursor fun _ => hcap, State.sym_of_read hlen hb _⟩
    · exact ⟨State.popRefused_of_cursor fun _ => hcap, State.sym_of_unwritten hlen hb _⟩
    · exact ⟨State.popRefused_of_cursor fun h => absurd h (Nat.not_lt.2 hlen), State.sym_of_length_le hlen _⟩
  have hvalue : s.popValue = bit := by rw [State.popValue, hsym]
  rw [← s.elapsed_eq_div] at helapsed
  subst helapsed hc
  rw [exec_tpoll_of_advances prn htick hpop (State.advances_iff.2 hlt), State.takeBit_of_sym tick hsym, hvalue,
    statusByte_levelBit]
  rfl

/-! ### The motor-control write -/

theorem exec_motorw_of_ctl {data : Byte} {ctl : Bool} (tick : Nat) (h : controlBit s.cfg data = ctl) :
    exec (.motorw data tick) s = .next ((s.motorWrite ctl tick).answer .none) :=
  execMotorw_next.2 (by rw [h])

theorem State.motorWrite_pulseLatch (s : State) (ctl : Bool) (tick : Nat) : (s.motorWrite ctl tick).pulseLatch = ctl := rfl

theorem State.motorWrite_cfg (s : State) (ctl : Bool) (tick : Nat) : (s.motorWrite ctl tick).cfg = s.cfg := by
  rcases s.motorWrite_cases ctl tick with heq | ⟨-, heq⟩ | ⟨-, heq⟩ <;> rw [heq] <;> rfl

theorem State.speedMultiplier_of_normal (h : s.speed = .normal) : s.speedMultiplier = 1 := by
  rw [State.speedMultiplier, h]

theorem State.speedMultiplier_of_boost (h : s.speed = .boost) : s.speedMultiplier = s.cfg.speedBoost := by
  rw [State.speedMultiplier, h]

/-- Settles O41: the control bit clear, the bit held, and a pulse that finds the motor off or on. -/
theorem motorWriteTogglesOnAPulse : Obligations.MotorWriteTogglesOnAPulse := by
  refine ⟨fun s => ⟨State.speedMultiplier_of_normal, fun hboost => ?boost⟩, fun s data tick ctl hctl =>
    ⟨fun h => ?clear, fun h hlatch => ?held, fun h hlatch hoff => ?start, fun h hlatch hon => ?stop⟩⟩
  case boost =>
    rw [State.speedMultiplier_of_boost hboost]
    refine ⟨rfl, fun hwf => ?_⟩
    obtain ⟨-, -, hspeed⟩ := Config.wf_iff.1 hwf
    exact hspeed
  all_goals rw [exec_motorw_of_ctl tick (hctl.symm.trans h)]
  case clear => rfl
  case held => rw [s.motorWrite_held tick hlatch]; rfl
  case start => rw [s.motorWrite_start tick hlatch hoff]; rfl
  case stop => rw [s.motorWrite_stop tick hlatch hon]; rfl

/-- A write that finds its control bit already latched sets what is set. -/
theorem State.motorWrite_again (tick : Nat) (h : s.pulseLatch = true) : s.motorWrite true tick = s := by
  rw [s.motorWrite_held tick h, State.latchPulse, ← h]

/-- Settles O42: the first write latches the bit and answers nothing, so the second latches and answers the same. -/
theorem heldControlBitIsOnePulse : Obligations.HeldControlBitIsOnePulse := by
  intro s t data data' tick tick' hdata hdata' ht
  obtain ⟨hcfg, hlatch, hanswer⟩ : t.cfg = s.cfg ∧ t.pulseLatch = true ∧ t.answer .none = t := by
    rw [exec_motorw_of_ctl tick hdata] at ht
    obtain rfl := Host.Outcome.next.inj ht
    exact ⟨s.motorWrite_cfg true tick, s.motorWrite_pulseLatch true tick, rfl⟩
  rw [← hcfg] at hdata'
  rw [exec_motorw_of_ctl tick' hdata', State.motorWrite_again tick' hlatch, hanswer]

end Machine
end Sys2Proof
end

section
/-! Scope: the AudioMixer: its configuration (R161, R162), one pulse with its push and its flush (R164 to R168), and a
ring filled from empty (R170). -/

namespace Sys2Proof.Machine

variable {s u : State}

/-! ### The options of `ACONFIG` (R161) -/

theorem rateOption_of_default {rate : Option Nat} (h : rate = none ∨ rate = some 0) : rateOption rate = 44100 := by
  rcases h with rfl | rfl <;> rfl

theorem rateOption_some {r : Nat} (h : r ≠ 0) : rateOption (some r) = r := if_neg h

theorem countOption_of_default {count : Option Nat} (h : count = none ∨ count = some 0) : countOption count = 128 := by
  rcases h with rfl | rfl <;> rfl

theorem countOption_of_gt {n : Nat} (h : 1024 < n) : countOption (some n) = 1024 :=
  (if_neg (Nat.ne_zero_of_lt h)).trans (if_pos h)

theorem countOption_of_le {n : Nat} (h0 : n ≠ 0) (h : n ≤ 1024) : countOption (some n) = n :=
  (if_neg h0).trans (if_neg (Nat.not_lt.2 h))

theorem volumeRefused_eq_false {vol : Option Rat} (h : ∀ v, vol = some v → 0 ≤ v ∧ v ≤ 1) : volumeRefused vol = false := by
  rw [Bool.eq_false_iff, ne_eq, volumeRefused_iff]
  rintro ⟨v, hv, hout⟩
  obtain ⟨hlow, hhigh⟩ := h v hv
  exact hout.elim (not_lt.2 hlow) (not_lt.2 hhigh)

/-- Settles O44: already closed, not closed and a volume out of range, not closed and options that are stored. -/
theorem configureStoresOptions : Obligations.ConfigureStoresOptions := by
  refine fun s rate count vol => ⟨fun hclosed => exec_aconfig_closed hclosed rate count vol,
    fun v hopen hv hout => ?refused, fun hopen hvol => ?stored⟩
  case refused => exact execAconfig_next.2 (.inr (.inr ⟨hopen, volumeRefused_iff.2 ⟨v, hv, hout⟩, rfl⟩))
  case stored =>
    refine ⟨(s.configureMixer rate count vol).answer .none,
      execAconfig_next.2 (.inl ⟨hopen, volumeRefused_eq_false hvol, rfl⟩), rateOption_of_default, ?_,
      countOption_of_default, ?_, ?_, ?_, ?_, rfl⟩
    · rintro r rfl hr; exact rateOption_some hr
    · rintro n rfl hn; exact countOption_of_gt hn
    · rintro n rfl h0 hn; exact countOption_of_le h0 hn
    · rintro rfl; rfl
    · rintro v rfl; rfl

/-! ### One pulse (R164 to R166) -/

/-- The divider as R165 words it: a pulse that finds 1 leaves 0, and one that finds 0 leaves 1. -/
theorem State.beginPulse_eq (s : State) : s.beginPulse = { s with
    configured := true
    psgPhase := if s.psgPhase = 1 then 0 else 1 } := by
  have htoggle : ∀ b : Bit, b ^^^ 1 = if b = 1 then 0 else 1 := by decide
  rw [State.beginPulse, htoggle]

theorem exec_apulse_without_boundary (b p : SampleName) : exec (.apulse false b p) s =
    .next (s.beginPulse.answer (.psgTick s.psgTick)) := execApulse_next.2 (.inl ⟨rfl, rfl⟩)

/-- A boundary that leaves room in the ring. -/
theorem exec_apulse_of_room (b p : SampleName) (h : s.wcur + 1 ≠ s.ringCap) : exec (.apulse true b p) s =
    .next ((s.beginPulse.pushSample (s.cfg.sumName b p)).answer (.psgTick s.psgTick)) :=
  execApulse_next.2 (.inr (.inl ⟨rfl, h, rfl⟩))

/-- A boundary that fills the ring. -/
theorem exec_apulse_of_full (b p : SampleName) (h : s.wcur + 1 = s.ringCap) : exec (.apulse true b p) s =
    .next ((s.beginPulse.pushSample (s.cfg.sumName b p)).flush (.psgTick s.psgTick)) :=
  execApulse_next.2 (.inr (.inr ⟨rfl, h, rfl⟩))

/-- Settles O46: the pulse begins and answers. -/
theorem pulseWithoutBoundary : Obligations.PulseWithoutBoundary := by
  intro s b p
  rw [exec_apulse_without_boundary, s.beginPulse_eq]
  rfl

/-- Settles O47: the ring is written at `wcur` alone. -/
theorem pulsePushesOneSum : Obligations.PulsePushesOneSum := by
  intro s b p hroom
  refine ⟨_, exec_apulse_of_room b p hroom, Memory.read_write_same _ _ _, s.cfg.sampleOf_sumName b p,
    fun a ha => Memory.read_write_other _ _ ha.symm, ?_⟩
  rw [s.beginPulse_eq]
  rfl

/-! ### What the flush hands over (R167, R201) -/

/-- The draws of a flush: one for each slot that nothing has written. -/
theorem slotSamples_readRun_draws {m : Memory SampleName} (h : m.wf) (n d : Nat) :
    (slotSamples (m.readRun 0 n) d).2 = d + (List.range n).countP fun j => (m.read j).isNone := by
  obtain ⟨hdraws, -, -⟩ := slotSamples_spec (m.readRun 0 n) d
  rw [hdraws, Memory.readRun_eq_map h, List.countP_map]
  simp [Function.comp_def]

theorem length_slotSamples_readRun (m : Memory SampleName) (n d : Nat) :
    (slotSamples (m.readRun 0 n) d).1.length = n := by
  obtain ⟨-, hlength, -⟩ := slotSamples_spec (m.readRun 0 n) d
  rw [hlength, Memory.length_readRun]

/-- Slot `i` delivers what is stored there, or a draw behind those of the slots before it. -/
theorem getElem?_slotSamples_readRun {m : Memory SampleName} (h : m.wf) {n i : Nat} (hi : i < n) (d : Nat) :
    (slotSamples (m.readRun 0 n) d).1[i]? = some ((m.read i).getD
      (Config.freeSample (d + (List.range i).countP fun j => (m.read j).isNone))) := by
  obtain ⟨-, -, hslots⟩ := slotSamples_spec (m.readRun 0 n) d
  rw [hslots i (by simpa using hi)]
  simp [Memory.readRun_eq_map h, ← List.map_take, List.take_range, Nat.min_eq_left hi.le, List.countP_map,
    Function.comp_def]

theorem getElem?_slotSamples_of_written {m : Memory SampleName} (h : m.wf) {n i : Nat} (hi : i < n) {v : SampleName}
    (hv : m.read i = some v) (d : Nat) : (slotSamples (m.readRun 0 n) d).1[i]? = some v := by
  rw [getElem?_slotSamples_readRun h hi, hv, Option.getD_some]

theorem getElem?_slotSamples_of_unwritten {m : Memory SampleName} (h : m.wf) {n i : Nat} (hi : i < n)
    (hnone : m.read i = none) (d : Nat) : (slotSamples (m.readRun 0 n) d).1[i]? =
      some (Config.freeSample (d + (List.range i).countP fun j => (m.read j).isNone)) := by
  rw [getElem?_slotSamples_readRun h hi, hnone, Option.getD_none]

/-- The push and its flush in one: what is left of `s`, and the event. -/
theorem State.flush_pushSample (hwf : s.ring.wf) (v : SampleName) (r : Result) :
    (s.beginPulse.pushSample v).flush r = { s with
      ring := s.ring.write s.wcur v
      wcur := 0
      configured := true
      psgPhase := if s.psgPhase = 1 then 0 else 1
      result := r
      event := some ⟨(slotSamples ((s.ring.write s.wcur v).readRun 0 s.ringCap) s.draws).1, s.ringCap⟩
      refusals := s.refusals ++ (s.callback.headD []).map fun _ => .reentry
      callback := s.callback.tail
      draws := s.draws + (List.range s.ringCap).countP fun j => ((s.ring.write s.wcur v).read j).isNone } := by
  rw [← slotSamples_readRun_draws (Memory.wf_write hwf s.wcur v), State.flush_eq, s.beginPulse_eq]
  rfl

/-- Settles O48: the flush of the state with the sum pushed, slot by slot. -/
theorem pulseThatFillsTheRingFlushes : Obligations.PulseThatFillsTheRingFlushes := by
  intro s b p hwf hfull
  have hpushed := Memory.wf_write hwf s.wcur (s.cfg.sumName b p)
  exact ⟨_, _, (exec_apulse_of_full b p hfull).trans (congrArg _ (State.flush_pushSample hwf _ _)),
    Memory.read_write_same _ _ _, s.cfg.sampleOf_sumName b p, fun a ha => Memory.read_write_other _ _ ha.symm,
    rfl, length_slotSamples_readRun _ _ _, fun i v hi hv => getElem?_slotSamples_of_written hpushed hi hv _,
    fun i hi hnone => getElem?_slotSamples_of_unwritten hpushed hi hnone _, rfl⟩

/-! ### A ring filled from empty (R170) -/

/-- The memory's first slots hold the values of a list, in order. -/
def Memory.Holds {α : Type} (m : Memory α) (vs : List α) : Prop := ∀ i < vs.length, m.read i = vs[i]?

/-- A write behind the held values holds one more. -/
theorem Memory.Holds.write {α : Type} {m : Memory α} {vs : List α} (h : m.Holds vs) (v : α) :
    Memory.Holds (m.write vs.length v) (vs ++ [v]) := by
  intro i hi
  rw [Memory.read_write]
  split
  · subst i; simp
  · rw [List.length_append, List.length_singleton] at hi
    rw [h i (by omega), List.getElem?_append_left (by omega)]

theorem Memory.Holds.readRun {α : Type} {m : Memory α} {vs : List α} (h : m.Holds vs) (hwf : m.wf) :
    m.readRun 0 vs.length = vs.map some := by
  refine List.ext_getElem? fun i => ?_
  rw [Memory.getElem?_readRun hwf, Nat.zero_add]
  split
  · rename_i hi; simp [h i hi, hi]
  · rename_i hi; simp [Nat.not_lt.1 hi]

/-- Slots that are all written deliver what they hold. -/
theorem slotSamples_map_some (vs : List SampleName) (d : Nat) : slotSamples (vs.map some) d = (vs, d) := by
  induction vs with
  | nil => rfl
  | cons v vs ih => rw [List.map_cons, slotSamples, ih]

/-- The names of the sums of pairs of samples, in order. -/
def sumNames (cfg : Config) (pairs : List (SampleName × SampleName)) : List SampleName :=
  pairs.map fun x => cfg.sumName x.1 x.2

@[simp] theorem length_sumNames (cfg : Config) (pairs : List (SampleName × SampleName)) :
    (sumNames cfg pairs).length = pairs.length := List.length_map _

theorem sumNames_concat (cfg : Config) (pairs : List (SampleName × SampleName)) (b p : SampleName) :
    sumNames cfg (pairs ++ [(b, p)]) = sumNames cfg pairs ++ [cfg.sumName b p] := List.map_append

theorem map_sampleOf_sumNames (cfg : Config) (pairs : List (SampleName × SampleName)) :
    (sumNames cfg pairs).map cfg.sampleOf = pairs.map fun x => cfg.add (cfg.sampleOf x.1) (cfg.sampleOf x.2) := by
  simp [sumNames]

/-- `u` is what pulses that have not filled the ring make of `s`: their sums stand in the first slots, and the next goes
behind them. -/
structure State.Pushed (s : State) (pairs : List (SampleName × SampleName)) (u : State) : Prop where
  cfg : u.cfg = s.cfg
  ringCap : u.ringCap = s.ringCap
  canonical : u.ring.wf
  wcur : u.wcur = pairs.length
  holds : u.ring.Holds (sumNames s.cfg pairs)
  event : 0 < pairs.length → u.event = none

theorem State.Pushed.start (hwf : s.ring.wf) (hw : s.wcur = 0) : s.Pushed [] s where
  cfg := rfl
  ringCap := rfl
  canonical := hwf
  wcur := hw
  holds := fun _ hi => absurd hi (Nat.not_lt_zero _)
  event := fun h => absurd h (Nat.lt_irrefl 0)

/-- One more sum in the ring, whether or not it fills it. -/
theorem State.Pushed.holds_write {pairs : List (SampleName × SampleName)} (h : s.Pushed pairs u) (b p : SampleName) :
    (u.ring.write u.wcur (u.cfg.sumName b p)).Holds (sumNames s.cfg (pairs ++ [(b, p)])) := by
  rw [sumNames_concat, h.cfg, h.wcur, ← length_sumNames s.cfg pairs]
  exact h.holds.write _

theorem State.Pushed.answer {pairs : List (SampleName × SampleName)} (h : s.Pushed pairs u) (b p : SampleName)
    (r : Result) : s.Pushed (pairs ++ [(b, p)]) ((u.beginPulse.pushSample (u.cfg.sumName b p)).answer r) where
  cfg := h.cfg
  ringCap := h.ringCap
  canonical := Memory.wf_write h.canonical _ _
  wcur := by simp [h.wcur]
  holds := h.holds_write b p
  event := fun _ => rfl

/-- The push that fills the ring delivers all the sums (R167). -/
theorem State.Pushed.flush_event {pairs : List (SampleName × SampleName)} (h : s.Pushed pairs u)
    (hfull : pairs.length + 1 = s.ringCap) (b p : SampleName) (r : Result) :
    ((u.beginPulse.pushSample (u.cfg.sumName b p)).flush r).event =
      some { samples := sumNames s.cfg (pairs ++ [(b, p)]), count := s.ringCap } := by
  have hlength : s.ringCap = (sumNames s.cfg (pairs ++ [(b, p)])).length := by simp [hfull]
  have hrun : (u.ring.write u.wcur (u.cfg.sumName b p)).readRun 0 s.ringCap =
      (sumNames s.cfg (pairs ++ [(b, p)])).map some := by
    rw [hlength]
    exact (h.holds_write b p).readRun (Memory.wf_write h.canonical _ _)
  rw [State.flush_pushSample h.canonical, h.ringCap, hrun, slotSamples_map_some]

theorem pushPulses_append (xs ys : List (SampleName × SampleName)) (s : State) :
    pushPulses (xs ++ ys) s = (pushPulses xs s).bind (pushPulses ys) := by
  induction xs generalizing s with
  | nil => rfl
  | cons x xs ih =>
    obtain ⟨t, ht⟩ := exec_completes (.apulse true x.1 x.2) s
    simp [pushPulses, ht, ih]

theorem pushPulses_concat {xs : List (SampleName × SampleName)} {b p : SampleName} {t : State}
    (hu : pushPulses xs s = some u) (ht : exec (.apulse true b p) u = .next t) :
    pushPulses (xs ++ [(b, p)]) s = some t := by
  simp [pushPulses_append, hu, pushPulses, ht]

/-- Pulses that do not fill an empty ring. -/
theorem pushPulses_of_room (hwf : s.ring.wf) (hw : s.wcur = 0) (pairs : List (SampleName × SampleName))
    (hroom : pairs.length < s.ringCap) : ∃ u, pushPulses pairs s = some u ∧ s.Pushed pairs u := by
  induction pairs using List.reverseRecOn with
  | nil => exact ⟨s, rfl, .start hwf hw⟩
  | append_singleton xs x ih =>
    rw [List.length_append, List.length_singleton] at hroom
    obtain ⟨u, hu, hpushed⟩ := ih (by omega)
    have hleft : u.wcur + 1 ≠ u.ringCap := by rw [hpushed.wcur, hpushed.ringCap]; omega
    exact ⟨_, pushPulses_concat hu (exec_apulse_of_room x.1 x.2 hleft), hpushed.answer x.1 x.2 _⟩

/-- Settles O50: all pulses but the last leave room, and the last flushes. -/
theorem ringDeliversSumsInPushOrder : Obligations.RingDeliversSumsInPushOrder := by
  intro s pairs hinv hw hlength
  have hcap := hinv.ringCapPos
  obtain rfl | ⟨xs, ⟨b, p⟩, rfl⟩ := List.eq_nil_or_concat' pairs
  · exact absurd hlength (Nat.ne_of_lt hcap)
  have hfull : xs.length + 1 = s.ringCap := by rw [← hlength, List.length_append, List.length_singleton]
  obtain ⟨u, hu, hpushed⟩ := pushPulses_of_room hinv.ringCanonical hw xs (by omega)
  have hlast : u.wcur + 1 = u.ringCap := by rw [hpushed.wcur, hpushed.ringCap, hfull]
  refine ⟨_, pushPulses_concat hu (exec_apulse_of_full b p hlast), rfl,
    ⟨_, hpushed.flush_event hfull b p _, rfl, rfl, map_sampleOf_sumNames _ _⟩, fun n hn => ?_⟩
  have htake : ((xs ++ [(b, p)]).take n).length = n := List.length_take_of_le (by omega)
  obtain ⟨v, hv, hfirst⟩ := pushPulses_of_room hinv.ringCanonical hw _ (htake.trans_lt hn)
  exact ⟨v, hv, hfirst.wcur.trans htake, fun hpos => hfirst.event (htake.symm ▸ hpos)⟩

end Sys2Proof.Machine
end

section
/-! Scope: what one call of the bus dispatcher asks of the block (R169, R187). -/

namespace Sys2Proof.Machine

/-- A request asks for the operation it was made from. -/
@[simp] theorem instr_encode (i : Instr) : (encode i).instr = i := decode_code_lines i

/-- A read of the sound component's ports is the one transaction of its call, and none of the block's own. -/
theorem busInstr_of_readMade_sound {cfg : Config} {pins : BusPins} {readWins : Bool} (tick : Nat)
    (h : readMade cfg pins readWins .sound = true) : busInstr cfg pins tick readWins = none := by
  obtain ⟨hsound, -⟩ := (readMade_iff _).1 h
  obtain ⟨-, -, htarget⟩ := (selectsRead_iff _).1 hsound
  have hcassette : readMade cfg pins readWins .cassette = false := by
    simp [readMade, selectsRead, htarget]
  simp [busInstr, hcassette, h]

theorem transactionInstrs_of_sound {cfg : Config} {c : BusCall} (h : readMade cfg c.pins c.readWins .sound = true) :
    transactionInstrs cfg c = c.polls.map pollInstr := by
  rw [transactionInstrs, busInstr_of_readMade_sound c.tick h, if_pos h, Option.toList_none, List.nil_append]

theorem transactionInstrs_of_not_sound {cfg : Config} {c : BusCall} (h : readMade cfg c.pins c.readWins .sound = false) :
    transactionInstrs cfg c = (busInstr cfg c.pins c.tick c.readWins).toList := by
  rw [transactionInstrs, h, if_neg Bool.false_ne_true, List.append_nil]

/-- Settles O57: the tail is the call's transaction. -/
theorem dispatchAsksPulsesThenTransaction : Obligations.DispatchAsksPulsesThenTransaction := by
  refine fun s c => ⟨transactionInstrs s.cfg c, ?queue, transactionInstrs_of_sound, fun h => ?own⟩
  case queue => simp [State.dispatch, dispatchInstrs, Function.comp_def, pulseInstr]
  case own =>
    rw [transactionInstrs_of_not_sound h]
    exact ⟨rfl, Option.length_toList_le⟩

end Sys2Proof.Machine
end

section
/-! Scope: the table of refusals (R182): an operation is refused exactly where a row of it applies, and a run goes on with
the mark kept. -/

namespace Sys2Proof.Machine

variable {s t : State} {i : Instr} {r : RefusalReason}

/-! ### Where a row of the table applies, in the meanings' own tests -/

/-- The advance rule as the row of the buffer's end words it (R141, R142). -/
theorem State.advances_iff_threshold {tick : Nat} : s.advances tick = true ↔
    (if s.bitLatch = 1 then s.cfg.tAdv1 else s.cfg.tAdv0) < (tick - s.tickAtLastAdvance) / 32 := by
  rw [State.advances_iff, State.elapsed_eq_div, advThreshold]

/-- An input that has a first byte and whose bitstream is too long (R82). -/
theorem refuses_tinsert {input : Option (List Byte)} {bytes : List Byte} (hin : validInput input = some bytes)
    (hlong : s.cfg.tapeCap < (normalise s.cfg bytes).length) : Refuses s (.tinsert input) .tapeTooLong := by
  obtain ⟨rfl, hne⟩ := validInput_eq_some.1 hin
  obtain ⟨b, bs, rfl⟩ := List.exists_cons_of_ne_nil hne
  exact .tapeTooLong b bs hlong

theorem refuses_casrd (h : s.popRefused = true) : Refuses s .casrd .tapeIndexOutOfBuffer := by
  obtain ⟨hlen, hcap⟩ := State.popRefused_iff.1 h
  exact .casrdOutOfBuffer hlen hcap

theorem refuses_tpoll {tick : Nat} (prn : Bit) (htick : s.tickAtLastAdvance ≤ tick) (hpop : s.popRefused = true)
    (hadv : s.advances tick = true) : Refuses s (.tpoll tick prn) .tapeIndexOutOfBuffer := by
  obtain ⟨hlen, hcap⟩ := State.popRefused_iff.1 hpop
  exact .tpollOutOfBuffer tick prn htick hlen hcap (State.advances_iff_threshold.1 hadv)

theorem refuses_aconfig_volume (rate count : Option Nat) {vol : Option Rat} (hopen : s.configured = false)
    (hvol : volumeRefused vol = true) : Refuses s (.aconfig rate count vol) .volumeOutOfRange := by
  obtain ⟨v, rfl, hout⟩ := volumeRefused_iff.1 hvol
  exact .volumeOutOfRange rate count v hopen hout

/-! ### What an operation does where a row applies, and where none does -/

/-- Each row of the table is the refusing case of its operation (R182). -/
theorem exec_of_refuses (h : Refuses s i r) : exec i s = .next (s.refuse r) := by
  cases h with
  | reservedOp x => rfl
  | tapeTooLong b bs hlong => exact exec_tinsert_of_tooLong hlong
  | tcateIndex k hk => exact execTcate_next.2 (.inr ⟨hk, rfl⟩)
  | tselectIndex k h0 hk => exact execTselect_next.2 (.inr (.inr ⟨h0, hk, rfl⟩))
  | tickWentBackwards tick prn htick => exact execTpoll_next.2 (.inr (.inl ⟨htick, rfl⟩))
  | reconfigure rate count vol hclosed => exact exec_aconfig_closed hclosed rate count vol
  | volumeOutOfRange rate count v hopen hv =>
    exact execAconfig_next.2 (.inr (.inr ⟨hopen, volumeRefused_iff.2 ⟨v, rfl, hv⟩, rfl⟩))
  | casrdOutOfBuffer hlen hcap => exact execCasrd_next.2 (.inr ⟨State.popRefused_iff.2 ⟨hlen, hcap⟩, rfl⟩)
  | tpollOutOfBuffer tick prn htick hlen hcap hadv =>
    exact execTpoll_next.2 (.inr (.inr
      ⟨htick, State.popRefused_iff.2 ⟨hlen, hcap⟩, State.advances_iff_threshold.2 hadv, rfl⟩))

/-- From `s` to `t` nothing is marked but the requests that the host makes from inside the event emitted (R186): what O52
says of the mark of an operation that completes. -/
def State.MarksOnlyNested (s t : State) : Prop :=
  t.refusals = s.refusals ++ if t.event = none then [] else (s.callback.headD []).map fun _ => .reentry

/-- An operation that leaves the mark alone before it answers. -/
theorem State.MarksOnlyNested.answer {u : State} (h : u.refusals = s.refusals) (res : Result) :
    s.MarksOnlyNested (u.answer res) := by
  simp [State.MarksOnlyNested, h]

/-- The flush emits its event and marks the requests made inside it (R167, R186). -/
theorem State.MarksOnlyNested.flush (s : State) (v : SampleName) (res : Result) :
    s.MarksOnlyNested ((s.beginPulse.pushSample v).flush res) := by
  simp [State.MarksOnlyNested, State.flush_eq]

theorem State.failedInsert_refusals (s : State) : s.failedInsert.refusals = s.refusals := by
  rw [s.failedInsert_eq]

theorem State.afterAdvance_refusals (s : State) (tick : Nat) : (s.afterAdvance tick).refusals = s.refusals := by
  unfold State.afterAdvance
  split <;> rfl

theorem State.motorWrite_refusals (s : State) (ctl : Bool) (tick : Nat) : (s.motorWrite ctl tick).refusals = s.refusals := by
  rcases s.motorWrite_cases ctl tick with heq | ⟨-, heq⟩ | ⟨-, heq⟩ <;> rw [heq] <;> rfl

/-- What an operation can do: a row of the table applies and it is refused for that reason, or it completes and marks
only nested requests. -/
theorem exec_refused_or_completed (ht : exec i s = .next t) :
    (∃ r, Refuses s i r ∧ t = s.refuse r) ∨ s.MarksOnlyNested t := by
  cases i with
  | nop => exact execNop_next.1 ht ▸ .inr (.answer rfl _)
  | tinsert input =>
    rcases execTinsert_next.1 ht with ⟨-, rfl⟩ | ⟨bytes, hin, ⟨-, rfl⟩ | ⟨hlong, rfl⟩⟩
    · exact .inr (.answer s.failedInsert_refusals _)
    · exact .inr (.answer rfl _)
    · exact .inl ⟨_, refuses_tinsert hin hlong, rfl⟩
  | teject => exact execTeject_next.1 ht ▸ .inr (.answer rfl _)
  | tselect k =>
    rcases execTselect_next.1 ht with ⟨-, rfl⟩ | ⟨-, e, -, rfl⟩ | ⟨h0, hk, rfl⟩
    · exact .inr (.answer rfl _)
    · exact .inr (.answer rfl _)
    · exact .inl ⟨_, .tselectIndex k h0 hk, rfl⟩
  | tcur => exact execTcur_next.1 ht ▸ .inr (.answer rfl _)
  | tcatn => exact execTcatn_next.1 ht ▸ .inr (.answer rfl _)
  | tcate k =>
    rcases execTcate_next.1 ht with ⟨e, -, rfl⟩ | ⟨hk, rfl⟩
    · exact .inr (.answer rfl _)
    · exact .inl ⟨_, .tcateIndex k hk, rfl⟩
  | casrd =>
    rcases execCasrd_next.1 ht with ⟨-, rfl⟩ | ⟨hpop, rfl⟩
    · exact .inr (.answer rfl _)
    · exact .inl ⟨_, refuses_casrd hpop, rfl⟩
  | tpoll tick prn =>
    rcases execTpoll_next.1 ht with ⟨-, -, rfl⟩ | ⟨htick, rfl⟩ | ⟨htick, hpop, hadv, rfl⟩
    · exact .inr (.answer (s.afterAdvance_refusals tick) _)
    · exact .inl ⟨_, .tickWentBackwards tick prn htick, rfl⟩
    · exact .inl ⟨_, refuses_tpoll prn htick hpop hadv, rfl⟩
  | motorw data tick => exact execMotorw_next.1 ht ▸ .inr (.answer (s.motorWrite_refusals _ tick) _)
  | aconfig rate count vol =>
    rcases execAconfig_next.1 ht with ⟨-, -, rfl⟩ | ⟨hclosed, rfl⟩ | ⟨hopen, hvol, rfl⟩
    · exact .inr (.answer rfl _)
    · exact .inl ⟨_, .reconfigure rate count vol hclosed, rfl⟩
    · exact .inl ⟨_, refuses_aconfig_volume rate count hopen hvol, rfl⟩
  | apulse strobe b p =>
    rcases execApulse_next.1 ht with ⟨-, rfl⟩ | ⟨-, -, rfl⟩ | ⟨-, -, rfl⟩
    · exact .inr (.answer rfl _)
    · exact .inr (.answer rfl _)
    · exact .inr (.flush s _ _)
  | reserved x => exact .inl ⟨_, .reservedOp x, (execReserved_next x).1 ht⟩

theorem exec_of_not_refuses (h : ∀ r, ¬ Refuses s i r) : ∃ t, exec i s = .next t ∧ s.MarksOnlyNested t := by
  obtain ⟨t, ht⟩ := exec_completes i s
  refine ⟨t, ht, (exec_refused_or_completed ht).resolve_left ?_⟩
  rintro ⟨r, hr, -⟩
  exact h r hr

/-- Settles O52: a row that applies is the operation's refusing case, and where none applies it completes; `exec` always
answers a next state. -/
theorem refusalsAreExactlyTheTable : Obligations.RefusalsAreExactlyTheTable := by
  refine fun i s => ⟨fun r => exec_of_refuses, exec_of_not_refuses, exec_ne_fault i, fun r hr => ?_⟩
  obtain ⟨t, ht⟩ := exec_completes i s
  rw [ht] at hr
  cases hr

/-! ### Runs -/

/-- A step only adds to the mark: so does the operation it runs (O51). -/
theorem step_refusals_prefix (ht : step s = .next t) : s.refusals <+: t.refusals := by
  rcases step_next.1 ht with ⟨-, rfl⟩ | ⟨q, qs, -, ht⟩
  · exact List.prefix_rfl
  · obtain ⟨-, -, hmark, -⟩ := writersOfEachRegister _ _ _ ht
    exact hmark

/-- A run of any length ends in a next state and only adds to the mark. -/
theorem run_refusals_prefix (n : Nat) (s : State) : ∃ t : State, core.run n s = .next t ∧ s.refusals <+: t.refusals := by
  induction n generalizing s with
  | zero => exact ⟨s, rfl, List.prefix_rfl⟩
  | succ n ih =>
    obtain ⟨u, hu⟩ := step_completes s
    obtain ⟨t, ht, hmark⟩ := ih u
    exact ⟨t, (run_succ core hu n).trans ht, (step_refusals_prefix hu).trans hmark⟩

/-- Settles O53: the step takes the request away and refuses it; a run is such steps, and each answers. -/
theorem runsGoOnAndKeepTheMark : Obligations.RunsGoOnAndKeepTheMark :=
  ⟨fun _ _ _ _ hreq h => (step_cons hreq).trans (exec_of_refuses h), run_refusals_prefix⟩

/-! ### While the host keeps its duty, and between operations -/

/-- A host that makes no request from inside the event gets no mark (R186). -/
theorem State.MarksOnlyNested.refusals_eq (h : s.MarksOnlyNested t) (hduty : s.callback.headD [] = []) :
    t.refusals = s.refusals := by
  rw [h, hduty, List.map_nil, ite_self, List.append_nil]

/-- The row of the buffer's end needs a tape longer than the buffer (R44, R11). -/
theorem State.Inv.not_refuses_tapeIndexOutOfBuffer (hinv : s.Inv) : ¬ Refuses s i .tapeIndexOutOfBuffer := by
  have hfits := hinv.lengthBound
  intro h
  cases h with
  | casrdOutOfBuffer hlen hcap => omega
  | tpollOutOfBuffer tick prn htick hlen hcap hadv => omega

/-- Settles O54: an operation that no row refuses marks only nested requests, and with the duty kept there is none. -/
theorem unrefusedOperationsComplete : Obligations.UnrefusedOperationsComplete := by
  refine ⟨fun i s h => ?_, fun _ _ hinv => hinv.not_refuses_tapeIndexOutOfBuffer⟩
  obtain ⟨t, ht, hmarks⟩ := exec_of_not_refuses h
  exact ⟨t, ht, hmarks.refusals_eq⟩

end Sys2Proof.Machine
end

section
/-! Scope: the state after reset: its values (R200, R201), the invariant of the block, and R54. -/

namespace Sys2Proof.Machine

/-- Settles O1: each register and each decided parameter is the one that reset writes out, and in an empty memory no
index is listed. -/
theorem resetLeavesStatedValues : Obligations.ResetLeavesStatedValues :=
  ⟨rfl, rfl, rfl, rfl, rfl, rfl, rfl, rfl, rfl, rfl, rfl, rfl, rfl, rfl, Memory.read_nil, Memory.read_nil,
    rfl, rfl, rfl, rfl, rfl, rfl, rfl⟩

/-- The OPEN parameters meet their constraints, nothing is stored or listed, and the options' defaults lie in their
ranges. -/
theorem State.reset_inv : State.reset.Inv where
  cfgOk := Config.platform_wf
  tapeCanonical := .nil
  ringCanonical := .nil
  tapeInBuffer := List.forall_mem_nil _
  lengthBound := Nat.zero_le _
  symbols := fun _ hi => absurd hi (Nat.not_lt_zero _)
  cursorBound := Nat.zero_le _
  catOffsets := List.forall_mem_nil _
  catAscending := .nil
  catNames := List.forall_mem_nil _
  speedEngaged := by decide
  ringCapPos := by decide
  ringCapMax := by decide
  wcurBound := by decide
  ringInUse := List.forall_mem_nil _
  ringFilled := fun _ hi => absurd hi (Nat.not_lt_zero _)
  unconfigured := fun _ => ⟨rfl, rfl⟩
  ratePos := by decide
  volumeRange := by decide

/-- Settles O2: with the empty catalog there is no entry whose pattern could be missing (R54). -/
theorem resetMeetsInvariant : Obligations.ResetMeetsInvariant :=
  ⟨State.reset_inv, fun _ => List.forall_mem_nil _⟩

end Sys2Proof.Machine
end

section
/-! Scope: two hazards the invariant of the block rules out or explains: `TCUR` behind a selection (R216), and the
ring's unspecified content in a flush (R201). -/

namespace Sys2Proof.Machine

variable {s t : State}

/-! ### `TCUR` after a selection -/

/-- Settles O37: the cursor stands at the selected entry, and the last entry lies no lower (R122, R125). -/
theorem currentEntryAfterSelectIsTheLast : Obligations.CurrentEntryAfterSelectIsTheLast := by
  intro s t i hinv hi hlt ht
  have hselected : s.cat[i]? = some s.cat[i] := List.getElem?_eq_getElem hlt
  obtain rfl := Host.Outcome.next.inj ((exec_tselect_of_getElem? hi hselected).symm.trans ht)
  have hmem : s.cat[i] ∈ s.cat := List.getElem_mem hlt
  have hlast := List.getLast?_eq_some_getLast (List.ne_nil_of_mem hmem)
  exact ⟨_, exec_tcur_of_le_last hlast (hinv.offset_le_last hlast _ hmem), rfl⟩

/-! ### What a flush hands over -/

/-- A push that fills the ring leaves every slot in use written: the slots below `wcur` were (R201), and the push writes
the last one. -/
theorem State.Inv.written_of_full (hinv : s.Inv) (hfull : s.wcur + 1 = s.ringCap) (v : SampleName) :
    ∀ i < s.ringCap, ∃ w, Memory.read (s.ring.write s.wcur v) i = some w := by
  intro i hi
  rcases Nat.lt_or_ge i s.wcur with hbelow | habove
  · rw [Memory.read_write_other _ _ hbelow.ne']
    exact hinv.ringFilled i hbelow
  · obtain rfl : i = s.wcur := by omega
    exact ⟨v, Memory.read_write_same _ _ _⟩

/-- A pulse that emits an event is one that fills the ring (R167). -/
theorem exec_apulse_event {b p : SampleName} {e : SamplesEvent} (ht : exec (.apulse true b p) s = .next t)
    (he : t.event = some e) : s.wcur + 1 = s.ringCap := by
  by_contra hroom
  obtain rfl := Host.Outcome.next.inj ((exec_apulse_of_room b p hroom).symm.trans ht)
  cases he

/-- Settles O49: the pulse has filled the ring, every slot in use is written, and a flush draws only for slots that are
not. -/
theorem flushDeliversOnlyWrittenSamples : Obligations.FlushDeliversOnlyWrittenSamples := by
  intro s t b p e hinv ht he
  have hfull := exec_apulse_event ht he
  have hwritten := hinv.written_of_full hfull (s.cfg.sumName b p)
  have hcanonical := Memory.wf_write hinv.ringCanonical s.wcur (s.cfg.sumName b p)
  rw [exec_apulse_of_full b p hfull, State.flush_pushSample hinv.ringCanonical] at ht
  obtain rfl := Host.Outcome.next.inj ht
  obtain rfl := Option.some.inj he
  refine ⟨?draws, fun i hi => ?slot⟩
  case draws =>
    refine Nat.add_eq_left.2 (List.countP_eq_zero.2 fun j hj => ?_)
    obtain ⟨w, hw⟩ := hwritten j (List.mem_range.1 hj)
    simp [hw]
  case slot =>
    obtain ⟨w, hw⟩ := hwritten i hi
    exact ⟨w, hw, getElem?_slotSamples_of_written hcanonical hi hw _⟩

end Sys2Proof.Machine
end
